-- ==== Sys2Proof/Word.lean ====
section
/-! DEFINITION. The byte and the four-byte key, the two data types every other file speaks of
(00_scope.md R4, R7; 10_state.md R19). -/

namespace Sys2Proof

/-- One byte: every buffer element is 8 bits (R4 `BYTE_W`, D32). -/
abbrev Byte := BitVec 8

/-- A mask key: exactly four bytes in wire order (R4 `KEY_BYTES`, 20_memory.md R33). -/
structure Key where
  b0 : Byte
  b1 : Byte
  b2 : Byte
  b3 : Byte
  deriving DecidableEq, Repr

end Sys2Proof
end

