-- ==== Sys2Proof/Config.lean ====
section
/-! DEFINITION. What an implementation fixes (00_scope.md R4). `BYTE_W`, `OPCODE_W`, `BASELEN_W`,
`EXT16_W`, `EXT64_W` and `KEY_BYTES` are the widths of the types used everywhere. `TRANSPORT` is OPEN and no
rule depends on it, so it is no parameter here; the host's moves take one byte at a time (log entry 23). `PAYLOAD_MAX` is OPEN: it is the field `State.payloadMax`, over
which every statement quantifies, and only its value in `State.reset` is named here. -/

namespace Sys2Proof.Config

/-- `FIN_ENC`: the encoder always emits fin = 1 (R4, R81). -/
def finEnc : Bool := true

/-- DESIGN CHOICE (log entry 2): the `PAYLOAD_MAX` that `State.reset` carries, the largest value R4 allows,
2^63 - 1. No statement rests on it. -/
def resetPayloadMax : BitVec 63 := BitVec.allOnes 63

/-- `FRAME_MAX = PAYLOAD_MAX + 14` (R4): 1 header byte, 9 length bytes, 4 key bytes and the payload. -/
def frameMax (payloadMax : BitVec 63) : Nat := payloadMax.toNat + 14

end Sys2Proof.Config
end

