-- ==== Sys2Proof/Syntax.lean ====
section
/-! DEFINITION. The instructions: one constructor per row of spec/opcode_table.json (36 rows, 30_encoding.md
section 8). A CMD_OP row is an operation of the block. An HDR16 row is read as an instruction thus (log entry
6): a constructor value is ONE header word of that row, its operands are the bits the row's pattern leaves
free, most significant first, and what it does is what DECODE does with a frame that begins with that word. A
FRAME row holds a whole header: the header word, the extended length and the key (R55). -/

namespace Sys2Proof

/-- Every row of the opcode table. Operands: `fin`, `mask` one bit each; `rsv` the bits rsv1, rsv2, rsv3;
`opcode` the opcode nibble; `base` the base length; `ext` the extended length; `key` the key bytes. -/
inductive Instr where
  /-- `CMD_OP = 0`, R89. -/
  | encode
  /-- `CMD_OP = 1`, R109. -/
  | decode
  /-- `CMD_OP = 2`, R137. -/
  | xform
  /-- `CMD_OP = 3`, reserved, R67. -/
  | cmdReserved
  /-- Opcode 0 (`CONT`), accepted, R103: `f0000000 mlllllll`. -/
  | cont (fin mask : Bool) (base : BitVec 7)
  /-- Opcode 1 (`TEXT`), accepted, R103: `f0000001 mlllllll`. -/
  | text (fin mask : Bool) (base : BitVec 7)
  /-- Opcode 2 (`BIN`), accepted, R103: `f0000010 mlllllll`. -/
  | bin (fin mask : Bool) (base : BitVec 7)
  /-- Opcode 3 (`RSVNC3`), reserved non-control, R142: `f0000011 mlllllll`. -/
  | rsvnc3 (fin mask : Bool) (base : BitVec 7)
  /-- Opcode 4 (`RSVNC4`), reserved non-control, R142: `f0000100 mlllllll`. -/
  | rsvnc4 (fin mask : Bool) (base : BitVec 7)
  /-- Opcode 5 (`RSVNC5`), reserved non-control, R142: `f0000101 mlllllll`. -/
  | rsvnc5 (fin mask : Bool) (base : BitVec 7)
  /-- Opcode 6 (`RSVNC6`), reserved non-control, R142: `f0000110 mlllllll`. -/
  | rsvnc6 (fin mask : Bool) (base : BitVec 7)
  /-- Opcode 7 (`RSVNC7`), reserved non-control, R142: `f0000111 mlllllll`. -/
  | rsvnc7 (fin mask : Bool) (base : BitVec 7)
  /-- Opcode 8 (`CLOSE`), accepted, R103: `f0001000 mlllllll`. -/
  | close (fin mask : Bool) (base : BitVec 7)
  /-- Opcode 9 (`PING`), accepted, R103: `f0001001 mlllllll`. -/
  | ping (fin mask : Bool) (base : BitVec 7)
  /-- Opcode 10 (`PONG`), accepted, R103: `f0001010 mlllllll`. -/
  | pong (fin mask : Bool) (base : BitVec 7)
  /-- Opcode 11 (`RSVC11`), reserved control, R143: `f0001011 mlllllll`. -/
  | rsvc11 (fin mask : Bool) (base : BitVec 7)
  /-- Opcode 12 (`RSVC12`), reserved control, R143: `f0001100 mlllllll`. -/
  | rsvc12 (fin mask : Bool) (base : BitVec 7)
  /-- Opcode 13 (`RSVC13`), reserved control, R143: `f0001101 mlllllll`. -/
  | rsvc13 (fin mask : Bool) (base : BitVec 7)
  /-- Opcode 14 (`RSVC14`), reserved control, R143: `f0001110 mlllllll`. -/
  | rsvc14 (fin mask : Bool) (base : BitVec 7)
  /-- Opcode 15 (`RSVC15`), reserved control, R143: `f0001111 mlllllll`. -/
  | rsvc15 (fin mask : Bool) (base : BitVec 7)
  /-- Reserved bit rsv1 set, R141: `f1rroooo mlllllll`. -/
  | rsv1Set (fin rsv2 rsv3 : Bool) (opcode : BitVec 4) (mask : Bool) (base : BitVec 7)
  /-- Reserved bit rsv2 set, R141: `fr1roooo mlllllll`. -/
  | rsv2Set (fin rsv1 rsv3 : Bool) (opcode : BitVec 4) (mask : Bool) (base : BitVec 7)
  /-- Reserved bit rsv3 set, R141: `frr1oooo mlllllll`. -/
  | rsv3Set (fin rsv1 rsv2 : Bool) (opcode : BitVec 4) (mask : Bool) (base : BitVec 7)
  /-- fin = 1, R101: `1rrroooo mlllllll`. -/
  | finSet (rsv : BitVec 3) (opcode : BitVec 4) (mask : Bool) (base : BitVec 7)
  /-- fin = 0, R64: `0rrroooo mlllllll`. -/
  | finClear (rsv : BitVec 3) (opcode : BitVec 4) (mask : Bool) (base : BitVec 7)
  /-- Masked flag 1, R105: `frrroooo 1lllllll`. -/
  | masked (fin : Bool) (rsv : BitVec 3) (opcode : BitVec 4) (base : BitVec 7)
  /-- Masked flag 0, R105: `frrroooo 0lllllll`. -/
  | unmasked (fin : Bool) (rsv : BitVec 3) (opcode : BitVec 4) (base : BitVec 7)
  /-- Tier LEN7, R83 and R104: `frrroooo mlllllll`, base at most 125. -/
  | len7 (fin : Bool) (rsv : BitVec 3) (opcode : BitVec 4) (mask : Bool) (base : BitVec 7)
  /-- Tier LEN16, R84 and R104: `frrroooo m1111110`. -/
  | len16 (fin : Bool) (rsv : BitVec 3) (opcode : BitVec 4) (mask : Bool)
  /-- Tier LEN64, R85 and R104: `frrroooo m1111111`. -/
  | len64 (fin : Bool) (rsv : BitVec 3) (opcode : BitVec 4) (mask : Bool)
  /-- Format F7U, R55: 2 header bytes, base at most 125. -/
  | f7u (fin : Bool) (rsv : BitVec 3) (opcode : BitVec 4) (base : BitVec 7)
  /-- Format F7M, R55: 6 header bytes, base at most 125. -/
  | f7m (fin : Bool) (rsv : BitVec 3) (opcode : BitVec 4) (base : BitVec 7) (key : Key)
  /-- Format F16U, R55: 4 header bytes. -/
  | f16u (fin : Bool) (rsv : BitVec 3) (opcode : BitVec 4) (ext : BitVec 16)
  /-- Format F16M, R55: 8 header bytes. -/
  | f16m (fin : Bool) (rsv : BitVec 3) (opcode : BitVec 4) (ext : BitVec 16) (key : Key)
  /-- Format F64U, R55: 10 header bytes. -/
  | f64u (fin : Bool) (rsv : BitVec 3) (opcode : BitVec 4) (ext : BitVec 64)
  /-- Format F64M, R55: 14 header bytes. -/
  | f64m (fin : Bool) (rsv : BitVec 3) (opcode : BitVec 4) (ext : BitVec 64) (key : Key)
  deriving DecidableEq, Repr

end Sys2Proof
end

