-- ==== Sys2Proof/WellFormed.lean ====
section
/-! DEFINITION. Well-formed instructions: the one condition of the table that the operand types do not carry
is that a base length of the one-byte tier is at most 125 (30_encoding.md R52, R54; the rows LEN7, F7U and F7M
are "taken when the base length is 0 to 125"). -/

namespace Sys2Proof

/-- A base length that is itself the payload length (R52). -/
abbrev directBase (base : BitVec 7) : Bool := decide (base.toNat ≤ 125)

/-- The rows whose words are only some of those their operands can spell. -/
def Instr.wellFormed : Instr → Bool
  | .len7 _ _ _ _ base => directBase base
  | .f7u _ _ _ base => directBase base
  | .f7m _ _ _ base _ => directBase base
  | .encode | .decode | .xform | .cmdReserved => true
  | .cont _ _ _ => true
  | .text _ _ _ => true
  | .bin _ _ _ => true
  | .rsvnc3 _ _ _ => true
  | .rsvnc4 _ _ _ => true
  | .rsvnc5 _ _ _ => true
  | .rsvnc6 _ _ _ => true
  | .rsvnc7 _ _ _ => true
  | .close _ _ _ => true
  | .ping _ _ _ => true
  | .pong _ _ _ => true
  | .rsvc11 _ _ _ => true
  | .rsvc12 _ _ _ => true
  | .rsvc13 _ _ _ => true
  | .rsvc14 _ _ _ => true
  | .rsvc15 _ _ _ => true
  | .rsv1Set _ _ _ _ _ _ | .rsv2Set _ _ _ _ _ _ | .rsv3Set _ _ _ _ _ _ => true
  | .finSet _ _ _ _ | .finClear _ _ _ _ => true
  | .masked _ _ _ _ | .unmasked _ _ _ _ => true
  | .len16 _ _ _ _ | .len64 _ _ _ _ => true
  | .f16u _ _ _ _ | .f16m _ _ _ _ _ | .f64u _ _ _ _ | .f64m _ _ _ _ _ => true

end Sys2Proof
end

