-- ==== Sys2Proof/Decode.lean ====
section
/-! DEFINITION. From bits to instructions and back (30_encoding.md R50 to R59, R67 and section 8). The 16-bit
rows overlap: every header word lies in one fin row, one masked-flag row, one tier row and one format row, and
in each reserved-bit row whose bit it sets or, when it sets none, in one opcode row. So the decoder decodes
within a `Group` of rows, and `decodeHeader` takes the first that matches in the order section 8 gives. -/

namespace Sys2Proof

/-! ### Byte order (R8, R31, R56, R57) -/

/-- `be16(a, b) = (a << 8) | b` (R8). -/
def be16 (a b : Byte) : BitVec 16 := (a.zeroExtend 16 <<< 8) ||| b.zeroExtend 16

/-- `be32(a, b, c, d)` (R8). -/
def be32 (a b c d : Byte) : BitVec 32 :=
  (a.zeroExtend 32 <<< 24) ||| (b.zeroExtend 32 <<< 16) ||| (c.zeroExtend 32 <<< 8) ||| d.zeroExtend 32

/-- `(zext_64(HI) << 32) | zext_64(LO)`, the shift taken on the 64-bit widening (R57). -/
def joinHalves (hi lo : BitVec 32) : BitVec 64 := (hi.zeroExtend 64 <<< 32) ||| lo.zeroExtend 64

/-- The two bytes of a 16-bit field, the more significant first (R31, R56). -/
def bytes16 (v : BitVec 16) : List Byte := [(v >>> 8).truncate 8, v.truncate 8]

/-- The four bytes of a 32-bit field, the most significant first (R31). -/
def bytes32 (v : BitVec 32) : List Byte :=
  [(v >>> 24).truncate 8, (v >>> 16).truncate 8, (v >>> 8).truncate 8, v.truncate 8]

/-- `HI = (L >> 32) & 0xFFFFFFFF` (R57). -/
def highHalf (v : BitVec 64) : BitVec 32 := (v >>> 32).truncate 32

/-- `LO = L & 0xFFFFFFFF` (R57). -/
def lowHalf (v : BitVec 64) : BitVec 32 := v.truncate 32

/-- The eight bytes of the 64-bit length, high half first (R57). -/
def bytes64 (v : BitVec 64) : List Byte := bytes32 (highHalf v) ++ bytes32 (lowHalf v)

/-- The four key bytes in wire order (R33). -/
def Key.bytes (k : Key) : List Byte := [k.b0, k.b1, k.b2, k.b3]

/-! ### The fields of the header word, by the source's seven masks (R53) -/

/-- `FIN <- (HDR & 0x8000) != 0`. -/
def hdrFin (h : BitVec 16) : Bool := (h &&& 0x8000#16) != 0#16
/-- `RSV1 <- (HDR & 0x4000) != 0`. -/
def hdrRsv1 (h : BitVec 16) : Bool := (h &&& 0x4000#16) != 0#16
/-- `RSV2 <- (HDR & 0x2000) != 0`. -/
def hdrRsv2 (h : BitVec 16) : Bool := (h &&& 0x2000#16) != 0#16
/-- `RSV3 <- (HDR & 0x1000) != 0`. -/
def hdrRsv3 (h : BitVec 16) : Bool := (h &&& 0x1000#16) != 0#16
/-- `OPC <- (HDR & 0x0F00) >> 8`. -/
def hdrOpcode (h : BitVec 16) : BitVec 4 := ((h &&& 0x0F00#16) >>> 8).truncate 4
/-- `MSKF <- (HDR & 0x0080) != 0`. -/
def hdrMask (h : BitVec 16) : Bool := (h &&& 0x0080#16) != 0#16
/-- `BASE <- HDR & 0x007F`. -/
def hdrBase (h : BitVec 16) : BitVec 7 := (h &&& 0x007F#16).truncate 7

/-- The three reserved bits together, rsv1 the most significant. -/
def hdrRsv (h : BitVec 16) : BitVec 3 := ((h &&& 0x7000#16) >>> 12).truncate 3

/-- The header word with these fields: `f rrr oooo m lllllll` (R53). -/
def hdrWord (fin : Bool) (rsv : BitVec 3) (opcode : BitVec 4) (mask : Bool) (base : BitVec 7) : BitVec 16 :=
  ((BitVec.ofBool fin).zeroExtend 16 <<< 15) ||| (rsv.zeroExtend 16 <<< 12) ||| (opcode.zeroExtend 16 <<< 8) |||
    ((BitVec.ofBool mask).zeroExtend 16 <<< 7) ||| base.zeroExtend 16

/-- Three reserved bits from their single bits. -/
def rsvBits (rsv1 rsv2 rsv3 : Bool) : BitVec 3 :=
  ((BitVec.ofBool rsv1).zeroExtend 3 <<< 2) ||| ((BitVec.ofBool rsv2).zeroExtend 3 <<< 1) |||
    (BitVec.ofBool rsv3).zeroExtend 3

/-! ### Groups of rows -/

/-- The groups within which rows do not overlap. -/
inductive Group where
  | command | rsv1 | rsv2 | rsv3 | opcode | fin | mask | tier | format
  deriving DecidableEq, Repr

/-- The group of a row. -/
def Instr.group : Instr → Group
  | .encode | .decode | .xform | .cmdReserved => .command
  | .cont _ _ _ => .opcode
  | .text _ _ _ => .opcode
  | .bin _ _ _ => .opcode
  | .rsvnc3 _ _ _ => .opcode
  | .rsvnc4 _ _ _ => .opcode
  | .rsvnc5 _ _ _ => .opcode
  | .rsvnc6 _ _ _ => .opcode
  | .rsvnc7 _ _ _ => .opcode
  | .close _ _ _ => .opcode
  | .ping _ _ _ => .opcode
  | .pong _ _ _ => .opcode
  | .rsvc11 _ _ _ => .opcode
  | .rsvc12 _ _ _ => .opcode
  | .rsvc13 _ _ _ => .opcode
  | .rsvc14 _ _ _ => .opcode
  | .rsvc15 _ _ _ => .opcode
  | .rsv1Set _ _ _ _ _ _ => .rsv1
  | .rsv2Set _ _ _ _ _ _ => .rsv2
  | .rsv3Set _ _ _ _ _ _ => .rsv3
  | .finSet _ _ _ _ | .finClear _ _ _ _ => .fin
  | .masked _ _ _ _ | .unmasked _ _ _ _ => .mask
  | .len7 _ _ _ _ _ | .len16 _ _ _ _ | .len64 _ _ _ _ => .tier
  | .f7u _ _ _ _ | .f7m _ _ _ _ _ | .f16u _ _ _ _ | .f16m _ _ _ _ _ | .f64u _ _ _ _ | .f64m _ _ _ _ _ => .format

/-- Why bytes are no instruction of the group asked for. -/
inductive DecodeError where
  /-- No byte holds the operation select. -/
  | noCommand
  /-- Fewer than the two bytes of the header word (R58). -/
  | shortHeader
  /-- The header word is in no row of the group: the reserved bit is clear, or one is set. -/
  | rowNotMatched
  /-- The extended length is not whole. -/
  | shortExtLen
  /-- The key is not whole. -/
  | shortKey
  deriving DecidableEq, Repr

/-- The operation select (R67): all four codes are rows. -/
def decodeCommand (c : BitVec 2) : Instr :=
  if c = 0#2 then .encode else if c = 1#2 then .decode else if c = 2#2 then .xform else .cmdReserved

/-- The opcode row of a header word whose reserved bits are 0 (R59). -/
def decodeOpcode (h : BitVec 16) : Instr :=
  let f := hdrFin h
  let m := hdrMask h
  let l := hdrBase h
  let o := hdrOpcode h
  if o = 0#4 then .cont f m l
  else if o = 1#4 then .text f m l
  else if o = 2#4 then .bin f m l
  else if o = 3#4 then .rsvnc3 f m l
  else if o = 4#4 then .rsvnc4 f m l
  else if o = 5#4 then .rsvnc5 f m l
  else if o = 6#4 then .rsvnc6 f m l
  else if o = 7#4 then .rsvnc7 f m l
  else if o = 8#4 then .close f m l
  else if o = 9#4 then .ping f m l
  else if o = 10#4 then .pong f m l
  else if o = 11#4 then .rsvc11 f m l
  else if o = 12#4 then .rsvc12 f m l
  else if o = 13#4 then .rsvc13 f m l
  else if o = 14#4 then .rsvc14 f m l
  else .rsvc15 f m l

/-- The row RSV1_SET, when its bit is set (R60). -/
def decodeRsv1 (h : BitVec 16) : Except DecodeError Instr :=
  if hdrRsv1 h then .ok (.rsv1Set (hdrFin h) (hdrRsv2 h) (hdrRsv3 h) (hdrOpcode h) (hdrMask h) (hdrBase h))
  else .error .rowNotMatched

/-- The row RSV2_SET, when its bit is set (R60). -/
def decodeRsv2 (h : BitVec 16) : Except DecodeError Instr :=
  if hdrRsv2 h then .ok (.rsv2Set (hdrFin h) (hdrRsv1 h) (hdrRsv3 h) (hdrOpcode h) (hdrMask h) (hdrBase h))
  else .error .rowNotMatched

/-- The row RSV3_SET, when its bit is set (R60). -/
def decodeRsv3 (h : BitVec 16) : Except DecodeError Instr :=
  if hdrRsv3 h then .ok (.rsv3Set (hdrFin h) (hdrRsv1 h) (hdrRsv2 h) (hdrOpcode h) (hdrMask h) (hdrBase h))
  else .error .rowNotMatched

/-- The opcode rows: mask `0x7F00`, so they apply only when the three reserved bits are 0 (section 8). -/
def decodeOpcodeRow (h : BitVec 16) : Except DecodeError Instr :=
  if h &&& 0x7000#16 = 0#16 then .ok (decodeOpcode h) else .error .rowNotMatched

/-- The fin rows. -/
def decodeFin (h : BitVec 16) : Instr :=
  if hdrFin h then .finSet (hdrRsv h) (hdrOpcode h) (hdrMask h) (hdrBase h)
  else .finClear (hdrRsv h) (hdrOpcode h) (hdrMask h) (hdrBase h)

/-- The masked-flag rows. -/
def decodeMask (h : BitVec 16) : Instr :=
  if hdrMask h then .masked (hdrFin h) (hdrRsv h) (hdrOpcode h) (hdrBase h)
  else .unmasked (hdrFin h) (hdrRsv h) (hdrOpcode h) (hdrBase h)

/-- The tier rows: LEN7 when neither LEN16 nor LEN64 matches (section 8). -/
def decodeTier (h : BitVec 16) : Instr :=
  if hdrBase h = 126#7 then .len16 (hdrFin h) (hdrRsv h) (hdrOpcode h) (hdrMask h)
  else if hdrBase h = 127#7 then .len64 (hdrFin h) (hdrRsv h) (hdrOpcode h) (hdrMask h)
  else .len7 (hdrFin h) (hdrRsv h) (hdrOpcode h) (hdrMask h) (hdrBase h)

/-- The key at the front of a byte sequence, and the rest. -/
def takeKey : List Byte → Except DecodeError (Key × List Byte)
  | a :: b :: c :: d :: rest => .ok (Key.mk a b c d, rest)
  | _ => .error .shortKey

/-- A 16-bit extended length at the front of a byte sequence, and the rest (R56). -/
def takeExt16 : List Byte → Except DecodeError (BitVec 16 × List Byte)
  | a :: b :: rest => .ok (be16 a b, rest)
  | _ => .error .shortExtLen

/-- A 64-bit extended length at the front of a byte sequence, and the rest (R57). -/
def takeExt64 : List Byte → Except DecodeError (BitVec 64 × List Byte)
  | a :: b :: c :: d :: e :: f :: g :: h :: rest => .ok (joinHalves (be32 a b c d) (be32 e f g h), rest)
  | _ => .error .shortExtLen

/-- The format of a whole header whose word is `h`, the bytes after the word being `rest` (R55, R58). -/
def decodeFormat (h : BitVec 16) (rest : List Byte) : Except DecodeError (Instr × List Byte) :=
  let f := hdrFin h
  let r := hdrRsv h
  let o := hdrOpcode h
  if hdrBase h = 126#7 then
    match takeExt16 rest with
    | .error e => .error e
    | .ok (ext, rest) =>
      if hdrMask h then
        match takeKey rest with
        | .error e => .error e
        | .ok (key, rest) => .ok (.f16m f r o ext key, rest)
      else .ok (.f16u f r o ext, rest)
  else if hdrBase h = 127#7 then
    match takeExt64 rest with
    | .error e => .error e
    | .ok (ext, rest) =>
      if hdrMask h then
        match takeKey rest with
        | .error e => .error e
        | .ok (key, rest) => .ok (.f64m f r o ext key, rest)
      else .ok (.f64u f r o ext, rest)
  else if hdrMask h then
    match takeKey rest with
    | .error e => .error e
    | .ok (key, rest) => .ok (.f7m f r o (hdrBase h) key, rest)
  else .ok (.f7u f r o (hdrBase h), rest)

/-- Keep the bytes after a header word beside what the word decodes to. -/
def withRest (rest : List Byte) : Except DecodeError Instr → Except DecodeError (Instr × List Byte)
  | .error e => .error e
  | .ok i => .ok (i, rest)

/-- Decoding within one group of rows: the instruction and the bytes after it, or the reason there is none.
Total on any bytes. -/
def decodeIn (g : Group) (bytes : List Byte) : Except DecodeError (Instr × List Byte) :=
  match g, bytes with
  | .command, c :: rest => .ok (decodeCommand (c.truncate 2), rest)
  | .command, [] => .error .noCommand
  | .rsv1, a :: b :: rest => withRest rest (decodeRsv1 (be16 a b))
  | .rsv2, a :: b :: rest => withRest rest (decodeRsv2 (be16 a b))
  | .rsv3, a :: b :: rest => withRest rest (decodeRsv3 (be16 a b))
  | .opcode, a :: b :: rest => withRest rest (decodeOpcodeRow (be16 a b))
  | .fin, a :: b :: rest => .ok (decodeFin (be16 a b), rest)
  | .mask, a :: b :: rest => .ok (decodeMask (be16 a b), rest)
  | .tier, a :: b :: rest => .ok (decodeTier (be16 a b), rest)
  | .format, a :: b :: rest => decodeFormat (be16 a b) rest
  | _, _ => .error .shortHeader

/-- The first row a header word is in, in the order of section 8: the reserved-bit rows, then the opcode row. -/
def decodeLegality (h : BitVec 16) : Instr :=
  if hdrRsv1 h then .rsv1Set (hdrFin h) (hdrRsv2 h) (hdrRsv3 h) (hdrOpcode h) (hdrMask h) (hdrBase h)
  else if hdrRsv2 h then .rsv2Set (hdrFin h) (hdrRsv1 h) (hdrRsv3 h) (hdrOpcode h) (hdrMask h) (hdrBase h)
  else if hdrRsv3 h then .rsv3Set (hdrFin h) (hdrRsv1 h) (hdrRsv2 h) (hdrOpcode h) (hdrMask h) (hdrBase h)
  else decodeOpcode h

/-- The instruction at the front of a frame's bytes: the first row its header word is in. -/
def decodeHeader : List Byte → Except DecodeError (Instr × List Byte)
  | a :: b :: rest => .ok (decodeLegality (be16 a b), rest)
  | _ => .error .shortHeader

/-- `nbits` at most 8 is an operation select in the low two bits of a byte. Anything wider is a header word,
whose first byte on the wire is its more significant one (R31), followed by bytes of zeros. -/
def decodeTableWord (nbits w : Nat) : Option Instr :=
  if nbits ≤ 8 then
    match decodeIn .command [BitVec.ofNat 8 w] with
    | .ok (i, _) => some i
    | .error _ => none
  else
    match decodeHeader (bytes16 (BitVec.ofNat 16 w) ++ List.replicate 12 0#8) with
    | .ok (i, _) => some i
    | .error _ => none

/-! ### Encoding, from the same tables -/

/-- The opcode nibble of an opcode row (R59). -/
def opcodeRowWord (opcode : BitVec 4) (fin mask : Bool) (base : BitVec 7) : List Byte :=
  bytes16 (hdrWord fin 0#3 opcode mask base)

/-- The bytes of an instruction: the operation select in a byte of its own, the header word's two bytes, or
the whole header of a frame format (R55, R67). -/
def encode : Instr → List Byte
  | .encode => [0#8]
  | .decode => [1#8]
  | .xform => [2#8]
  | .cmdReserved => [3#8]
  | .cont f m l => opcodeRowWord 0#4 f m l
  | .text f m l => opcodeRowWord 1#4 f m l
  | .bin f m l => opcodeRowWord 2#4 f m l
  | .rsvnc3 f m l => opcodeRowWord 3#4 f m l
  | .rsvnc4 f m l => opcodeRowWord 4#4 f m l
  | .rsvnc5 f m l => opcodeRowWord 5#4 f m l
  | .rsvnc6 f m l => opcodeRowWord 6#4 f m l
  | .rsvnc7 f m l => opcodeRowWord 7#4 f m l
  | .close f m l => opcodeRowWord 8#4 f m l
  | .ping f m l => opcodeRowWord 9#4 f m l
  | .pong f m l => opcodeRowWord 10#4 f m l
  | .rsvc11 f m l => opcodeRowWord 11#4 f m l
  | .rsvc12 f m l => opcodeRowWord 12#4 f m l
  | .rsvc13 f m l => opcodeRowWord 13#4 f m l
  | .rsvc14 f m l => opcodeRowWord 14#4 f m l
  | .rsvc15 f m l => opcodeRowWord 15#4 f m l
  | .rsv1Set f r2 r3 o m l => bytes16 (hdrWord f (rsvBits true r2 r3) o m l)
  | .rsv2Set f r1 r3 o m l => bytes16 (hdrWord f (rsvBits r1 true r3) o m l)
  | .rsv3Set f r1 r2 o m l => bytes16 (hdrWord f (rsvBits r1 r2 true) o m l)
  | .finSet r o m l => bytes16 (hdrWord true r o m l)
  | .finClear r o m l => bytes16 (hdrWord false r o m l)
  | .masked f r o l => bytes16 (hdrWord f r o true l)
  | .unmasked f r o l => bytes16 (hdrWord f r o false l)
  | .len7 f r o m l => bytes16 (hdrWord f r o m l)
  | .len16 f r o m => bytes16 (hdrWord f r o m 126#7)
  | .len64 f r o m => bytes16 (hdrWord f r o m 127#7)
  | .f7u f r o l => bytes16 (hdrWord f r o false l)
  | .f7m f r o l k => bytes16 (hdrWord f r o true l) ++ k.bytes
  | .f16u f r o e => bytes16 (hdrWord f r o false 126#7) ++ bytes16 e
  | .f16m f r o e k => bytes16 (hdrWord f r o true 126#7) ++ bytes16 e ++ k.bytes
  | .f64u f r o e => bytes16 (hdrWord f r o false 127#7) ++ bytes64 e
  | .f64m f r o e k => bytes16 (hdrWord f r o true 127#7) ++ bytes64 e ++ k.bytes

end Sys2Proof
end

