-- ==== Sys2Proof/Machine/State.lean ====
section
/-! DEFINITION. The state of one instance of the block (10_state.md), the moves that can still come from
outside (R182), the reasons a step can stop, and the state after reset (R22). A register or a byte that holds
NO VALUE is a value the spec itself gives (R21, R22): it is `none`, or an offset with no cell. -/

namespace Sys2Proof.Machine

/-! ### Names of values -/

/-- The three values of `PH` (R12). -/
inductive Phase where
  | idle | busy | done
  deriving DecidableEq, Repr

/-- `RES_STATUS` (R146): the value 3 is never produced and has no name (U13). -/
inductive Status where
  | ok | protocolViolation | framingFault
  deriving DecidableEq, Repr

/-- The three causes of a ProtocolViolation (R140 to R143). -/
inductive Violation where
  | rsvSet | reservedNoncontrolOpcode | reservedControlOpcode
  deriving DecidableEq, Repr

/-- The six causes of a FramingFault (R107, R144). -/
inductive Framing where
  | shortHeader | shortExtLen | lengthRange | shortKey | shortPayload | trailingBytes
  deriving DecidableEq, Repr

/-- `RES_REASON` (R146): `NONE`, or the cause of the failure. -/
inductive Reason where
  | none
  | violation (v : Violation)
  | framing (f : Framing)
  deriving DecidableEq, Repr

/-- A failure of an operation: an error kind with its reason (R140, R144). -/
inductive Failure where
  | violation (v : Violation)
  | framing (f : Framing)
  deriving DecidableEq, Repr

/-- The names of the registers and of the bytes of the two buffers (R13 to R17). -/
inductive Reg where
  | ph | cmdOp | cmdOpcode | cmdHasKey
  | cmdKey (j : Fin 4)
  | ilen
  | ibuf (offset : Nat)
  | olen
  | obuf (offset : Nat)
  | resStatus | resReason | resFin | resOpcode
  | hdr | fin | rsv1 | rsv2 | rsv3 | opc | mskf | base | hi | lo | len | pos | keyw | idx
  deriving DecidableEq, Repr

/-! ### The buffers -/

/-- A buffer's bytes by offset (R30), offsets strictly rising. An offset with no cell holds no value (R21). -/
abbrev Mem := List Host.Cell

/-- The canonical form: offsets strictly rising. A cell always holds a value and an unlisted offset holds
none, so no cell equals what an unlisted offset reads as. -/
abbrev Mem.wf (m : Mem) : Prop := m.Pairwise (fun a b => a.1 < b.1)

/-! ### Registers -/

/-- The working registers (R17): written before they are read within one operation, no value outside phase
BUSY. One-bit registers are `Bool`, true for 1. -/
structure Work where
  /-- `HDR`, 16 bits. -/
  hdr : Option (BitVec 16)
  /-- `FIN`. -/
  fin : Option Bool
  /-- `RSV1`. -/
  rsv1 : Option Bool
  /-- `RSV2`. -/
  rsv2 : Option Bool
  /-- `RSV3`. -/
  rsv3 : Option Bool
  /-- `OPC`, 4 bits. -/
  opc : Option (BitVec 4)
  /-- `MSKF`. -/
  mskf : Option Bool
  /-- `BASE`, 7 bits. -/
  base : Option (BitVec 7)
  /-- `HI`, 32 bits. -/
  hi : Option (BitVec 32)
  /-- `LO`, 32 bits. -/
  lo : Option (BitVec 32)
  /-- `LEN`, 64 bits. -/
  len : Option (BitVec 64)
  /-- `POS`, 64 bits. -/
  pos : Option (BitVec 64)
  /-- `KEYW[0..3]`, written whole (R19). -/
  keyw : Option Key
  /-- `IDX`, 2 bits. -/
  idx : Option (BitVec 2)
  deriving DecidableEq, Repr

/-- No working register holds a value. -/
def Work.clear : Work :=
  { hdr := none, fin := none, rsv1 := none, rsv2 := none, rsv3 := none, opc := none, mskf := none,
    base := none, hi := none, lo := none, len := none, pos := none, keyw := none, idx := none }

/-- What can move the machine: the host (R12, R13, R23), the platform (`reset`, R170) and the block
(`execute`, R12). The host's values have the widths of the registers they are written to.
DESIGN CHOICE (log entry 23): how the host's bytes cross the boundary is TRANSPORT, which the spec leaves open
(R4, R37, D3). Here one move carries one register, or one byte of a buffer at a given offset. -/
inductive Move where
  | writeOp (v : BitVec 2)
  | writeOpcode (v : BitVec 4)
  | writeHasKey (v : Bool)
  | writeKey (j : Fin 4) (v : Byte)
  /-- The key on one 32-bit port, first byte most significant (R13, D8). -/
  | writeKey32 (v : BitVec 32)
  | writeIlen (v : BitVec 64)
  /-- One byte of IBUF at an offset (R14; DESIGN CHOICE, log entries 9 and 23). -/
  | writeIbuf (offset : BitVec 64) (v : Byte)
  | start
  /-- One register, or one byte of IBUF or OBUF at an offset (R23; DESIGN CHOICE, log entries 10 and 23). -/
  | read (r : Reg)
  | reset
  | execute
  deriving DecidableEq, Repr

/-- The state of one instance. -/
structure State where
  /-- `PH` (R12). -/
  ph : Phase
  /-- `CMD_OP`, 2 bits (R13). -/
  cmdOp : Option (BitVec 2)
  /-- `CMD_OPCODE`, 4 bits (R13). -/
  cmdOpcode : Option (BitVec 4)
  /-- `CMD_HASKEY`, 1 bit (R13). -/
  cmdHasKey : Option Bool
  /-- `CMD_KEY[0]` (R13). -/
  cmdKey0 : Option Byte
  /-- `CMD_KEY[1]` (R13). -/
  cmdKey1 : Option Byte
  /-- `CMD_KEY[2]` (R13). -/
  cmdKey2 : Option Byte
  /-- `CMD_KEY[3]` (R13). -/
  cmdKey3 : Option Byte
  /-- `ILEN`, 64 bits (R14). -/
  ilen : Option (BitVec 64)
  /-- `IBUF` (R14). -/
  ibuf : Mem
  /-- `OLEN`, 64 bits (R15). -/
  olen : Option (BitVec 64)
  /-- `OBUF` (R15). -/
  obuf : Mem
  /-- `RES_STATUS` (R16). -/
  resStatus : Option Status
  /-- `RES_REASON` (R16). -/
  resReason : Option Reason
  /-- `RES_FIN` (R16). -/
  resFin : Option Bool
  /-- `RES_OPCODE`, 4 bits (R16). -/
  resOpcode : Option (BitVec 4)
  /-- The working registers (R17). -/
  work : Work
  /-- `PAYLOAD_MAX` (R4): OPEN, so every statement quantifies over it; no step changes it (log entry 2). -/
  payloadMax : BitVec 63
  /-- The model's own: the moves still to come, next first (R182, log entry 3). -/
  pending : List Move
  /-- The model's own: what the host's last read was answered with (log entry 4). -/
  rdata : Option Nat
  deriving DecidableEq, Repr

/-! ### How a step stops -/

/-- The machine stops. -/
inductive Fault where
  /-- Raised by a host read of IBUF or OBUF at an offset at or past the buffer's length, which does not exist
  (R30). Safe: the model stops where the spec gives no value. -/
  | noSuchOffset (r : Reg)
  deriving DecidableEq, Repr

/-- The step has no meaning (R162). -/
inductive Refusal where
  /-- Raised by exec's arms for an instruction the model has no meaning for. Safe. -/
  | notModelled (mnemonic : String)
  /-- Raised by any read of a register or byte that holds no value (R21). Safe. -/
  | noValue (r : Reg)
  /-- Raised by the reserved operation select `CMD_OP = 3` (R67). Safe. -/
  | reservedCommand
  /-- Raised by START when `ILEN` is above its bound (R14). Safe. -/
  | lengthOverBound
  /-- Raised by START in phase BUSY (R12, R175). Safe for what the model runs; see log entry 8. -/
  | startWhileBusy
  /-- Raised by a host access in phase BUSY other than a read of PH (R23, R174). Safe for what the model runs;
  see log entry 8. -/
  | hostAccessWhileBusy
  /-- Raised by a host read of OBUF, OLEN or RES_* in phase IDLE (R23). Safe. -/
  | noResultYet
  /-- Raised by a host read of a working register (R17, R23). Safe. -/
  | notHostVisible (r : Reg)
  /-- Raised by EXECUTE, and by every operation and row of the table, outside phase BUSY (R12, R38). Safe. -/
  | executeOutsideBusy
  deriving DecidableEq, Repr

/-- Right after reset (R22): PH is IDLE and nothing else holds a value. -/
def State.reset : State :=
  { ph := .idle, cmdOp := none, cmdOpcode := none, cmdHasKey := none, cmdKey0 := none, cmdKey1 := none,
    cmdKey2 := none, cmdKey3 := none, ilen := none, ibuf := [], olen := none, obuf := [], resStatus := none,
    resReason := none, resFin := none, resOpcode := none, work := Work.clear,
    payloadMax := Config.resetPayloadMax, pending := [], rdata := none }

end Sys2Proof.Machine
end

