-- ==== Sys2Proof/Machine/Flags.lean ====
section
/-! DEFINITION. The flag-like bits and the codes: the header flags (10_state.md R18, 30_encoding.md R53), the
opcode map (R59) and the numbers of PH, RES_STATUS and RES_REASON (R12, R146). The block has no condition
codes (R18). -/

namespace Sys2Proof.Machine

/-- Step 1 of DECODE: the header word and the fields its seven masks cut out of it (R53, R101). -/
def Work.unpack (w : Work) (h : BitVec 16) : Work :=
  { w with
    hdr := some h, fin := some (hdrFin h), rsv1 := some (hdrRsv1 h), rsv2 := some (hdrRsv2 h),
    rsv3 := some (hdrRsv3 h), opc := some (hdrOpcode h), mskf := some (hdrMask h), base := some (hdrBase h) }

/-- The class of an opcode (R59). -/
inductive OpcodeClass where
  | accepted | reservedNoncontrol | reservedControl
  deriving DecidableEq, Repr

/-- The opcode map (R59, R61, R103). -/
def opcodeClass (o : BitVec 4) : OpcodeClass :=
  if 3 ≤ o.toNat ∧ o.toNat ≤ 7 then .reservedNoncontrol
  else if 11 ≤ o.toNat ∧ o.toNat ≤ 15 then .reservedControl
  else .accepted

/-- The number of a phase (R12). -/
def Phase.code : Phase → BitVec 2
  | .idle => 0
  | .busy => 1
  | .done => 2

/-- The number of a status (R146). -/
def Status.code : Status → BitVec 2
  | .ok => 0
  | .protocolViolation => 1
  | .framingFault => 2

/-- The number of a reason (R146): it is read together with the status. -/
def Reason.code : Reason → BitVec 3
  | .none => 0
  | .violation .rsvSet => 1
  | .violation .reservedNoncontrolOpcode => 2
  | .violation .reservedControlOpcode => 3
  | .framing .shortHeader => 1
  | .framing .shortExtLen => 2
  | .framing .lengthRange => 3
  | .framing .shortKey => 4
  | .framing .shortPayload => 5
  | .framing .trailingBytes => 6

/-- The source's reason strings of a ProtocolViolation (R141 to R143). -/
def Violation.text : Violation → String
  | .rsvSet => "RSVx set without known meaning"
  | .reservedNoncontrolOpcode => "reserved non-control opcode"
  | .reservedControlOpcode => "reserved control opcode"

/-- The status a failure is reported with (R148). -/
def Failure.status : Failure → Status
  | .violation _ => .protocolViolation
  | .framing _ => .framingFault

/-- The reason a failure is reported with (R148). -/
def Failure.reason : Failure → Reason
  | .violation v => .violation v
  | .framing f => .framing f

/-- The optional level output `done = (PH == DONE)` (R155). -/
def State.doneOutput (s : State) : Bool := s.ph == .done

end Sys2Proof.Machine
end

