-- ==== Sys2Proof/Machine/Ops.lean ====
section
/-! DEFINITION. The named operations over buffers and registers (20_memory.md R30 to R36, 00_scope.md R9), the
masking transform (43_masking.md R130 to R133), how an operation ends, well or by a failure (60_exceptions.md
R148, R151), and how its steps follow one another. -/

namespace Sys2Proof.Machine

/-- What a step of the machine answers. -/
abbrev Result := Host.Outcome State Fault Refusal

/-- A part of an operation. -/
abbrev Action := State → Result

/-! ### Buffers -/

/-- The byte at an offset, or no value (R21). -/
def Mem.read : Mem → Nat → Option Byte
  | [], _ => none
  | (b, v) :: m, a => if a = b then some v else Mem.read m a

/-- Write one byte, keeping the offsets strictly rising. -/
def Mem.write : Mem → Nat → Byte → Mem
  | [], a, v => [(a, v)]
  | (b, w) :: m, a, v =>
    if a < b then (a, v) :: (b, w) :: m else if a = b then (a, v) :: m else (b, w) :: Mem.write m a v

/-- Write a byte sequence at consecutive offsets (R42). -/
def Mem.writeBytes (m : Mem) (a : Nat) : List Byte → Mem
  | [] => m
  | v :: vs => Mem.writeBytes (Mem.write m a v) (a + 1) vs

/-- A buffer that holds exactly a byte sequence, from offset 0. -/
def Mem.ofBytes (bs : List Byte) : Mem := Mem.writeBytes [] 0 bs

/-- The `n` bytes from an offset on, or the first offset among them that holds no value. -/
def Mem.readBytes (m : Mem) (a : Nat) : Nat → Except Nat (List Byte)
  | 0 => .ok []
  | n + 1 =>
    match Mem.read m a with
    | none => .error a
    | some v =>
      match Mem.readBytes m (a + 1) n with
      | .error e => .error e
      | .ok vs => .ok (v :: vs)

/-- The bytes of a field assembled big-endian: the sum over `k` of `b[k] << (8 * (n - 1 - k))` (R35). -/
def bigEndian (bs : List Byte) : Nat := bs.foldl (fun acc b => acc * 256 + b.toNat) 0

/-- `MemRead(buf, addr, n)` (R9, R35). -/
def Mem.readField (m : Mem) (a n : Nat) : Except Nat Nat :=
  match Mem.readBytes m a n with
  | .error e => .error e
  | .ok bs => .ok (bigEndian bs)

/-- The `n` bytes of a value, big-endian: byte `k` is `(v >> (8 * (n - 1 - k))) & 0xFF` (R35). -/
def bigEndianBytes : Nat → Nat → List Byte
  | 0, _ => []
  | n + 1, v => BitVec.ofNat 8 (v / 256 ^ n) :: bigEndianBytes n v

/-- `MemWrite(buf, addr, n, v)` (R9, R35). -/
def Mem.writeField (m : Mem) (a n v : Nat) : Mem := Mem.writeBytes m a (bigEndianBytes n v)

/-! ### The masking transform -/

/-- `KEYW[IDX]` (R19, R132). -/
def keyByte (k : Key) (idx : BitVec 2) : Byte :=
  if idx = 0#2 then k.b0 else if idx = 1#2 then k.b1 else if idx = 2#2 then k.b2 else k.b3

/-- The masking engine from a given index on: `out <- in ^ KEYW[IDX]`, then `IDX <- (IDX + 1) mod 4` (R132). -/
def maskFrom (k : Key) : BitVec 2 → List Byte → List Byte
  | _, [] => []
  | idx, d :: ds => (d ^^^ keyByte k idx) :: maskFrom k (idx + 1#2) ds

/-- Where the index stands after the engine has run over a byte sequence (R132). -/
def idxAfter : BitVec 2 → List Byte → BitVec 2
  | idx, [] => idx
  | idx, _ :: ds => idxAfter (idx + 1#2) ds

/-- `Transform(D, K)` (R130): the index starts at 0. -/
def transform (d : List Byte) (k : Key) : List Byte := maskFrom k 0#2 d

/-! ### Reading what may hold no value -/

/-- Go on with a register's value; a register that holds none refuses the step (R21). -/
def need {α : Type} (r : Reg) (v : Option α) (k : α → Result) : Result :=
  match v with
  | some a => k a
  | none => .refused (.noValue r)

/-- Go on with `n` bytes of IBUF from an offset on; a byte that holds no value refuses the step (R21). -/
def needInput (s : State) (a n : Nat) (k : List Byte → Result) : Result :=
  match s.ibuf.readBytes a n with
  | .ok bs => k bs
  | .error e => .refused (.noValue (.ibuf e))

/-- Go on with a big-endian field of IBUF (R35). -/
def needField (s : State) (a n : Nat) (k : Nat → Result) : Result :=
  match s.ibuf.readField a n with
  | .ok v => k v
  | .error e => .refused (.noValue (.ibuf e))

/-- Write working registers (R17). -/
def setWork (w : Work) (s : State) : State := { s with work := w }

/-! ### How an operation ends -/

/-- `raise ProtocolViolation(r)` and `raise FramingFault(r)` (R148): the operation ends at once, nothing but
the status and the reason holds a result, and PH is DONE. There is no return from it: the next START begins a
fresh operation (R151). -/
def raise (f : Failure) (s : State) : State :=
  { s with
    resStatus := some f.status, resReason := some f.reason, resFin := none, resOpcode := none,
    obuf := [], olen := none, work := Work.clear, ph := .done }

/-- The failure step. -/
def raiseStep (f : Failure) : Action := fun s => .next (raise f s)

/-- The end of an operation that succeeds: `RES_STATUS = OK`, `RES_REASON = NONE`, the given fin and opcode
(none but after DECODE, R16), no working register holds a value (R17), PH is DONE. -/
def finish (fin : Option Bool) (opcode : Option (BitVec 4)) (s : State) : State :=
  { s with
    resStatus := some .ok, resReason := some .none, resFin := fin, resOpcode := opcode,
    work := Work.clear, ph := .done }

/-- What START does when it is accepted (R12): PH is BUSY and the previous results hold no value. -/
def beginOperation (s : State) : State :=
  { s with
    ph := .busy, resStatus := none, resReason := none, resFin := none, resOpcode := none,
    obuf := [], olen := none }

/-! ### OBUF -/

/-- OBUF holds exactly a byte sequence, and OLEN its length. -/
def setOutput (bs : List Byte) (s : State) : State :=
  { s with obuf := Mem.ofBytes bs, olen := some (BitVec.ofNat 64 bs.length) }

/-- `Append(OBUF, S)` (R9): at offset OLEN onward, and OLEN grows by the length of `S`. -/
def append (bs : List Byte) : Action := fun s =>
  need .olen s.olen fun n =>
    .next { s with obuf := s.obuf.writeBytes n.toNat bs, olen := some (n + BitVec.ofNat 64 bs.length) }

/-! ### Sequencing -/

/-- The steps of an operation one after another. A step that ends the operation leaves phase BUSY, and then no
later step runs (R148). -/
def runSteps : List Action → Action
  | [], s => .next s
  | f :: fs, s =>
    match f s with
    | .next t => if t.ph = .busy then runSteps fs t else .next t
    | .fault r => .fault r
    | .refused r => .refused r

/-- The block reads and writes nothing outside phase BUSY (R38 (c)). -/
def operation (steps : List Action) : Action := fun s =>
  if s.ph = .busy then runSteps steps s else .refused .executeOutsideBusy

end Sys2Proof.Machine
end

