-- ==== Sys2Proof/Machine/Operands.lean ====
section
/-! DEFINITION. The operands of an operation: the key registers and the input buffer (10_state.md R13, R14),
and what START demands of them (R14, R21, R67, 70_reset_and_hazards.md R172). -/

namespace Sys2Proof.Machine

/-- Go on with the four bytes of `CMD_KEY`; one that holds no value refuses the step (R21). -/
def needCmdKey (s : State) (k : Key → Result) : Result :=
  need (.cmdKey 0) s.cmdKey0 fun b0 =>
  need (.cmdKey 1) s.cmdKey1 fun b1 =>
  need (.cmdKey 2) s.cmdKey2 fun b2 =>
  need (.cmdKey 3) s.cmdKey3 fun b3 =>
  k (Key.mk b0 b1 b2 b3)

/-- Go on with one byte of IBUF. -/
def needByte (s : State) (a : Nat) (k : Byte → Result) : Result := need (.ibuf a) (s.ibuf.read a) k

/-- `CMD_KEY[0..3]`, when all four hold a value. -/
def State.cmdKey (s : State) : Option Key :=
  match s.cmdKey0, s.cmdKey1, s.cmdKey2, s.cmdKey3 with
  | some b0, some b1, some b2, some b3 => some (Key.mk b0 b1 b2 b3)
  | _, _, _, _ => none

/-- The key packed in a 32-bit word, first wire byte in bits 31:24 (R13, D8). -/
def keyOfWord (v : BitVec 32) : Key :=
  Key.mk ((v >>> 24).truncate 8) ((v >>> 16).truncate 8) ((v >>> 8).truncate 8) (v.truncate 8)

/-- `IBUF[0 .. ILEN-1]`, when ILEN and every one of the bytes hold a value. -/
def State.inputBytes (s : State) : Option (List Byte) :=
  match s.ilen with
  | none => none
  | some n =>
    match s.ibuf.readBytes 0 n.toNat with
    | .ok bs => some bs
    | .error _ => none

/-- `OBUF[0 .. OLEN-1]`, when OLEN and every one of the bytes hold a value. -/
def State.outputBytes (s : State) : Option (List Byte) :=
  match s.olen with
  | none => none
  | some n =>
    match s.obuf.readBytes 0 n.toNat with
    | .ok bs => some bs
    | .error _ => none

/-- Why the input buffer keeps START from being accepted, if it does: ILEN or one of its bytes holds no value
(R21), or ILEN is above its bound (R14). -/
def inputProblem (bound : Nat) (s : State) : Option Refusal :=
  match s.ilen with
  | none => some (.noValue .ilen)
  | some n =>
    if bound < n.toNat then some .lengthOverBound
    else
      match s.ibuf.readBytes 0 n.toNat with
      | .ok _ => none
      | .error e => some (.noValue (.ibuf e))

/-- Why a register keeps START from being accepted, if it does: it holds no value (R21). -/
def registerProblem {α : Type} (r : Reg) (v : Option α) : Option Refusal :=
  match v with
  | some _ => none
  | none => some (.noValue r)

/-- Why the key registers keep START from being accepted, if they do (R21). -/
def keyProblem (s : State) : Option Refusal :=
  registerProblem (.cmdKey 0) s.cmdKey0 <|> registerProblem (.cmdKey 1) s.cmdKey1 <|>
    registerProblem (.cmdKey 2) s.cmdKey2 <|> registerProblem (.cmdKey 3) s.cmdKey3

/-- Why START of an operation is refused, if it is (R13, R14, R21, R67, R172): an operand the operation does not
read may hold no value (R13, D30). The reserved code is refused (R67). No row of a header or a format is an
operation select, so `decodeCommand` never gives one. -/
def startProblem (i : Instr) (s : State) : Option Refusal :=
  match i with
  | .encode =>
    registerProblem .cmdOpcode s.cmdOpcode <|> registerProblem .cmdHasKey s.cmdHasKey <|>
      (if s.cmdHasKey = some true then keyProblem s else none) <|> inputProblem s.payloadMax.toNat s
  | .decode => inputProblem (Config.frameMax s.payloadMax) s
  | .xform => keyProblem s <|> inputProblem s.payloadMax.toNat s
  | .cmdReserved => some .reservedCommand
  | .cont _ _ _ | .text _ _ _ | .bin _ _ _ | .rsvnc3 _ _ _ | .rsvnc4 _ _ _ | .rsvnc5 _ _ _
  | .rsvnc6 _ _ _ | .rsvnc7 _ _ _ | .close _ _ _ | .ping _ _ _ | .pong _ _ _ | .rsvc11 _ _ _
  | .rsvc12 _ _ _ | .rsvc13 _ _ _ | .rsvc14 _ _ _ | .rsvc15 _ _ _ | .rsv1Set _ _ _ _ _ _ | .rsv2Set _ _ _ _ _ _
  | .rsv3Set _ _ _ _ _ _ | .finSet _ _ _ _ | .finClear _ _ _ _ | .masked _ _ _ _ | .unmasked _ _ _ _ | .len7 _ _ _ _ _
  | .len16 _ _ _ _ | .len64 _ _ _ _ | .f7u _ _ _ _ | .f7m _ _ _ _ _ | .f16u _ _ _ _ | .f16m _ _ _ _ _
  | .f64u _ _ _ _ | .f64m _ _ _ _ _ =>
    some .reservedCommand

end Sys2Proof.Machine
end

