-- ==== Sys2Proof/Machine/Codec.lean ====
section
/-! DEFINITION. The three functions of the source on byte sequences, with no registers: `encode(opcode,
payload, optional mask key)`, `decode(bytes)` and (in Ops.lean) `transform(data, key)`. The statements give the
results of the operations in these terms (92_eei_decisions.md D4 says the two are the same). -/

namespace Sys2Proof.Machine

/-- The decoded Frame (R16, R109). -/
structure Frame where
  opcode : BitVec 4
  fin : Bool
  payload : List Byte
  deriving DecidableEq, Repr

/-- The three length tiers (R54). -/
inductive Tier where
  | len7 | len16 | len64
  deriving DecidableEq, Repr

/-- The tier ENCODE takes for a payload length: the first that fits (R82). -/
def tierOf (n : Nat) : Tier :=
  if n ≤ 125 then .len7 else if n ≤ 65535 then .len16 else .len64

/-- The header byte ENCODE emits (R81). -/
def headerByte (o : BitVec 4) : Byte := 0x80#8 ||| o.zeroExtend 8

/-- The first length byte: masked flag over base length (R52, R86). -/
def firstLengthByte (masked : Bool) (base : BitVec 7) : Byte :=
  ((BitVec.ofBool masked).zeroExtend 8 <<< 7) ||| base.zeroExtend 8

/-- The length field of a payload of `n` bytes (R83 to R86). -/
def lengthField (masked : Bool) (n : Nat) : List Byte :=
  match tierOf n with
  | .len7 => [firstLengthByte masked (BitVec.ofNat 7 n)]
  | .len16 => firstLengthByte masked 126#7 :: bytes16 (BitVec.ofNat 16 n)
  | .len64 => firstLengthByte masked 127#7 :: bytes64 (BitVec.ofNat 64 n)

/-- `encode(opcode, payload, optional mask key)`: header byte, length field, key, payload (R50, R89). -/
def encodeBytes (o : BitVec 4) (key : Option Key) (p : List Byte) : List Byte :=
  match key with
  | none => headerByte o :: lengthField false p.length ++ p
  | some k => headerByte o :: lengthField true p.length ++ k.bytes ++ transform p k

/-- The number of bytes of the length field (R54, R90). -/
def lengthFieldSize (n : Nat) : Nat :=
  match tierOf n with
  | .len7 => 1
  | .len16 => 3
  | .len64 => 9

/-- The payload of a frame whose bytes after the header are `r` (R106): exactly `len` of them. -/
def exactPayload (len : Nat) (r : List Byte) : Except Failure (List Byte) :=
  if r.length < len then .error (.framing .shortPayload)
  else if len < r.length then .error (.framing .trailingBytes)
  else .ok r

/-- Step 5 on the bytes after the length field (R105): the key when the masked flag is set, the payload. -/
def decodePayload (masked : Bool) (len : Nat) (r : List Byte) : Except Failure (List Byte) :=
  if masked then
    match r with
    | k0 :: k1 :: k2 :: k3 :: r =>
      match exactPayload len r with
      | .ok p => .ok (transform p (Key.mk k0 k1 k2 k3))
      | .error e => .error e
    | _ => .error (.framing .shortKey)
  else exactPayload len r

/-- Step 4 on the bytes after the header word (R104): the length and the bytes after the length field. -/
def decodeLength (base : BitVec 7) (r : List Byte) : Except Failure (Nat × List Byte) :=
  if base = 126#7 then
    match r with
    | a :: b :: r => .ok ((be16 a b).toNat, r)
    | _ => .error (.framing .shortExtLen)
  else if base = 127#7 then
    match r with
    | a :: b :: c :: d :: e :: f :: g :: h :: r => .ok ((joinHalves (be32 a b c d) (be32 e f g h)).toNat, r)
    | _ => .error (.framing .shortExtLen)
  else .ok (base.toNat, r)

/-- Steps 2 and 3: the violation a header word carries, if any (R102, R103). -/
def violationOf (h : BitVec 16) : Option Violation :=
  if h &&& 0x7000#16 ≠ 0#16 then some .rsvSet
  else
    match opcodeClass (hdrOpcode h) with
    | .accepted => none
    | .reservedNoncontrol => some .reservedNoncontrolOpcode
    | .reservedControl => some .reservedControlOpcode

/-- The end of step 4 and steps 5 and 6 for a header word, its declared length and the bytes after the length
field: the range check, then the payload (R105 to R107). -/
def decodeAfterLength (payloadMax : Nat) (h : BitVec 16) (len : Nat) (r : List Byte) : Except Failure Frame :=
  if payloadMax < len then .error (.framing .lengthRange)
  else
    match decodePayload (hdrMask h) len r with
    | .error e => .error e
    | .ok p => .ok (Frame.mk (hdrOpcode h) (hdrFin h) p)

/-- Steps 4 to 6 for a header word and the bytes after it. -/
def decodeAfterOpcode (payloadMax : Nat) (h : BitVec 16) (r : List Byte) : Except Failure Frame :=
  match decodeLength (hdrBase h) r with
  | .error e => .error e
  | .ok (len, r) => decodeAfterLength payloadMax h len r

/-- Steps 2 to 6 for a header word and the bytes after it. -/
def decodeAfterHeader (payloadMax : Nat) (h : BitVec 16) (r : List Byte) : Except Failure Frame :=
  match violationOf h with
  | some v => .error (.violation v)
  | none => decodeAfterOpcode payloadMax h r

/-- `decode(bytes)` (R109). -/
def decodeBytes (payloadMax : Nat) : List Byte → Except Failure Frame
  | a :: b :: r => decodeAfterHeader payloadMax (be16 a b) r
  | _ => .error (.framing .shortHeader)

/-- The number of extended length bytes (R58). -/
def extBytes (base : BitVec 7) : Nat := if base = 126#7 then 2 else if base = 127#7 then 8 else 0

/-- `WellFramed(B)` (R108): the buffer is exactly the frame its header declares. -/
def wellFramed (payloadMax : Nat) : List Byte → Bool
  | a :: b :: r =>
    let h := be16 a b
    match decodeLength (hdrBase h) r with
    | .error _ => false
    | .ok (len, _) =>
      decide (len ≤ payloadMax) &&
        decide (r.length = extBytes (hdrBase h) + (if hdrMask h then 4 else 0) + len)
  | _ => false

/-- The payload of a frame, by its layout alone (R36, R105): what follows the header word, the extended length
and the key, unmasked with the key when the masked flag is set. -/
def framePayload : List Byte → List Byte
  | a :: b :: r =>
    let h := be16 a b
    let r := r.drop (extBytes (hdrBase h))
    if hdrMask h then
      match r with
      | k0 :: k1 :: k2 :: k3 :: p => transform p (Key.mk k0 k1 k2 k3)
      | _ => []
    else r
  | _ => []

/-- The state in which a DECODE that gave this answer ends (R100, R109, R148). -/
def endDecode (s : State) : Except Failure Frame → State
  | .error f => raise f s
  | .ok f => finish (some f.fin) (some f.opcode) (setOutput f.payload s)

end Sys2Proof.Machine
end

