-- ==== Sys2Proof/Machine/Masking.lean ====
section
/-! DEFINITION. The unit MSK and the operation XFORM (43_masking.md). -/

namespace Sys2Proof.Machine

/-- Run the engine over bytes with the key in KEYW (R132): IDX starts at 0 and steps once a byte. -/
def runMask (d : List Byte) (k : List Byte → Action) : Action := fun s =>
  need .keyw s.work.keyw fun key =>
    k (transform d key) (setWork { s.work with idx := some (idxAfter 0#2 d) } s)

/-- `for j = 0 .. 3: KEYW[j] <- x[CMD_KEY[j]]` (R89, R137). -/
def loadCmdKey : Action := fun s =>
  needCmdKey s fun key => .next (setWork { s.work with keyw := some key } s)

/-- `OBUF <- Transform(IBUF[0 .. n-1], KEYW)`, `x[OLEN] <- n` (R137). -/
def transformInput : Action := fun s =>
  need .ilen s.ilen fun n =>
  needInput s 0 n.toNat fun d =>
    runMask d (fun out s => .next (setOutput out s)) s

/-- `RES_STATUS = OK` with no fin and no opcode (R80, R137). -/
def finishStep : Action := fun s => .next (finish none none s)

/-- XFORM (R137): total, raises nothing (R154). -/
def execXform : Action := operation [loadCmdKey, transformInput, finishStep]

end Sys2Proof.Machine
end

