-- ==== Sys2Proof/Machine/Encoder.lean ====
section
/-! DEFINITION. The unit ENC and the operation ENCODE (41_encode.md R89), step by step. -/

namespace Sys2Proof.Machine

/-- `M <- x[CMD_HASKEY]`, `L <- x[ILEN]`, `OBUF <- []` (R89). -/
def beginEncode : Action := fun s =>
  need .cmdHasKey s.cmdHasKey fun m =>
  need .ilen s.ilen fun l =>
    .next (setOutput [] (setWork { s.work with mskf := some m, len := some l } s))

/-- `Append(OBUF, [0x80 | O])` (R81). -/
def emitHeader : Action := fun s =>
  need .cmdOpcode s.cmdOpcode fun o => append [headerByte o] s

/-- The length field by tier (R82 to R86). BASE holds what the first length byte carries, HI and LO the halves
of the 64-bit length. -/
def emitLength : Action := fun s =>
  need .mskf s.work.mskf fun m =>
  need .len s.work.len fun l =>
    if l.toNat ≤ 125 then
      append [firstLengthByte m (l.truncate 7)] (setWork { s.work with base := some (l.truncate 7) } s)
    else if l.toNat ≤ 65535 then
      append [firstLengthByte m 126#7, (l >>> 8).truncate 8, l.truncate 8]
        (setWork { s.work with base := some 126#7 } s)
    else
      append (firstLengthByte m 127#7 :: bytes32 (highHalf l) ++ bytes32 (lowHalf l))
        (setWork { s.work with base := some 127#7, hi := some (highHalf l), lo := some (lowHalf l) } s)

/-- `Append(OBUF, [KEYW[0], KEYW[1], KEYW[2], KEYW[3]])` (R87). -/
def emitKey : Action := fun s =>
  need .keyw s.work.keyw fun k => append k.bytes s

/-- `Append(OBUF, P)` (R88). -/
def emitPayload : Action := fun s =>
  need .len s.work.len fun l =>
  needInput s 0 l.toNat fun p => append p s

/-- `Append(OBUF, Transform(P, KEYW))` (R88). -/
def emitMaskedPayload : Action := fun s =>
  need .len s.work.len fun l =>
  needInput s 0 l.toNat fun p => runMask p append s

/-- Key and payload: masked when a key is supplied (R87, R88). -/
def emitBody : Action := fun s =>
  need .mskf s.work.mskf fun m =>
    if m then runSteps [loadCmdKey, emitKey, emitMaskedPayload] s else emitPayload s

/-- ENCODE (R89): total, raises nothing (R91, R153). -/
def execEncode : Action := operation [beginEncode, emitHeader, emitLength, emitBody, finishStep]

end Sys2Proof.Machine
end

