-- ==== Sys2Proof/Machine/Decoder.lean ====
section
/-! DEFINITION. The unit DEC and the operation DECODE (42_decode.md R109), step by step. The rows of the header
word (HeaderRows.lean, Formats.lean) run the same steps. -/

namespace Sys2Proof.Machine

/-- POS starts at 0 in every DECODE (R20). -/
def startCursor : Action := fun s => .next (setWork { s.work with pos := some 0 } s)

/-- `if N < n then raise FramingFault(f)` (R107). -/
def requireInput (n : Nat) (f : Framing) : Action := fun s =>
  need .ilen s.ilen fun total => if total.toNat < n then .next (raise (.framing f) s) else .next s

/-- Step 1 with the header word known: unpack, `POS <- 2` (R101). -/
def unpackHeader (h : BitVec 16) : Action := fun s =>
  .next (setWork { s.work.unpack h with pos := some 2 } s)

/-- Step 1: `HDR <- MemRead(IBUF, 0, 2)`, then unpack (R35, R101). -/
def fetchHeader : Action := fun s => needField s 0 2 fun v => unpackHeader (BitVec.ofNat 16 v) s

/-- Step 2 (R102). -/
def checkReserved : Action := fun s =>
  need .rsv1 s.work.rsv1 fun r1 =>
  need .rsv2 s.work.rsv2 fun r2 =>
  need .rsv3 s.work.rsv3 fun r3 =>
    if r1 || r2 || r3 then .next (raise (.violation .rsvSet) s) else .next s

/-- Step 3 (R103). -/
def checkOpcode : Action := fun s =>
  need .opc s.work.opc fun o =>
    match opcodeClass o with
    | .accepted => .next s
    | .reservedNoncontrol => .next (raise (.violation .reservedNoncontrolOpcode) s)
    | .reservedControl => .next (raise (.violation .reservedControlOpcode) s)

/-- `LEN <- zext_64(BASE)`, POS stays 2 (R104). -/
def lengthFromBase : Action := fun s =>
  need .base s.work.base fun b => .next (setWork { s.work with len := some (b.zeroExtend 64) } s)

/-- `LEN` from a 16-bit extended length, `POS <- 4` (R56, R104). -/
def setLength16 (ext : BitVec 16) : Action := fun s =>
  .next (setWork { s.work with len := some (ext.zeroExtend 64), pos := some 4 } s)

/-- `HI` and `LO` from a 64-bit extended length, `LEN <- (zext_64(HI) << 32) | zext_64(LO)`, `POS <- 10`
(R57, R104). -/
def setLength64 (hi lo : BitVec 32) : Action := fun s =>
  .next (setWork { s.work with hi := some hi, lo := some lo, len := some (joinHalves hi lo), pos := some 10 } s)

/-- `LEN <- zext_64(MemRead(IBUF, 2, 2))` (R35). -/
def readLength16 : Action := fun s => needField s 2 2 fun v => setLength16 (BitVec.ofNat 16 v) s

/-- `HI <- MemRead(IBUF, 2, 4)`, `LO <- MemRead(IBUF, 6, 4)` (R35). -/
def readLength64 : Action := fun s =>
  needField s 2 4 fun hi => needField s 6 4 fun lo => setLength64 (BitVec.ofNat 32 hi) (BitVec.ofNat 32 lo) s

/-- Step 4, 16-bit tier (R104, R107). -/
def lengthStep16 : List Action := [requireInput 4 .shortExtLen, readLength16]

/-- Step 4, 64-bit tier (R104, R107). -/
def lengthStep64 : List Action := [requireInput 10 .shortExtLen, readLength64]

/-- Step 4 (R104): the tier by BASE alone, not checked for minimality (R62). -/
def readLength : Action := fun s =>
  need .base s.work.base fun b =>
    if b = 126#7 then runSteps lengthStep16 s
    else if b = 127#7 then runSteps lengthStep64 s
    else lengthFromBase s

/-- The end of step 4: `LEN > PAYLOAD_MAX` is a FramingFault, compared unsigned on all 64 bits (R63, R107). -/
def checkRange : Action := fun s =>
  need .len s.work.len fun l =>
    if s.payloadMax.toNat < l.toNat then .next (raise (.framing .lengthRange) s) else .next s

/-- `if N < POS + 4 then raise FramingFault(SHORT_KEY)` (R105, R107). -/
def requireKey : Action := fun s =>
  need .pos s.work.pos fun p => requireInput (p.toNat + 4) .shortKey s

/-- `KEYW` takes the key, `POS <- POS + 4` (R105). -/
def setKey (k : Key) : Action := fun s =>
  need .pos s.work.pos fun p => .next (setWork { s.work with keyw := some k, pos := some (p + 4#64) } s)

/-- `for j = 0 .. 3: KEYW[j] <- IBUF[POS + j]` (R105). -/
def readKey : Action := fun s =>
  need .pos s.work.pos fun p =>
  needByte s p.toNat fun k0 =>
  needByte s (p.toNat + 1) fun k1 =>
  needByte s (p.toNat + 2) fun k2 =>
  needByte s (p.toNat + 3) fun k3 =>
    setKey (Key.mk k0 k1 k2 k3) s

/-- The key of step 5 when the masked flag is set (R105). -/
def keySteps : List Action := [requireKey, readKey]

/-- Step 5, the key (R105). -/
def readKeyIfMasked : Action := fun s =>
  need .mskf s.work.mskf fun m => if m then runSteps keySteps s else .next s

/-- The payload's extent (R106, R107): `N - POS` against `LEN`, written without the subtraction. -/
def checkExtent : Action := fun s =>
  need .ilen s.ilen fun n =>
  need .pos s.work.pos fun p =>
  need .len s.work.len fun l =>
    if n.toNat < p.toNat + l.toNat then .next (raise (.framing .shortPayload) s)
    else if p.toNat + l.toNat < n.toNat then .next (raise (.framing .trailingBytes) s)
    else .next s

/-- `R <- IBUF[POS .. N-1]` (R105). -/
def needRemaining (s : State) (k : List Byte → Result) : Result :=
  need .ilen s.ilen fun n =>
  need .pos s.work.pos fun p =>
    needInput s p.toNat (n.toNat - p.toNat) k

/-- `OBUF <- R` (R105). -/
def clearPayload : Action := fun s => needRemaining s fun r => .next (setOutput r s)

/-- `OBUF <- Transform(R, KEYW)` (R105). -/
def unmaskPayload : Action := fun s =>
  needRemaining s fun r => runMask r (fun out s => .next (setOutput out s)) s

/-- Step 5, the payload (R105). -/
def readPayload : Action := fun s =>
  need .mskf s.work.mskf fun m => if m then unmaskPayload s else clearPayload s

/-- Step 6 (R109): `x[OLEN] <- LEN`, RES_FIN, RES_OPCODE and the status. -/
def deliver : Action := fun s =>
  need .len s.work.len fun l =>
  need .fin s.work.fin fun f =>
  need .opc s.work.opc fun o =>
    .next (finish (some f) (some o) { s with olen := some l })

/-- Before step 1: POS at 0, and the header must be there (R101, R107). -/
def beforeHeader : List Action := [startCursor, requireInput 2 .shortHeader]

/-- What follows a known length (R105 to R109). -/
def afterLength : List Action := [checkRange, readKeyIfMasked, checkExtent, readPayload, deliver]

/-- What follows the opcode check (R104 to R109). -/
def afterOpcode : List Action := readLength :: afterLength

/-- Steps 2 and 3 (R102, R103). -/
def legalitySteps : List Action := [checkReserved, checkOpcode]

/-- DECODE (R109). -/
def execDecode : Action := operation (beforeHeader ++ [fetchHeader] ++ legalitySteps ++ afterOpcode)

/-- A header row: DECODE with the header word taken from the instruction, then the steps the row has left. -/
def withHeader (h : BitVec 16) (steps : List Action) : Action :=
  operation (beforeHeader ++ [unpackHeader h] ++ steps)

/-- `CMD_OP = 3` (R67): "START is refused; the model gives it no meaning". -/
def execCmdReserved : Action := fun _ => .refused .reservedCommand

end Sys2Proof.Machine
end

