-- ==== Sys2Proof/Machine/Formats.lean ====
section
/-! DEFINITION. The six frame formats (30_encoding.md R55, R58; 20_memory.md R36): DECODE of a frame whose whole
header (header word, extended length, key) is the instruction. The checks that the header bytes are there stand
where R107 puts them, so an IBUF shorter than the header still ends as R147 orders. -/

namespace Sys2Proof.Machine

/-- The key of an M format: `KEYW` from the instruction once the four bytes are there (R105). -/
def keyGiven (k : Key) : List Action := [requireKey, setKey k]

/-- The end of a U format: the payload in clear (R105, R106, R109). -/
def clearTail : List Action := [checkRange, checkExtent, clearPayload, deliver]

/-- The end of an M format: the key, and the payload unmasked (R105, R106, R109). -/
def maskedTail (k : Key) : List Action := [checkRange] ++ keyGiven k ++ [checkExtent, unmaskPayload, deliver]

/-- A 16-bit extended length from the instruction (R56). -/
def ext16Given (ext : BitVec 16) : List Action := [requireInput 4 .shortExtLen, setLength16 ext]

/-- A 64-bit extended length from the instruction (R57). -/
def ext64Given (ext : BitVec 64) : List Action :=
  [requireInput 10 .shortExtLen, setLength64 (highHalf ext) (lowHalf ext)]

/-- `F7U`: header 2 bytes, payload at offset 2. -/
def execF7u (fin : Bool) (rsv : BitVec 3) (opcode : BitVec 4) (base : BitVec 7) : Action :=
  withHeader (hdrWord fin rsv opcode false base) (legalitySteps ++ [lengthFromBase] ++ clearTail)

/-- `F7M`: header 6 bytes, key at offset 2, payload at offset 6. -/
def execF7m (fin : Bool) (rsv : BitVec 3) (opcode : BitVec 4) (base : BitVec 7) (key : Key) : Action :=
  withHeader (hdrWord fin rsv opcode true base) (legalitySteps ++ [lengthFromBase] ++ maskedTail key)

/-- `F16U`: header 4 bytes, payload at offset 4. -/
def execF16u (fin : Bool) (rsv : BitVec 3) (opcode : BitVec 4) (ext : BitVec 16) : Action :=
  withHeader (hdrWord fin rsv opcode false 126#7) (legalitySteps ++ ext16Given ext ++ clearTail)

/-- `F16M`: header 8 bytes, key at offset 4, payload at offset 8. -/
def execF16m (fin : Bool) (rsv : BitVec 3) (opcode : BitVec 4) (ext : BitVec 16) (key : Key) : Action :=
  withHeader (hdrWord fin rsv opcode true 126#7) (legalitySteps ++ ext16Given ext ++ maskedTail key)

/-- `F64U`: header 10 bytes, payload at offset 10. -/
def execF64u (fin : Bool) (rsv : BitVec 3) (opcode : BitVec 4) (ext : BitVec 64) : Action :=
  withHeader (hdrWord fin rsv opcode false 127#7) (legalitySteps ++ ext64Given ext ++ clearTail)

/-- `F64M`: header 14 bytes, key at offset 10, payload at offset 14. -/
def execF64m (fin : Bool) (rsv : BitVec 3) (opcode : BitVec 4) (ext : BitVec 64) (key : Key) : Action :=
  withHeader (hdrWord fin rsv opcode true 127#7) (legalitySteps ++ ext64Given ext ++ maskedTail key)

end Sys2Proof.Machine
end

