-- ==== Sys2Proof/Machine/HeaderRows.lean ====
section
/-! DEFINITION. The rows of the header word (format HDR16): what DECODE does with a frame whose header word is
in the row (30_encoding.md R53, R59 to R66, section 8; log entry 6). The row says what its own bits decide, so
each meaning runs the steps its row leaves open. -/

namespace Sys2Proof.Machine

/-! ### Opcode rows: reserved bits 0, so steps 2 and 3 are decided (R103) -/

/-- An accepted opcode: go on with step 4 (R103). -/
def acceptedOpcode (o : BitVec 4) (fin mask : Bool) (base : BitVec 7) : Action :=
  withHeader (hdrWord fin 0#3 o mask base) afterOpcode

/-- A reserved non-control opcode (R142). -/
def reservedNoncontrol (o : BitVec 4) (fin mask : Bool) (base : BitVec 7) : Action :=
  withHeader (hdrWord fin 0#3 o mask base) [raiseStep (.violation .reservedNoncontrolOpcode)]

/-- A reserved control opcode (R143). -/
def reservedControl (o : BitVec 4) (fin mask : Bool) (base : BitVec 7) : Action :=
  withHeader (hdrWord fin 0#3 o mask base) [raiseStep (.violation .reservedControlOpcode)]

/-- `CONT` (R103). -/
def execCont (fin mask : Bool) (base : BitVec 7) : Action := acceptedOpcode 0#4 fin mask base

/-- `TEXT` (R103). -/
def execText (fin mask : Bool) (base : BitVec 7) : Action := acceptedOpcode 1#4 fin mask base

/-- `BIN` (R103). -/
def execBin (fin mask : Bool) (base : BitVec 7) : Action := acceptedOpcode 2#4 fin mask base

/-- `RSVNC3` (R142). -/
def execRsvnc3 (fin mask : Bool) (base : BitVec 7) : Action := reservedNoncontrol 3#4 fin mask base

/-- `RSVNC4` (R142). -/
def execRsvnc4 (fin mask : Bool) (base : BitVec 7) : Action := reservedNoncontrol 4#4 fin mask base

/-- `RSVNC5` (R142). -/
def execRsvnc5 (fin mask : Bool) (base : BitVec 7) : Action := reservedNoncontrol 5#4 fin mask base

/-- `RSVNC6` (R142). -/
def execRsvnc6 (fin mask : Bool) (base : BitVec 7) : Action := reservedNoncontrol 6#4 fin mask base

/-- `RSVNC7` (R142). -/
def execRsvnc7 (fin mask : Bool) (base : BitVec 7) : Action := reservedNoncontrol 7#4 fin mask base

/-- `CLOSE` (R103). -/
def execClose (fin mask : Bool) (base : BitVec 7) : Action := acceptedOpcode 8#4 fin mask base

/-- `PING` (R103). -/
def execPing (fin mask : Bool) (base : BitVec 7) : Action := acceptedOpcode 9#4 fin mask base

/-- `PONG` (R103). -/
def execPong (fin mask : Bool) (base : BitVec 7) : Action := acceptedOpcode 10#4 fin mask base

/-- `RSVC11` (R143). -/
def execRsvc11 (fin mask : Bool) (base : BitVec 7) : Action := reservedControl 11#4 fin mask base

/-- `RSVC12` (R143). -/
def execRsvc12 (fin mask : Bool) (base : BitVec 7) : Action := reservedControl 12#4 fin mask base

/-- `RSVC13` (R143). -/
def execRsvc13 (fin mask : Bool) (base : BitVec 7) : Action := reservedControl 13#4 fin mask base

/-- `RSVC14` (R143). -/
def execRsvc14 (fin mask : Bool) (base : BitVec 7) : Action := reservedControl 14#4 fin mask base

/-- `RSVC15` (R143). -/
def execRsvc15 (fin mask : Bool) (base : BitVec 7) : Action := reservedControl 15#4 fin mask base

/-! ### Reserved-bit rows: step 2 decides, whatever the other bits are (R60, R102, R141) -/

/-- A reserved bit is set (R141). -/
def reservedBit (h : BitVec 16) : Action := withHeader h [raiseStep (.violation .rsvSet)]

/-- `RSV1_SET` (R141). -/
def execRsv1Set (fin rsv2 rsv3 : Bool) (opcode : BitVec 4) (mask : Bool) (base : BitVec 7) : Action :=
  reservedBit (hdrWord fin (rsvBits true rsv2 rsv3) opcode mask base)

/-- `RSV2_SET` (R141). -/
def execRsv2Set (fin rsv1 rsv3 : Bool) (opcode : BitVec 4) (mask : Bool) (base : BitVec 7) : Action :=
  reservedBit (hdrWord fin (rsvBits rsv1 true rsv3) opcode mask base)

/-- `RSV3_SET` (R141). -/
def execRsv3Set (fin rsv1 rsv2 : Bool) (opcode : BitVec 4) (mask : Bool) (base : BitVec 7) : Action :=
  reservedBit (hdrWord fin (rsvBits rsv1 rsv2 true) opcode mask base)

/-! ### fin rows: reported, never tested (R64, R101) -/

/-- `FIN_SET` (R101): RES_FIN = 1 when the frame is good. -/
def execFinSet (rsv : BitVec 3) (opcode : BitVec 4) (mask : Bool) (base : BitVec 7) : Action :=
  withHeader (hdrWord true rsv opcode mask base) (legalitySteps ++ afterOpcode)

/-- `FIN_CLEAR` (R64): accepted, RES_FIN = 0 when the frame is good. -/
def execFinClear (rsv : BitVec 3) (opcode : BitVec 4) (mask : Bool) (base : BitVec 7) : Action :=
  withHeader (hdrWord false rsv opcode mask base) (legalitySteps ++ afterOpcode)

/-! ### Masked-flag rows (R105) -/

/-- `MASKED` (R105): four key bytes follow the length field and the payload is unmasked with them. -/
def execMasked (fin : Bool) (rsv : BitVec 3) (opcode : BitVec 4) (base : BitVec 7) : Action :=
  withHeader (hdrWord fin rsv opcode true base)
    (legalitySteps ++ [readLength, checkRange] ++ keySteps ++ [checkExtent, unmaskPayload, deliver])

/-- `UNMASKED` (R105): the payload in clear. -/
def execUnmasked (fin : Bool) (rsv : BitVec 3) (opcode : BitVec 4) (base : BitVec 7) : Action :=
  withHeader (hdrWord fin rsv opcode false base)
    (legalitySteps ++ [readLength, checkRange, checkExtent, clearPayload, deliver])

/-! ### Tier rows (R104; ENCODE's side of them is R83 to R85) -/

/-- `LEN7`: the base length is the payload length. -/
def execLen7 (fin : Bool) (rsv : BitVec 3) (opcode : BitVec 4) (mask : Bool) (base : BitVec 7) : Action :=
  withHeader (hdrWord fin rsv opcode mask base) (legalitySteps ++ [lengthFromBase] ++ afterLength)

/-- `LEN16`: a 16-bit length follows. -/
def execLen16 (fin : Bool) (rsv : BitVec 3) (opcode : BitVec 4) (mask : Bool) : Action :=
  withHeader (hdrWord fin rsv opcode mask 126#7) (legalitySteps ++ lengthStep16 ++ afterLength)

/-- `LEN64`: a 64-bit length follows. -/
def execLen64 (fin : Bool) (rsv : BitVec 3) (opcode : BitVec 4) (mask : Bool) : Action :=
  withHeader (hdrWord fin rsv opcode mask 127#7) (legalitySteps ++ lengthStep64 ++ afterLength)

end Sys2Proof.Machine
end

