-- ==== Sys2Proof/Machine/Dispatch.lean ====
section
/-! DEFINITION. One arm per instruction: a direct call of its meaning. -/

namespace Sys2Proof.Machine

def exec (i : Instr) (s : State) : Host.Outcome State Fault Refusal :=
  match i with
  | .encode => Sys2Proof.Machine.execEncode s
  | .decode => Sys2Proof.Machine.execDecode s
  | .xform => Sys2Proof.Machine.execXform s
  | .cmdReserved => Sys2Proof.Machine.execCmdReserved s
  | .cont fin mask base => Sys2Proof.Machine.execCont fin mask base s
  | .text fin mask base => Sys2Proof.Machine.execText fin mask base s
  | .bin fin mask base => Sys2Proof.Machine.execBin fin mask base s
  | .rsvnc3 fin mask base => Sys2Proof.Machine.execRsvnc3 fin mask base s
  | .rsvnc4 fin mask base => Sys2Proof.Machine.execRsvnc4 fin mask base s
  | .rsvnc5 fin mask base => Sys2Proof.Machine.execRsvnc5 fin mask base s
  | .rsvnc6 fin mask base => Sys2Proof.Machine.execRsvnc6 fin mask base s
  | .rsvnc7 fin mask base => Sys2Proof.Machine.execRsvnc7 fin mask base s
  | .close fin mask base => Sys2Proof.Machine.execClose fin mask base s
  | .ping fin mask base => Sys2Proof.Machine.execPing fin mask base s
  | .pong fin mask base => Sys2Proof.Machine.execPong fin mask base s
  | .rsvc11 fin mask base => Sys2Proof.Machine.execRsvc11 fin mask base s
  | .rsvc12 fin mask base => Sys2Proof.Machine.execRsvc12 fin mask base s
  | .rsvc13 fin mask base => Sys2Proof.Machine.execRsvc13 fin mask base s
  | .rsvc14 fin mask base => Sys2Proof.Machine.execRsvc14 fin mask base s
  | .rsvc15 fin mask base => Sys2Proof.Machine.execRsvc15 fin mask base s
  | .rsv1Set fin rsv2 rsv3 opcode mask base => Sys2Proof.Machine.execRsv1Set fin rsv2 rsv3 opcode mask base s
  | .rsv2Set fin rsv1 rsv3 opcode mask base => Sys2Proof.Machine.execRsv2Set fin rsv1 rsv3 opcode mask base s
  | .rsv3Set fin rsv1 rsv2 opcode mask base => Sys2Proof.Machine.execRsv3Set fin rsv1 rsv2 opcode mask base s
  | .finSet rsv opcode mask base => Sys2Proof.Machine.execFinSet rsv opcode mask base s
  | .finClear rsv opcode mask base => Sys2Proof.Machine.execFinClear rsv opcode mask base s
  | .masked fin rsv opcode base => Sys2Proof.Machine.execMasked fin rsv opcode base s
  | .unmasked fin rsv opcode base => Sys2Proof.Machine.execUnmasked fin rsv opcode base s
  | .len7 fin rsv opcode mask base => Sys2Proof.Machine.execLen7 fin rsv opcode mask base s
  | .len16 fin rsv opcode mask => Sys2Proof.Machine.execLen16 fin rsv opcode mask s
  | .len64 fin rsv opcode mask => Sys2Proof.Machine.execLen64 fin rsv opcode mask s
  | .f7u fin rsv opcode base => Sys2Proof.Machine.execF7u fin rsv opcode base s
  | .f7m fin rsv opcode base key => Sys2Proof.Machine.execF7m fin rsv opcode base key s
  | .f16u fin rsv opcode ext => Sys2Proof.Machine.execF16u fin rsv opcode ext s
  | .f16m fin rsv opcode ext key => Sys2Proof.Machine.execF16m fin rsv opcode ext key s
  | .f64u fin rsv opcode ext => Sys2Proof.Machine.execF64u fin rsv opcode ext s
  | .f64m fin rsv opcode ext key => Sys2Proof.Machine.execF64m fin rsv opcode ext key s

end Sys2Proof.Machine
end

