-- ==== Sys2Proof/Machine/HostMoves.lean ====
section
/-! DEFINITION. The moves of the host, the platform and the block (10_state.md R12, R13, R23;
70_reset_and_hazards.md R170 to R176), and how an instruction is fetched: the block has no program counter
(R20), CMD_OP is what says which operation EXECUTE performs (R12, R67). -/

namespace Sys2Proof.Machine

/-- The host writes operands in phases IDLE and DONE only (R13, R23, R174). -/
def hostWrite (f : State → State) : Action := fun s =>
  match s.ph with
  | .busy => .refused .hostAccessWhileBusy
  | .idle | .done => .next (f s)

/-- Write one key register (R13). -/
def writeKeyByte (j : Fin 4) (v : Byte) (s : State) : State :=
  match j with
  | 0 => { s with cmdKey0 := some v }
  | 1 => { s with cmdKey1 := some v }
  | 2 => { s with cmdKey2 := some v }
  | 3 => { s with cmdKey3 := some v }

/-- Write the four key registers (R13). -/
def writeKeyAll (k : Key) (s : State) : State :=
  { s with cmdKey0 := some k.b0, cmdKey1 := some k.b1, cmdKey2 := some k.b2, cmdKey3 := some k.b3 }

/-- The instruction CMD_OP selects (R12, R67). -/
def fetch (s : State) : Option Instr := s.cmdOp.map decodeCommand

/-- START (R12): from IDLE or DONE to BUSY, the previous results discarded; refused when CMD_OP or an operand
the operation reads holds no value, when CMD_OP is 3, when ILEN is above its bound (R14, R21, R67), and in
BUSY (R175). -/
def start : Action := fun s =>
  match s.ph with
  | .busy => .refused .startWhileBusy
  | .idle | .done =>
    need .cmdOp (fetch s) fun i =>
      match startProblem i s with
      | some r => .refused r
      | none => .next (beginOperation s)

/-- EXECUTE (R12): the block performs the operation of CMD_OP whole. -/
def execute : Action := fun s =>
  match s.ph with
  | .busy => need .cmdOp (fetch s) fun i => exec i s
  | .idle | .done => .refused .executeOutsideBusy

/-- RESET (R170): PH is IDLE and nothing else holds a value. The rest of the run and the open parameter are
not state of the block. -/
def reset : Action := fun s =>
  .next { State.reset with payloadMax := s.payloadMax, pending := s.pending }

/-- Answer a host read. -/
def answer (n : Nat) : Action := fun s => .next { s with rdata := some n }

/-- A read of an operand register: in IDLE and DONE (R23). -/
def readOperand (r : Reg) (v : Option Nat) : Action := fun s =>
  match s.ph with
  | .busy => .refused .hostAccessWhileBusy
  | .idle | .done => need r v fun n => answer n s

/-- A read of a result register: in DONE only (R23, R176). -/
def readResult (r : Reg) (v : Option Nat) : Action := fun s =>
  match s.ph with
  | .busy => .refused .hostAccessWhileBusy
  | .idle => .refused .noResultYet
  | .done => need r v fun n => answer n s

/-- A read of a byte of IBUF: an offset at or past ILEN does not exist (R30). -/
def readInputByte (a : Nat) : Action := fun s =>
  match s.ph with
  | .busy => .refused .hostAccessWhileBusy
  | .idle | .done =>
    need .ilen s.ilen fun n =>
      if n.toNat ≤ a then .fault (.noSuchOffset (.ibuf a))
      else need (.ibuf a) (s.ibuf.read a) fun v => answer v.toNat s

/-- A read of a byte of OBUF: an offset at or past OLEN does not exist (R30). -/
def readOutputByte (a : Nat) : Action := fun s =>
  match s.ph with
  | .busy => .refused .hostAccessWhileBusy
  | .idle => .refused .noResultYet
  | .done =>
    need .olen s.olen fun n =>
      if n.toNat ≤ a then .fault (.noSuchOffset (.obuf a))
      else need (.obuf a) (s.obuf.read a) fun v => answer v.toNat s

/-- A host read (R21, R23). PH may be read in every phase. A working register cannot be read by the host
(R17). -/
def hostRead (r : Reg) : Action := fun s =>
  match r with
  | .ph => answer s.ph.code.toNat s
  | .cmdOp => readOperand r (s.cmdOp.map BitVec.toNat) s
  | .cmdOpcode => readOperand r (s.cmdOpcode.map BitVec.toNat) s
  | .cmdHasKey => readOperand r (s.cmdHasKey.map Bool.toNat) s
  | .cmdKey 0 => readOperand r (s.cmdKey0.map BitVec.toNat) s
  | .cmdKey 1 => readOperand r (s.cmdKey1.map BitVec.toNat) s
  | .cmdKey 2 => readOperand r (s.cmdKey2.map BitVec.toNat) s
  | .cmdKey 3 => readOperand r (s.cmdKey3.map BitVec.toNat) s
  | .ilen => readOperand r (s.ilen.map BitVec.toNat) s
  | .ibuf a => readInputByte a s
  | .olen => readResult r (s.olen.map BitVec.toNat) s
  | .obuf a => readOutputByte a s
  | .resStatus => readResult r (s.resStatus.map fun v => v.code.toNat) s
  | .resReason => readResult r (s.resReason.map fun v => v.code.toNat) s
  | .resFin => readResult r (s.resFin.map Bool.toNat) s
  | .resOpcode => readResult r (s.resOpcode.map BitVec.toNat) s
  | .hdr | .fin | .rsv1 | .rsv2 | .rsv3 | .opc | .mskf | .base | .hi | .lo | .len | .pos | .keyw | .idx =>
    .refused (.notHostVisible r)

/-- One move. -/
def perform (m : Move) : Action := fun s =>
  match m with
  | .writeOp v => hostWrite (fun s => { s with cmdOp := some v }) s
  | .writeOpcode v => hostWrite (fun s => { s with cmdOpcode := some v }) s
  | .writeHasKey v => hostWrite (fun s => { s with cmdHasKey := some v }) s
  | .writeKey j v => hostWrite (writeKeyByte j v) s
  | .writeKey32 v => hostWrite (writeKeyAll (keyOfWord v)) s
  | .writeIlen v => hostWrite (fun s => { s with ilen := some v }) s
  | .writeIbuf a v => hostWrite (fun s => { s with ibuf := s.ibuf.write a.toNat v }) s
  | .start => start s
  | .read r => hostRead r s
  | .reset => reset s
  | .execute => execute s

/-- Nothing more comes from outside: the block executes in BUSY (R180) and stays in IDLE and DONE, which it
never leaves on its own (R12). -/
def idleStep : Action := fun s =>
  match s.ph with
  | .busy => execute s
  | .idle | .done => .next s

/-- The next move of the run (R182). -/
def nextMove : Action := fun s =>
  match s.pending with
  | [] => idleStep s
  | m :: rest => perform m { s with pending := rest }

/-! ### Putting an instruction where the block fetches it -/

/-- A buffer content handed to the block. -/
def giveInput (bs : List Byte) (s : State) : State :=
  { s with ilen := some (BitVec.ofNat 64 bs.length), ibuf := Mem.ofBytes bs }

/-- The operand writes of a host (R172) for what holds no value yet, with zeros. -/
def fillOperands (s : State) : State :=
  let s := { s with
    cmdOpcode := some (s.cmdOpcode.getD 0#4), cmdHasKey := some (s.cmdHasKey.getD false),
    cmdKey0 := some (s.cmdKey0.getD 0#8), cmdKey1 := some (s.cmdKey1.getD 0#8),
    cmdKey2 := some (s.cmdKey2.getD 0#8), cmdKey3 := some (s.cmdKey3.getD 0#8) }
  match s.inputBytes with
  | some _ => s
  | none => giveInput [] s

/-- A frame with this header word whose other header bytes and payload are zeros. -/
def zeroFrame (h : BitVec 16) : List Byte :=
  bytes16 h ++ List.replicate (extBytes (hdrBase h) + (if hdrMask h then 4 else 0)) 0#8 ++
    List.replicate (if directBase (hdrBase h) then (hdrBase h).toNat else 0) 0#8

/-- The instruction as the host hands it over and starts it: an operation select in CMD_OP, or a header word at
the front of a frame for DECODE. The next move is EXECUTE. -/
def placeInstruction (s : State) (nbits w : Nat) : State :=
  let s :=
    if nbits ≤ 8 then { fillOperands s with cmdOp := some (BitVec.ofNat 2 w) }
    else { giveInput (zeroFrame (BitVec.ofNat 16 w)) s with cmdOp := some 1#2 }
  { beginOperation s with pending := .execute :: s.pending }

end Sys2Proof.Machine
end

