-- ==== Sys2Proof/Safety.lean ====
section
/-! DEFINITION. What a safe run is, in the terms the statements use: the invariant of the block's state, and
when a run has ended well (70_reset_and_hazards.md R182). -/

namespace Sys2Proof.Machine

/-- What START has checked (R172): CMD_OP selects an operation and every operand it reads is held and in
bounds. -/
def State.operandsHeld (s : State) : Bool :=
  match fetch s with
  | some i => (startProblem i s).isNone
  | none => false

/-- No result register and no byte of OBUF holds a value. -/
abbrev State.noResult (s : State) : Prop :=
  s.resStatus = none ∧ s.resReason = none ∧ s.resFin = none ∧ s.resOpcode = none ∧ s.obuf = [] ∧ s.olen = none

/-- The two parts of a decoded Frame's header are there together, and the opcode is an accepted one (R16). -/
def frameFieldsAgree (fin : Option Bool) (opcode : Option (BitVec 4)) : Bool :=
  match fin, opcode with
  | none, none => true
  | some _, some o => opcodeClass o == .accepted
  | _, _ => false

/-- What phase DONE says of the results (R15, R16, R145, R146): the status and the reason agree. After a
success OBUF holds OLEN bytes, at most FRAME_MAX. After a failure nothing else holds a value. -/
def State.resultsAgree (s : State) : Bool :=
  match s.resStatus, s.resReason with
  | some .ok, some .none =>
    frameFieldsAgree s.resFin s.resOpcode &&
      match s.outputBytes with
      | some out => decide (out.length ≤ Config.frameMax s.payloadMax)
      | none => false
  | some .protocolViolation, some (.violation _) =>
    s.resFin == none && s.resOpcode == none && s.obuf == [] && s.olen == none
  | some .framingFault, some (.framing _) =>
    s.resFin == none && s.resOpcode == none && s.obuf == [] && s.olen == none
  | _, _ => false

/-- The invariant of the block: both buffers in canonical form, no working register holds a value between
steps (R17), and what the phase says of operands and results (R12, R15, R16, R21). -/
def State.Inv (s : State) : Prop :=
  s.ibuf.wf ∧ s.obuf.wf ∧ s.work = Work.clear ∧
    match s.ph with
    | .idle => s.noResult
    | .busy => s.noResult ∧ s.operandsHeld = true
    | .done => s.resultsAgree = true

/-- The block is performing an operation and its input buffer holds exactly these bytes. -/
abbrev State.running (s : State) (b : List Byte) : Prop := s.ph = .busy ∧ s.inputBytes = some b

/-- What a row of a good frame does (R105, R109): whenever the block runs on a well-framed buffer that begins
with the row's bytes, the row ends the operation with the frame delivered, its fin and opcode as given. -/
def deliversFrame (i : Instr) (fin : Bool) (o : BitVec 4) : Prop :=
  ∀ (s : State) (r : List Byte), s.running (encode i ++ r) →
    wellFramed s.payloadMax.toNat (encode i ++ r) = true →
    exec i s = .next (finish (some fin) (some o) (setOutput (framePayload (encode i ++ r)) s))

/-- What a row does whose header word alone is a violation (R102, R103): whatever the rest of the buffer
holds, once two bytes are there. -/
def raisesViolation (i : Instr) (v : Violation) : Prop :=
  ∀ (s : State) (n : BitVec 64), s.ph = .busy → s.ilen = some n → 2 ≤ n.toNat →
    exec i s = .next (raise (.violation v) s)

/-- Two states give an operation the same operands (R10, R13, R30): ILEN, the bytes below it and the bound on
lengths. -/
abbrev State.sameInput (s t : State) : Prop :=
  s.ph = t.ph ∧ s.ilen = t.ilen ∧ s.payloadMax = t.payloadMax ∧
    ∀ (n : BitVec 64) (a : Nat), s.ilen = some n → a < n.toNat → Mem.read s.ibuf a = Mem.read t.ibuf a

/-- R108: the buffer is exactly the frame its first two bytes declare, its length at most PAYLOAD_MAX. -/
def declaresItself (payloadMax : Nat) (b : List Byte) : Prop :=
  ∃ a c r, b = a :: c :: r ∧
    let base := (c &&& 0x7F#8).toNat
    let ext := if base = 126 then 2 else if base = 127 then 8 else 0
    let len := if ext = 0 then base else bigEndian (r.take ext)
    2 + ext ≤ b.length ∧ len ≤ payloadMax ∧ b.length = 2 + ext + 4 * (c >>> 7).toNat + len

/-- PH is IDLE and no register, working register or buffer byte holds a value (R22). -/
abbrev State.holdsNothing (s : State) : Prop :=
  s.ph = .idle ∧ s.cmdOp = none ∧ s.cmdOpcode = none ∧ s.cmdHasKey = none ∧ s.cmdKey0 = none ∧ s.cmdKey1 = none ∧
    s.cmdKey2 = none ∧ s.cmdKey3 = none ∧ s.ilen = none ∧ (∀ a, Mem.read s.ibuf a = none) ∧ s.olen = none ∧
    (∀ a, Mem.read s.obuf a = none) ∧ s.resStatus = none ∧ s.resReason = none ∧ s.resFin = none ∧
    s.resOpcode = none ∧ s.work = Work.clear

/-- The move has no meaning here (R162). -/
def State.refuses (s : State) (m : Move) : Prop := ∃ r, perform m s = .refused r

/-- Two states show the host the same results (R15, R16). -/
abbrev State.sameResults (s t : State) : Prop :=
  s.ph = t.ph ∧ s.resStatus = t.resStatus ∧ s.resReason = t.resReason ∧ s.resFin = t.resFin ∧
    s.resOpcode = t.resOpcode ∧ s.obuf = t.obuf ∧ s.olen = t.olen

/-- The operand registers, the input buffer and what is no state of the block are as they were (R24). -/
abbrev State.operandsUnchanged (s t : State) : Prop :=
  t.cmdOp = s.cmdOp ∧ t.cmdOpcode = s.cmdOpcode ∧ t.cmdHasKey = s.cmdHasKey ∧ t.cmdKey0 = s.cmdKey0 ∧
    t.cmdKey1 = s.cmdKey1 ∧ t.cmdKey2 = s.cmdKey2 ∧ t.cmdKey3 = s.cmdKey3 ∧ t.ilen = s.ilen ∧
    (∀ a, Mem.read t.ibuf a = Mem.read s.ibuf a) ∧ t.payloadMax = s.payloadMax ∧ t.pending = s.pending ∧
    t.rdata = s.rdata

/-- A run has ended well here: PH is IDLE or DONE (R182). -/
def State.endedWell (s : State) : Bool := s.ph != .busy

end Sys2Proof.Machine
end

