-- ==== Sys2Proof/Certificates/Slice0/Obligations.lean ====
section
/-! DEFINITION. The statements for the provers. Each docstring names the rule it formalises. A `State` is
arbitrary unless a hypothesis says otherwise, so every statement holds for every PAYLOAD_MAX. -/

open Sys2Proof Sys2Proof.Machine

/-! ### Words and fields -/

/-- The bytes of a well-formed instruction decode, within its group of rows, to it and to what follows. -/
def Obligations.DecodeInvertsEncode : Prop :=
  ∀ (i : Instr) (rest : List Byte), i.wellFormed = true → decodeIn i.group (encode i ++ rest) = .ok (i, rest)

/-- What decodes within a group of header rows is a well-formed row of that group whose bytes it is. -/
def Obligations.EncodeInvertsDecode : Prop :=
  ∀ (g : Group) (bytes : List Byte) (i : Instr) (rest : List Byte), g ≠ .command →
    decodeIn g bytes = .ok (i, rest) → i.group = g ∧ i.wellFormed = true ∧ encode i ++ rest = bytes

/-- R53: DECODE reads bytes 0 and 1 as `HDR = be16(IBUF[0], IBUF[1])` and cuts the fields out by the seven masks,
so they stand at bits 15, 14, 13, 12, 11:8, 7 and 6:0. The masks are disjoint, their union is `0xFFFF`, and the
fields give the word back. -/
def Obligations.HeaderFieldsPartitionTheWord : Prop :=
  (∀ (s : State) (a c : Byte), Mem.read s.ibuf 0 = some a → Mem.read s.ibuf 1 = some c →
    let h := be16 a c
    ∃ t, fetchHeader s = .next t ∧ t.work.hdr = some h ∧
      t.work.fin = some ((h &&& 0x8000#16) != 0#16) ∧ t.work.rsv1 = some ((h &&& 0x4000#16) != 0#16) ∧
      t.work.rsv2 = some ((h &&& 0x2000#16) != 0#16) ∧ t.work.rsv3 = some ((h &&& 0x1000#16) != 0#16) ∧
      t.work.opc = some (((h &&& 0x0F00#16) >>> 8).truncate 4) ∧ t.work.mskf = some ((h &&& 0x0080#16) != 0#16) ∧
      t.work.base = some ((h &&& 0x007F#16).truncate 7)) ∧
  [0x8000#16, 0x4000#16, 0x2000#16, 0x1000#16, 0x0F00#16, 0x0080#16, 0x007F#16].Pairwise
    (fun x y => x &&& y = 0#16) ∧
  [0x8000#16, 0x4000#16, 0x2000#16, 0x1000#16, 0x0F00#16, 0x0080#16, 0x007F#16].foldl (· ||| ·) 0#16 = 0xFFFF#16 ∧
  ∀ h : BitVec 16,
    hdrFin h = h.getLsbD 15 ∧ hdrRsv1 h = h.getLsbD 14 ∧ hdrRsv2 h = h.getLsbD 13 ∧ hdrRsv3 h = h.getLsbD 12 ∧
    hdrOpcode h = h.extractLsb' 8 4 ∧ hdrMask h = h.getLsbD 7 ∧ hdrBase h = h.extractLsb' 0 7 ∧
    hdrWord (hdrFin h) (rsvBits (hdrRsv1 h) (hdrRsv2 h) (hdrRsv3 h)) (hdrOpcode h) (hdrMask h) (hdrBase h) = h

/-- The row the decoder takes for a header word is RSV1_SET when that bit is set, else RSV2_SET, else RSV3_SET, and
an opcode row exactly when the three reserved bits are 0. It is a row the word is in. That the reserved-bit rows
come before the opcode row is 30_encoding.md section 8; their order among themselves is the model's choice (log
entry 6). -/
def Obligations.FirstMatchingRowFollowsTheOrder : Prop :=
  ∀ (h : BitVec 16) (rest : List Byte), ∃ i,
    decodeHeader (bytes16 h ++ rest) = .ok (i, rest) ∧ decodeIn i.group (bytes16 h ++ rest) = .ok (i, rest) ∧
    (i.group = .rsv1 ↔ h.getLsbD 14 = true) ∧
    (i.group = .rsv2 ↔ h.getLsbD 14 = false ∧ h.getLsbD 13 = true) ∧
    (i.group = .rsv3 ↔ h.getLsbD 14 = false ∧ h.getLsbD 13 = false ∧ h.getLsbD 12 = true) ∧
    (i.group = .opcode ↔ h &&& 0x7000#16 = 0#16)

/-- Words written out from the tables of 30_encoding.md decode to a row they are in. The word `0xF300` is in three
reserved-bit rows, and that the decoder takes RSV1_SET is the model's choice (log entry 6). So are the byte that
holds an operation select (log entry 22) and `decodeTableWord`'s layout of a word (log entry 5). -/
def Obligations.SampleWordsDecode : Prop :=
  decodeTableWord 8 1 = some .decode ∧
  decodeTableWord 16 0x8185 = some (.text true true 5#7) ∧
  decodeTableWord 16 0x8203 = some (.bin true false 3#7) ∧
  decodeTableWord 16 0x8F7F = some (.rsvc15 true false 127#7) ∧
  decodeTableWord 16 0xF300 = some (.rsv1Set true true true 3#4 false 0#7) ∧
  decodeIn .tier [0x82#8, 0xFE#8] = .ok (.len16 true 0#3 2#4 true, []) ∧
  decodeIn .fin [0x01#8, 0x03#8] = .ok (.finClear 0#3 1#4 false 3#7, []) ∧
  decodeIn .format [0x82#8, 0xFE#8, 0x00#8, 0x7E#8, 0xDE#8, 0xAD#8, 0xBE#8, 0xEF#8, 0x55#8] =
    .ok (.f16m true 0#3 2#4 126#16 (Key.mk 0xDE#8 0xAD#8 0xBE#8 0xEF#8), [0x55#8])

/-- R58: bytes 0 and 1 alone tell the length of a header: it is whole exactly when `ext + 4 * mask` bytes follow
the header word, and it ends right after them. -/
def Obligations.HeaderLengthFromTwoBytes : Prop :=
  ∀ (a c : Byte) (r : List Byte),
    let base := (c &&& 0x7F#8).toNat
    let ext := if base = 126 then 2 else if base = 127 then 8 else 0
    let hdr := ext + 4 * (c >>> 7).toNat
    (hdr ≤ r.length → ∃ i, decodeIn .format (a :: c :: r) = .ok (i, r.drop hdr)) ∧
    (r.length < hdr → ∃ e, decodeIn .format (a :: c :: r) = .error e)

/-- R59, R61, R103: the opcode map, and the reason step 3 raises for each reserved value once the reserved bits
are 0. -/
def Obligations.OpcodeMapHasThreeClasses : Prop :=
  ∀ o : BitVec 4,
    (opcodeClass o = .accepted ↔ o.toNat ∈ [0, 1, 2, 8, 9, 10]) ∧
    (opcodeClass o = .reservedNoncontrol ↔ o.toNat ∈ [3, 4, 5, 6, 7]) ∧
    (opcodeClass o = .reservedControl ↔ o.toNat ∈ [11, 12, 13, 14, 15]) ∧
    ∀ (fin mask : Bool) (base : BitVec 7), violationOf (hdrWord fin 0#3 o mask base) =
      if o.toNat ∈ [3, 4, 5, 6, 7] then some .reservedNoncontrolOpcode
      else if o.toNat ∈ [11, 12, 13, 14, 15] then some .reservedControlOpcode
      else none

/-! ### The three operations -/

/-- R89: ENCODE, whole. -/
def Obligations.EncodeProducesTheFrame : Prop :=
  ∀ (s : State) (o : BitVec 4) (p : List Byte), s.running p → s.cmdOpcode = some o →
    (s.cmdHasKey = some false →
      exec .encode s = .next (finish none none (setOutput (encodeBytes o none p) s))) ∧
    (∀ k, s.cmdHasKey = some true → s.cmdKey = some k →
      exec .encode s = .next (finish none none (setOutput (encodeBytes o (some k) p) s)))

/-- R55 with R81 to R88: the frame ENCODE emits, format by format: fin 1, reserved bits 0, the opcode as given,
the smallest tier, the length in it, the key in clear, the payload masked in the M formats. -/
def Obligations.EncodedFrameHasItsFormat : Prop :=
  ∀ (o : BitVec 4) (k : Key) (p : List Byte),
    (p.length ≤ 125 →
      encodeBytes o none p = encode (.f7u true 0#3 o (BitVec.ofNat 7 p.length)) ++ p ∧
      encodeBytes o (some k) p = encode (.f7m true 0#3 o (BitVec.ofNat 7 p.length) k) ++ transform p k) ∧
    (126 ≤ p.length → p.length ≤ 65535 →
      encodeBytes o none p = encode (.f16u true 0#3 o (BitVec.ofNat 16 p.length)) ++ p ∧
      encodeBytes o (some k) p = encode (.f16m true 0#3 o (BitVec.ofNat 16 p.length) k) ++ transform p k) ∧
    (65536 ≤ p.length →
      encodeBytes o none p = encode (.f64u true 0#3 o (BitVec.ofNat 64 p.length)) ++ p ∧
      encodeBytes o (some k) p = encode (.f64m true 0#3 o (BitVec.ofNat 64 p.length) k) ++ transform p k)

/-- R90: `OLEN = 1 + lf + 4*M + L` after ENCODE, at least 2 and at most FRAME_MAX, with as many bytes in OBUF. -/
def Obligations.EncodeOutputLength : Prop :=
  ∀ (s : State) (o : BitVec 4) (m : Bool) (p : List Byte), s.running p → s.cmdOpcode = some o →
    s.cmdHasKey = some m → (m = true → s.cmdKey.isSome = true) → p.length ≤ s.payloadMax.toNat →
    ∃ t n out, exec .encode s = .next t ∧ t.olen = some n ∧ t.outputBytes = some out ∧ out.length = n.toNat ∧
      n.toNat = 1 + (if p.length ≤ 125 then 1 else if p.length ≤ 65535 then 3 else 9) +
        4 * (if m then 1 else 0) + p.length ∧
      2 ≤ n.toNat ∧ n.toNat ≤ Config.frameMax s.payloadMax

/-- R109: DECODE, whole: the Frame, or the first failure in the order of its steps. -/
def Obligations.DecodeGivesTheFrameOrTheFailure : Prop :=
  ∀ (s : State) (b : List Byte), s.running b →
    exec .decode s = .next (endDecode s (decodeBytes s.payloadMax.toNat b))

/-- R137: XFORM, whole. -/
def Obligations.XformTransformsTheInput : Prop :=
  ∀ (s : State) (d : List Byte) (k : Key), s.running d → s.cmdKey = some k →
    exec .xform s = .next (finish none none (setOutput (transform d k) s))

/-- R67: the four codes of CMD_OP; code 3 is refused, as an instruction in every state and as a START. -/
def Obligations.ReservedCommandIsRefused : Prop :=
  decodeCommand 0#2 = .encode ∧ decodeCommand 1#2 = .decode ∧ decodeCommand 2#2 = .xform ∧
  decodeCommand 3#2 = .cmdReserved ∧
  ∀ s : State, exec .cmdReserved s = .refused .reservedCommand ∧
    (s.cmdOp = some 3#2 → s.ph ≠ .busy → perform .start s = .refused .reservedCommand)

/-! ### The rows of the header word and the frame formats

That a row of the table is an instruction of its own, with the part of DECODE that its bits leave open as its
meaning, is the model's choice (log entries 6 and 19). -/

/-- R103: each accepted opcode row delivers a good frame, with its opcode and fin. -/
def Obligations.AcceptedOpcodeRowsDeliver : Prop :=
  ∀ (fin mask : Bool) (base : BitVec 7),
    deliversFrame (.cont fin mask base) fin 0#4 ∧ deliversFrame (.text fin mask base) fin 1#4 ∧
    deliversFrame (.bin fin mask base) fin 2#4 ∧ deliversFrame (.close fin mask base) fin 8#4 ∧
    deliversFrame (.ping fin mask base) fin 9#4 ∧ deliversFrame (.pong fin mask base) fin 10#4

/-- R142: opcodes 3 to 7. -/
def Obligations.ReservedNoncontrolRowsRaise : Prop :=
  Violation.reservedNoncontrolOpcode.text = "reserved non-control opcode" ∧
  ∀ (fin mask : Bool) (base : BitVec 7),
    raisesViolation (.rsvnc3 fin mask base) .reservedNoncontrolOpcode ∧
    raisesViolation (.rsvnc4 fin mask base) .reservedNoncontrolOpcode ∧
    raisesViolation (.rsvnc5 fin mask base) .reservedNoncontrolOpcode ∧
    raisesViolation (.rsvnc6 fin mask base) .reservedNoncontrolOpcode ∧
    raisesViolation (.rsvnc7 fin mask base) .reservedNoncontrolOpcode

/-- R143: opcodes 11 to 15. -/
def Obligations.ReservedControlRowsRaise : Prop :=
  Violation.reservedControlOpcode.text = "reserved control opcode" ∧
  ∀ (fin mask : Bool) (base : BitVec 7),
    raisesViolation (.rsvc11 fin mask base) .reservedControlOpcode ∧
    raisesViolation (.rsvc12 fin mask base) .reservedControlOpcode ∧
    raisesViolation (.rsvc13 fin mask base) .reservedControlOpcode ∧
    raisesViolation (.rsvc14 fin mask base) .reservedControlOpcode ∧
    raisesViolation (.rsvc15 fin mask base) .reservedControlOpcode

/-- R141: the reserved-bit rows, one reason for all three bits, whatever the other bits are. -/
def Obligations.ReservedBitRowsRaise : Prop :=
  Violation.rsvSet.text = "RSVx set without known meaning" ∧
  ∀ (fin x y : Bool) (o : BitVec 4) (mask : Bool) (base : BitVec 7),
    raisesViolation (.rsv1Set fin x y o mask base) .rsvSet ∧
    raisesViolation (.rsv2Set fin x y o mask base) .rsvSet ∧
    raisesViolation (.rsv3Set fin x y o mask base) .rsvSet

/-- R64, R101: fin is reported as it is on the wire and never tested. -/
def Obligations.FinRowsReportTheFin : Prop :=
  ∀ (o : BitVec 4) (mask : Bool) (base : BitVec 7), opcodeClass o = .accepted →
    deliversFrame (.finSet 0#3 o mask base) true o ∧ deliversFrame (.finClear 0#3 o mask base) false o

/-- R105: with the masked flag set or clear a good frame is delivered, unmasked with the key on the wire or as it
stands, for every fin and accepted opcode. -/
def Obligations.MaskedFlagRowsDeliver : Prop :=
  ∀ (fin : Bool) (o : BitVec 4) (base : BitVec 7), opcodeClass o = .accepted →
    deliversFrame (.masked fin 0#3 o base) fin o ∧ deliversFrame (.unmasked fin 0#3 o base) fin o

/-- R104: each tier delivers every well-framed buffer whose reserved bits are 0 and whose opcode is an accepted
one. The tier is taken from the base length alone. -/
def Obligations.TierRowsDeliver : Prop :=
  ∀ (fin : Bool) (o : BitVec 4) (mask : Bool), opcodeClass o = .accepted →
    (∀ base : BitVec 7, base.toNat ≤ 125 → deliversFrame (.len7 fin 0#3 o mask base) fin o) ∧
    deliversFrame (.len16 fin 0#3 o mask) fin o ∧ deliversFrame (.len64 fin 0#3 o mask) fin o

/-- R36, R55, R62, R105: a buffer that is a format's header and exactly the payload it declares, non-minimal tiers
included, is delivered: the bytes after the header, unmasked in the M formats. -/
def Obligations.FormatRowsDeliver : Prop :=
  ∀ (s : State) (fin : Bool) (o : BitVec 4) (k : Key) (p : List Byte), opcodeClass o = .accepted →
    s.ph = .busy → p.length ≤ s.payloadMax.toNat →
    (∀ base : BitVec 7, base.toNat ≤ 125 → base.toNat = p.length →
      (s.inputBytes = some (encode (.f7u fin 0#3 o base) ++ p) →
        exec (.f7u fin 0#3 o base) s = .next (finish (some fin) (some o) (setOutput p s))) ∧
      (s.inputBytes = some (encode (.f7m fin 0#3 o base k) ++ p) →
        exec (.f7m fin 0#3 o base k) s = .next (finish (some fin) (some o) (setOutput (transform p k) s)))) ∧
    (∀ ext : BitVec 16, ext.toNat = p.length →
      (s.inputBytes = some (encode (.f16u fin 0#3 o ext) ++ p) →
        exec (.f16u fin 0#3 o ext) s = .next (finish (some fin) (some o) (setOutput p s))) ∧
      (s.inputBytes = some (encode (.f16m fin 0#3 o ext k) ++ p) →
        exec (.f16m fin 0#3 o ext k) s = .next (finish (some fin) (some o) (setOutput (transform p k) s)))) ∧
    (∀ ext : BitVec 64, ext.toNat = p.length →
      (s.inputBytes = some (encode (.f64u fin 0#3 o ext) ++ p) →
        exec (.f64u fin 0#3 o ext) s = .next (finish (some fin) (some o) (setOutput p s))) ∧
      (s.inputBytes = some (encode (.f64m fin 0#3 o ext k) ++ p) →
        exec (.f64m fin 0#3 o ext k) s = .next (finish (some fin) (some o) (setOutput (transform p k) s))))

/-- R102, R103, R111: a fin, masked-flag, tier or format row whose header word has a reserved bit or a reserved
opcode raises that violation, whatever the rest of the buffer holds. -/
def Obligations.OtherRowsRaiseTheirHeadersViolation : Prop :=
  ∀ (fin : Bool) (r : BitVec 3) (o : BitVec 4) (mask : Bool) (base : BitVec 7) (e16 : BitVec 16) (e64 : BitVec 64)
    (k : Key) (v : Violation),
    (if r ≠ 0#3 then v = .rsvSet
     else if 3 ≤ o.toNat ∧ o.toNat ≤ 7 then v = .reservedNoncontrolOpcode
     else 11 ≤ o.toNat ∧ v = .reservedControlOpcode) →
    raisesViolation (.finSet r o mask base) v ∧ raisesViolation (.finClear r o mask base) v ∧
    raisesViolation (.masked fin r o base) v ∧ raisesViolation (.unmasked fin r o base) v ∧
    raisesViolation (.len7 fin r o mask base) v ∧ raisesViolation (.len16 fin r o mask) v ∧
    raisesViolation (.len64 fin r o mask) v ∧ raisesViolation (.f7u fin r o base) v ∧
    raisesViolation (.f7m fin r o base k) v ∧ raisesViolation (.f16u fin r o e16) v ∧
    raisesViolation (.f16m fin r o e16 k) v ∧ raisesViolation (.f64u fin r o e64) v ∧
    raisesViolation (.f64m fin r o e64 k) v

/-- Every well-formed row of the header word or of a frame format does to a buffer that begins with its bytes
exactly what DECODE does to that buffer: success and every failure alike. -/
def Obligations.HeaderRowsRefineDecode : Prop :=
  ∀ (i : Instr) (s : State) (r : List Byte), i.group ≠ .command → i.wellFormed = true →
    s.running (encode i ++ r) → exec i s = exec .decode s

/-! ### The failures of DECODE -/

/-- R102: a set reserved bit raises RSV_SET whatever follows the first two bytes, and even when no other byte of
IBUF holds a value. -/
def Obligations.ReservedBitsFailRegardlessOfTheRest : Prop :=
  Violation.rsvSet.text = "RSVx set without known meaning" ∧
  ∀ (s : State) (n : BitVec 64) (a c : Byte), s.ph = .busy → s.ilen = some n → 2 ≤ n.toNat →
    Mem.read s.ibuf 0 = some a → Mem.read s.ibuf 1 = some c → be16 a c &&& 0x7000#16 ≠ 0#16 →
    exec .decode s = .next (raise (.violation .rsvSet) s)

/-- R103: with the reserved bits 0, opcodes 3 to 7 and 11 to 15 raise their reasons whatever follows the first two
bytes, and the six accepted opcodes raise no violation. -/
def Obligations.OpcodeIsValidated : Prop :=
  Violation.reservedNoncontrolOpcode.text = "reserved non-control opcode" ∧
  Violation.reservedControlOpcode.text = "reserved control opcode" ∧
  ∀ (s : State) (n : BitVec 64) (a c : Byte), s.ph = .busy → s.ilen = some n → 2 ≤ n.toNat →
    Mem.read s.ibuf 0 = some a → Mem.read s.ibuf 1 = some c → be16 a c &&& 0x7000#16 = 0#16 →
    (3 ≤ (a &&& 0x0F#8).toNat → (a &&& 0x0F#8).toNat ≤ 7 →
      exec .decode s = .next (raise (.violation .reservedNoncontrolOpcode) s)) ∧
    (11 ≤ (a &&& 0x0F#8).toNat → exec .decode s = .next (raise (.violation .reservedControlOpcode) s)) ∧
    ((a &&& 0x0F#8).toNat ∈ [0, 1, 2, 8, 9, 10] → s.inputBytes.isSome = true →
      ∃ t, exec .decode s = .next t ∧ t.resStatus ≠ some .protocolViolation)

/-- R107, R147: the six framing faults, each under its own condition once the earlier ones fail. `ext` is the
number of extended length bytes, `len` the declared length and `key` the number of key bytes. -/
def Obligations.FramingFaultsUnderTheirConditions : Prop :=
  ∀ (s : State) (b : List Byte), s.running b →
    (b.length < 2 → exec .decode s = .next (raise (.framing .shortHeader) s)) ∧
    ∀ (a c : Byte) (r : List Byte), b = a :: c :: r → violationOf (be16 a c) = none →
      let base := (c &&& 0x7F#8).toNat
      let ext := if base = 126 then 2 else if base = 127 then 8 else 0
      let len := if ext = 0 then base else bigEndian (r.take ext)
      let key := if c.getLsbD 7 then 4 else 0
      (b.length < 2 + ext → exec .decode s = .next (raise (.framing .shortExtLen) s)) ∧
      (2 + ext ≤ b.length → s.payloadMax.toNat < len →
        exec .decode s = .next (raise (.framing .lengthRange) s)) ∧
      (2 + ext ≤ b.length → len ≤ s.payloadMax.toNat → b.length < 2 + ext + key →
        exec .decode s = .next (raise (.framing .shortKey) s)) ∧
      (2 + ext + key ≤ b.length → len ≤ s.payloadMax.toNat → b.length < 2 + ext + key + len →
        exec .decode s = .next (raise (.framing .shortPayload) s)) ∧
      (2 + ext + key + len < b.length → len ≤ s.payloadMax.toNat →
        exec .decode s = .next (raise (.framing .trailingBytes) s))

/-- R108: DECODE of a well-framed buffer never ends in a FramingFault. Of any other it ends in a
ProtocolViolation when the first two bytes carry one, and otherwise in a FramingFault. The Bool `wellFramed` that
other statements use says the same of a buffer. -/
def Obligations.WellFramedBuffersNeverFault : Prop :=
  ∀ (s : State) (b : List Byte), s.running b →
    (wellFramed s.payloadMax.toNat b = true ↔ declaresItself s.payloadMax.toNat b) ∧
    ∃ t, exec .decode s = .next t ∧
      (declaresItself s.payloadMax.toNat b → t.resStatus ≠ some .framingFault) ∧
      (¬ declaresItself s.payloadMax.toNat b →
        t.resStatus = some
          (match b with
            | a :: c :: _ => if (violationOf (be16 a c)).isSome then .protocolViolation else .framingFault
            | _ => .framingFault))

/-! ### Round trips and the transform -/

/-- R96: decoding what ENCODE made gives the opcode, fin 1 and the payload back for the six accepted opcodes, with
no key or with any key, and ends in a ProtocolViolation for the reserved ones. -/
def Obligations.DecodingAnEncodedFrameGivesItBack : Prop :=
  ∀ (s u : State) (o : BitVec 4) (m : Bool) (p : List Byte), s.running p → s.cmdOpcode = some o →
    s.cmdHasKey = some m → (m = true → s.cmdKey.isSome = true) → p.length ≤ s.payloadMax.toNat →
    u.ph = .busy → u.payloadMax = s.payloadMax →
    ∃ t, exec .encode s = .next t ∧ t.resStatus = some .ok ∧
      (u.inputBytes = t.outputBytes →
        (o.toNat ∈ [0, 1, 2, 8, 9, 10] →
          exec .decode u = .next (finish (some true) (some o) (setOutput p u))) ∧
        (o.toNat ∉ [0, 1, 2, 8, 9, 10] →
          ∃ v, exec .decode u = .next (raise (.violation v) u)))

/-- R130: byte `i` of the result is byte `i` of the data XOR byte `i mod 4` of the key, and the length is kept. -/
def Obligations.TransformByteByByte : Prop :=
  ∀ (d : List Byte) (k : Key),
    (transform d k).length = d.length ∧
    ∀ (i : Nat) (x : Byte), d[i]? = some x →
      (transform d k)[i]? = some (x ^^^ (if i % 4 = 0 then k.b0 else if i % 4 = 1 then k.b1
        else if i % 4 = 2 then k.b2 else k.b3))

/-- R131: the transform is its own inverse. -/
def Obligations.TransformIsItsOwnInverse : Prop :=
  ∀ (d : List Byte) (k : Key), transform (transform d k) k = d

/-- R132: the index starts at 0, steps once a byte and wraps from 3 to 0. -/
def Obligations.KeyIndexIsTheByteCountModFour : Prop :=
  ∀ (d e : List Byte) (k : Key),
    (idxAfter 0#2 d).toNat = d.length % 4 ∧
    transform (d ++ e) k = transform d k ++ maskFrom k (idxAfter 0#2 d) e

/-- R134, R135: no data, a key of zeros, a key of ones, and data of zeros, which gives the key repeated. -/
def Obligations.TransformSpecialCases : Prop :=
  (∀ k, transform [] k = []) ∧ (∀ d, transform d (Key.mk 0#8 0#8 0#8 0#8) = d) ∧
  (∀ d, transform d (Key.mk 0xFF#8 0xFF#8 0xFF#8 0xFF#8) = d.map (fun x => ~~~x)) ∧
  (∀ (k : Key) (n i : Nat), i < n → (transform (List.replicate n 0#8) k)[i]? = k.bytes[i % 4]?) ∧
  (∀ k : Key, transform [0#8, 0#8, 0#8, 0#8, 0#8] k = [k.b0, k.b1, k.b2, k.b3, k.b0])

/-- R131, R137: XFORM of what XFORM made, with the same key, gives the data back. -/
def Obligations.XformTwiceGivesTheDataBack : Prop :=
  ∀ (s u : State) (d : List Byte) (k : Key), s.running d → s.cmdKey = some k → u.ph = .busy → u.cmdKey = some k →
    ∃ t, exec .xform s = .next t ∧
      (u.inputBytes = t.outputBytes → ∃ v, exec .xform u = .next v ∧ v.outputBytes = some d)

/-- R9, R35: a field written with MemWrite is read with MemRead as the same value, most significant byte first. -/
def Obligations.FieldsAreBigEndian : Prop :=
  ∀ (m : Mem) (a n v : Nat),
    Mem.readField (Mem.writeField m a n v) a n = .ok (v % 256 ^ n) ∧
    ∀ k < n, Mem.read (Mem.writeField m a n v) (a + k) = some (BitVec.ofNat 8 (v / 256 ^ (n - 1 - k)))

/-! ### What every operation does and leaves alone -/

/-- R24: no instruction changes an operand register, ILEN or a byte of IBUF. -/
def Obligations.OperandsSurviveEveryOperation : Prop :=
  ∀ (i : Instr) (s t : State), exec i s = .next t → s.operandsUnchanged t

/-- R12, R16, R17, R145, R146, R148: an instruction that answers a next state was started in BUSY and ends in
DONE, no working register holds a value, and status and reason agree. After a failure nothing else holds a
result. -/
def Obligations.OperationsEndInDone : Prop :=
  ∀ (i : Instr) (s t : State), exec i s = .next t →
    s.ph = .busy ∧ t.ph = .done ∧ t.work = Work.clear ∧
    ((t.resStatus = some .ok ∧ t.resReason = some .none) ∨
      ((∃ v, t.resStatus = some .protocolViolation ∧ t.resReason = some (.violation v) ∨
          ∃ f, t.resStatus = some .framingFault ∧ t.resReason = some (.framing f)) ∧
        t.resFin = none ∧ t.resOpcode = none ∧ t.olen = none ∧ ∀ a, Mem.read t.obuf a = none))

/-- ENCODE and XFORM raise nothing (R153, R154, R161) and leave RES_FIN and RES_OPCODE with no value (R16, R80,
R137). -/
def Obligations.OnlyDecodeFails : Prop :=
  ∀ s t : State, exec .encode s = .next t ∨ exec .xform s = .next t →
    t.resStatus = some .ok ∧ t.resReason = some .none ∧ t.resFin = none ∧ t.resOpcode = none

/-- R15, R30: after a success OBUF is OLEN bytes at offsets 0 to OLEN - 1, and no other offset holds a value. The
bound of R14 on ILEN is the premise; the invariant has it in every BUSY state. -/
def Obligations.OutputIsExactlyOlenBytes : Prop :=
  ∀ (i : Instr) (s t : State) (l : BitVec 64), s.ilen = some l → l.toNat ≤ Config.frameMax s.payloadMax →
    exec i s = .next t → t.resStatus = some .ok →
    ∃ (n : BitVec 64) (out : List Byte), t.olen = some n ∧ n.toNat = out.length ∧
      ∀ a, Mem.read t.obuf a = out[a]?

/-- R10, R13, R30, R92, R107, R114: the results of an operation depend on the operands it reads and on nothing
else, not on what IBUF holds at or past ILEN, on earlier results or on the working registers: DECODE on its input
alone, XFORM on input and key, ENCODE on input, opcode, flag and, when the flag is 1, key. -/
def Obligations.ResultsDependOnOperandsOnly : Prop :=
  ∀ s t u v : State, s.sameInput t →
    (exec .decode s = .next u → exec .decode t = .next v → u.sameResults v) ∧
    (s.cmdKey = t.cmdKey → exec .xform s = .next u → exec .xform t = .next v → u.sameResults v) ∧
    (s.cmdOpcode = t.cmdOpcode → s.cmdHasKey = t.cmdHasKey → (s.cmdHasKey = some true → s.cmdKey = t.cmdKey) →
      exec .encode s = .next u → exec .encode t = .next v → u.sameResults v)

/-! ### The machine: steps, moves, invariants -/

/-- A step performs the next move of the run, taking it off the run. When that is the block's move, named by the
run or by default, the step is exec of the instruction CMD_OP selects, and nothing around it. That the run's next
moves stand in `pending`, and that the block executes when none does, is the model's choice (log entry 3). -/
def Obligations.StepRunsTheFetchedInstruction : Prop :=
  ∀ (s : State) (i : Instr) (rest : List Move), s.ph = .busy → fetch s = some i →
    (s.pending = .execute :: rest → step s = exec i { s with pending := rest }) ∧
    (s.pending = [] → step s = exec i s) ∧
    ∀ (u : State) (m : Move), u.pending = m :: rest → step u = perform m { u with pending := rest }

/-- The very next step after an instruction is placed runs it: an operation select, or the first row of a header
word. How an instruction is placed is the model's choice (log entry 5), and so is the order among rows that
share a word (log entry 6). -/
def Obligations.PlacedInstructionRunsNext : Prop :=
  ∀ (s : State) (w : Nat) (i : Instr),
    (decodeTableWord 8 w = some i →
      step (s.withFetchWord 8 w) = exec i { s.withFetchWord 8 w with pending := s.pending }) ∧
    (decodeTableWord 16 w = some i →
      step (s.withFetchWord 16 w) = exec i { s.withFetchWord 16 w with pending := s.pending })

/-- Every step keeps the invariant. -/
def Obligations.StepKeepsInvariant : Prop :=
  ∀ s t : State, s.Inv → step s = .next t → t.Inv

/-- The invariant holds right after reset. -/
def Obligations.ResetSatisfiesInvariant : Prop := State.reset.Inv

/-- R22: after reset PH is IDLE and nothing else the spec gives the block holds a value. -/
def Obligations.ResetLeavesNoValue : Prop := State.reset.holdsNothing

/-- R170: RESET is a move in every phase. PH is IDLE afterwards and nothing else holds a value, BUSY or not. -/
def Obligations.ResetMoveClearsEveryPhase : Prop :=
  ∀ s : State, ∃ t, perform .reset s = .next t ∧ t.holdsNothing

/-- R12, R14, R172: START from IDLE or DONE, with every operand the operation reads held and ILEN within its
bound, takes PH to BUSY and discards the results. What the operation does not read may hold no value. -/
def Obligations.StartBeginsTheOperation : Prop :=
  ∀ (s : State) (b : List Byte), s.ph ≠ .busy → s.inputBytes = some b →
    (s.cmdOp = some 0#2 → s.cmdOpcode.isSome = true →
      (s.cmdHasKey = some false ∨ s.cmdHasKey = some true ∧ s.cmdKey.isSome = true) →
      b.length ≤ s.payloadMax.toNat → perform .start s = .next (beginOperation s)) ∧
    (s.cmdOp = some 1#2 → b.length ≤ Config.frameMax s.payloadMax → perform .start s = .next (beginOperation s)) ∧
    (s.cmdOp = some 2#2 → s.cmdKey.isSome = true → b.length ≤ s.payloadMax.toNat →
      perform .start s = .next (beginOperation s))

/-- R21: START is refused when CMD_OP, an operand the operation reads, ILEN or a byte of IBUF below ILEN holds no
value, and so is a host read of any register or of a byte of IBUF or OBUF below its length that holds none. -/
def Obligations.WhatHoldsNoValueIsRefused : Prop :=
  ∀ s : State, s.ph ≠ .busy →
    (s.cmdOp = none ∨
      s.cmdOp = some 0#2 ∧ (s.cmdOpcode = none ∨ s.cmdHasKey = none ∨ s.cmdHasKey = some true ∧ s.cmdKey = none) ∨
      s.cmdOp = some 2#2 ∧ s.cmdKey = none ∨ s.ilen = none ∨
      (∃ n a, s.ilen = some n ∧ a < n.toNat ∧ Mem.read s.ibuf a = none) →
      s.refuses .start) ∧
    (s.cmdOp = none → s.refuses (.read .cmdOp)) ∧ (s.cmdOpcode = none → s.refuses (.read .cmdOpcode)) ∧
    (s.cmdHasKey = none → s.refuses (.read .cmdHasKey)) ∧
    (s.cmdKey0 = none → s.refuses (.read (.cmdKey 0))) ∧ (s.cmdKey1 = none → s.refuses (.read (.cmdKey 1))) ∧
    (s.cmdKey2 = none → s.refuses (.read (.cmdKey 2))) ∧ (s.cmdKey3 = none → s.refuses (.read (.cmdKey 3))) ∧
    (s.ilen = none → s.refuses (.read .ilen) ∧ ∀ a, s.refuses (.read (.ibuf a))) ∧
    (∀ n a, s.ilen = some n → a < n.toNat → Mem.read s.ibuf a = none → s.refuses (.read (.ibuf a))) ∧
    (s.resStatus = none → s.refuses (.read .resStatus)) ∧ (s.resReason = none → s.refuses (.read .resReason)) ∧
    (s.resFin = none → s.refuses (.read .resFin)) ∧ (s.resOpcode = none → s.refuses (.read .resOpcode)) ∧
    (s.olen = none → s.refuses (.read .olen) ∧ ∀ a, s.refuses (.read (.obuf a))) ∧
    (∀ n a, s.olen = some n → a < n.toNat → Mem.read s.obuf a = none → s.refuses (.read (.obuf a)))

/-- R14: START with ILEN above its bound is refused. -/
def Obligations.StartRefusesOverlongInput : Prop :=
  ∀ (s : State) (n : BitVec 64), s.ilen = some n →
    ((s.cmdOp = some 0#2 ∨ s.cmdOp = some 2#2) ∧ s.payloadMax.toNat < n.toNat ∨
      s.cmdOp = some 1#2 ∧ s.payloadMax.toNat + 14 < n.toNat) →
    ∃ r, perform .start s = .refused r

/-- R23, R174, R175: in BUSY the only moves are the block's EXECUTE, RESET and a read of PH. -/
def Obligations.BusyLeavesTheHostNoMove : Prop :=
  ∀ (s : State) (m : Move), s.ph = .busy → m ≠ .execute → m ≠ .reset → m ≠ .read .ph →
    ∃ r, perform m s = .refused r

/-- R12: EXECUTE is a move in BUSY only, and with nothing pending the block never leaves IDLE or DONE. That a step
with nothing pending stays where it is, is the model's choice (log entry 3). -/
def Obligations.BlockMovesOnlyInBusy : Prop :=
  ∀ s : State, s.ph ≠ .busy →
    perform .execute s = .refused .executeOutsideBusy ∧ (s.pending = [] → step s = .next s) ∧
    ∀ i : Instr, i ≠ .cmdReserved → exec i s = .refused .executeOutsideBusy

/-- R13, R14, R176: outside BUSY an operand write writes its register and nothing else, the results among what it
leaves alone. R14 gives the host `IBUF[0 .. ILEN-1]`: that a byte may be written at any 64-bit offset, and that a
write of ILEN leaves the bytes past it, is the model's choice (log entry 9), and so is one byte to a move (log
entry 23). That the host has both key ports of
R13 is its reading of "when an implementation carries the key on one 32-bit port" (log entry 18). -/
def Obligations.OperandWritesTouchOnlyTheirRegister : Prop :=
  ∀ (s : State) (op : BitVec 2) (o : BitVec 4) (m : Bool) (n a : BitVec 64) (v : Byte) (k : BitVec 32),
    s.ph ≠ .busy →
    perform (.writeOp op) s = .next { s with cmdOp := some op } ∧
    perform (.writeOpcode o) s = .next { s with cmdOpcode := some o } ∧
    perform (.writeHasKey m) s = .next { s with cmdHasKey := some m } ∧
    perform (.writeKey 0 v) s = .next { s with cmdKey0 := some v } ∧
    perform (.writeKey 1 v) s = .next { s with cmdKey1 := some v } ∧
    perform (.writeKey 2 v) s = .next { s with cmdKey2 := some v } ∧
    perform (.writeKey 3 v) s = .next { s with cmdKey3 := some v } ∧
    perform (.writeKey32 k) s = .next { s with
      cmdKey0 := some (k.extractLsb' 24 8), cmdKey1 := some (k.extractLsb' 16 8),
      cmdKey2 := some (k.extractLsb' 8 8), cmdKey3 := some (k.extractLsb' 0 8) } ∧
    perform (.writeIlen n) s = .next { s with ilen := some n } ∧
    ∃ t, perform (.writeIbuf a v) s = .next t ∧ t = { s with ibuf := t.ibuf } ∧
      Mem.read t.ibuf a.toNat = some v ∧ ∀ x, x ≠ a.toNat → Mem.read t.ibuf x = Mem.read s.ibuf x

/-- R12, R23, R146, R176: a host read answers with the register's number and changes nothing else: PH in every
phase, the operand registers CMD_* and ILEN in IDLE and DONE when they hold a value, the status and the reason
with their codes in DONE, and RES_FIN, RES_OPCODE and OLEN in DONE when they hold a value. That the answer stands
in `rdata` is the model's choice (log entry 4). -/
def Obligations.HostReadsAnswerTheRegister : Prop :=
  ∀ s : State,
    perform (.read .ph) s =
      .next { s with rdata := some (match s.ph with | .idle => 0 | .busy => 1 | .done => 2) } ∧
    (s.ph ≠ .busy →
      (∀ v, s.cmdOp = some v → perform (.read .cmdOp) s = .next { s with rdata := some v.toNat }) ∧
      (∀ v, s.cmdOpcode = some v → perform (.read .cmdOpcode) s = .next { s with rdata := some v.toNat }) ∧
      (∀ m, s.cmdHasKey = some m →
        perform (.read .cmdHasKey) s = .next { s with rdata := some (if m then 1 else 0) }) ∧
      (∀ v, s.cmdKey0 = some v → perform (.read (.cmdKey 0)) s = .next { s with rdata := some v.toNat }) ∧
      (∀ v, s.cmdKey1 = some v → perform (.read (.cmdKey 1)) s = .next { s with rdata := some v.toNat }) ∧
      (∀ v, s.cmdKey2 = some v → perform (.read (.cmdKey 2)) s = .next { s with rdata := some v.toNat }) ∧
      (∀ v, s.cmdKey3 = some v → perform (.read (.cmdKey 3)) s = .next { s with rdata := some v.toNat }) ∧
      (∀ n, s.ilen = some n → perform (.read .ilen) s = .next { s with rdata := some n.toNat })) ∧
    (s.ph = .done →
      (∀ st, s.resStatus = some st → perform (.read .resStatus) s = .next { s with rdata := some (match st with
        | .ok => 0 | .protocolViolation => 1 | .framingFault => 2) }) ∧
      (∀ re, s.resReason = some re → perform (.read .resReason) s = .next { s with rdata := some (match re with
        | .none => 0 | .violation .rsvSet => 1 | .violation .reservedNoncontrolOpcode => 2
        | .violation .reservedControlOpcode => 3 | .framing .shortHeader => 1 | .framing .shortExtLen => 2
        | .framing .lengthRange => 3 | .framing .shortKey => 4 | .framing .shortPayload => 5
        | .framing .trailingBytes => 6) }) ∧
      (∀ f, s.resFin = some f → perform (.read .resFin) s = .next { s with rdata := some (if f then 1 else 0) }) ∧
      (∀ o, s.resOpcode = some o → perform (.read .resOpcode) s = .next { s with rdata := some o.toNat }) ∧
      (∀ n, s.olen = some n → perform (.read .olen) s = .next { s with rdata := some n.toNat }))

/-- R21, R30: a host read of a byte of OBUF in DONE, or of IBUF in IDLE or DONE, answers the byte below the length,
and faults at or past the length, where no offset exists. That such a read is a fault is the model's reading of
R30 (log entry 10). That a read takes one byte, and that its answer stands in `rdata`, is the model's choice (log
entries 23 and 4). -/
def Obligations.BufferReadsStopAtTheLength : Prop :=
  ∀ (s : State) (n : BitVec 64) (a : Nat),
    (s.ph = .done → s.olen = some n →
      (n.toNat ≤ a → perform (.read (.obuf a)) s = .fault (.noSuchOffset (.obuf a))) ∧
      (∀ v, a < n.toNat → Mem.read s.obuf a = some v →
        perform (.read (.obuf a)) s = .next { s with rdata := some v.toNat })) ∧
    (s.ph ≠ .busy → s.ilen = some n →
      (n.toNat ≤ a → perform (.read (.ibuf a)) s = .fault (.noSuchOffset (.ibuf a))) ∧
      (∀ v, a < n.toNat → Mem.read s.ibuf a = some v →
        perform (.read (.ibuf a)) s = .next { s with rdata := some v.toNat }))

/-- R17, R23: a working register cannot be read by the host, in any phase, and neither a result register nor a byte
of OBUF in IDLE. -/
def Obligations.WorkingRegistersAreHidden : Prop :=
  ∀ (s : State) (r : Reg),
    (r ∈ [Reg.hdr, Reg.fin, Reg.rsv1, Reg.rsv2, Reg.rsv3, Reg.opc, Reg.mskf, Reg.base, Reg.hi, Reg.lo, Reg.len,
        Reg.pos, Reg.keyw, Reg.idx] →
      perform (.read r) s = .refused (.notHostVisible r)) ∧
    (r ∈ [Reg.resStatus, Reg.resReason, Reg.resFin, Reg.resOpcode, Reg.olen] → s.ph = .idle →
      perform (.read r) s = .refused .noResultYet) ∧
    ∀ a, s.ph = .idle → perform (.read (.obuf a)) s = .refused .noResultYet

/-- R4, D2: PAYLOAD_MAX is a parameter: no step changes it. It is a field of State by the model's choice (log
entries 2 and 15). -/
def Obligations.PayloadMaxNeverChanges : Prop :=
  ∀ s t : State, step s = .next t → t.payloadMax = s.payloadMax

/-- R180: every operation that starts, ends: in BUSY the block's move is enabled and takes it to DONE. That the
block executes when nothing is pending is the model's choice (log entry 3). -/
def Obligations.EveryStartedOperationEnds : Prop :=
  ∀ (s : State) (rest : List Move), s.Inv → s.ph = .busy → (s.pending = [] ∨ s.pending = .execute :: rest) →
    ∃ t, step s = .next t ∧ t.ph = .done
end

