-- ==== Sys2Proof/Laws/Bits.lean ====
section
/-! SUPPORT. The bit-level facts of Decode.lean: byte order both ways, and the fields of a header word both
ways. Later proofs cite these and never look inside a mask or a shift. -/

namespace Sys2Proof

/-! ### Byte order -/

theorem be16_bytes16 (v : BitVec 16) : be16 ((v >>> 8).truncate 8) (v.truncate 8) = v := by
  apply BitVec.eq_of_getLsbD_eq
  intro i hi
  interval_cases i <;> simp [be16]

theorem high_be16 (a b : Byte) : (be16 a b >>> 8).truncate 8 = a := by
  apply BitVec.eq_of_getLsbD_eq
  intro i hi
  simp [be16, hi, show 8 + i < 16 by omega]

theorem low_be16 (a b : Byte) : (be16 a b).truncate 8 = b := by
  apply BitVec.eq_of_getLsbD_eq
  intro i hi
  simp [be16, hi]

@[simp] theorem bytes16_be16 (a b : Byte) : bytes16 (be16 a b) = [a, b] := by
  rw [bytes16, high_be16, low_be16]

theorem be32_bytes32 (v : BitVec 32) :
    be32 ((v >>> 24).truncate 8) ((v >>> 16).truncate 8) ((v >>> 8).truncate 8) (v.truncate 8) = v := by
  apply BitVec.eq_of_getLsbD_eq
  intro i hi
  interval_cases i <;> simp [be32]

@[simp] theorem bytes32_be32 (a b c d : Byte) : bytes32 (be32 a b c d) = [a, b, c, d] := by
  simp only [bytes32, List.cons.injEq, and_true]
  refine ⟨?_, ?_, ?_, ?_⟩ <;>
    (apply BitVec.eq_of_getLsbD_eq; intro i hi; interval_cases i <;> simp [be32])

@[simp] theorem joinHalves_split (v : BitVec 64) : joinHalves (highHalf v) (lowHalf v) = v := by
  apply BitVec.eq_of_getLsbD_eq
  intro i hi
  by_cases h : i < 32
  · simp [joinHalves, highHalf, lowHalf, h, hi]
  · simp [joinHalves, highHalf, lowHalf, h, hi, show 32 + (i - 32) = i by omega, show i - 32 < 32 by omega]

@[simp] theorem highHalf_join (hi lo : BitVec 32) : highHalf (joinHalves hi lo) = hi := by
  apply BitVec.eq_of_getLsbD_eq
  intro i h
  simp [joinHalves, highHalf, h, show 32 + i < 64 by omega]

@[simp] theorem lowHalf_join (hi lo : BitVec 32) : lowHalf (joinHalves hi lo) = lo := by
  apply BitVec.eq_of_getLsbD_eq
  intro i h
  simp [joinHalves, lowHalf, h]

@[simp] theorem bytes64_join (a b c d e f g h : Byte) :
    bytes64 (joinHalves (be32 a b c d) (be32 e f g h)) = [a, b, c, d, e, f, g, h] := by
  simp [bytes64]

/-! ### The fields of a header word -/

theorem hdrFin_eq (h : BitVec 16) : hdrFin h = h.getLsbD 15 := by
  rw [hdrFin, Bool.eq_iff_iff, bne_iff_ne, ne_eq, ← not_iff_not, not_not]
  refine ⟨fun e => by simpa using congrArg (·.getLsbD 15) e, fun e => BitVec.eq_of_getLsbD_eq ?_⟩
  intro i hi
  interval_cases i <;> simp_all

theorem hdrRsv1_eq (h : BitVec 16) : hdrRsv1 h = h.getLsbD 14 := by
  rw [hdrRsv1, Bool.eq_iff_iff, bne_iff_ne, ne_eq, ← not_iff_not, not_not]
  refine ⟨fun e => by simpa using congrArg (·.getLsbD 14) e, fun e => BitVec.eq_of_getLsbD_eq ?_⟩
  intro i hi
  interval_cases i <;> simp_all

theorem hdrRsv2_eq (h : BitVec 16) : hdrRsv2 h = h.getLsbD 13 := by
  rw [hdrRsv2, Bool.eq_iff_iff, bne_iff_ne, ne_eq, ← not_iff_not, not_not]
  refine ⟨fun e => by simpa using congrArg (·.getLsbD 13) e, fun e => BitVec.eq_of_getLsbD_eq ?_⟩
  intro i hi
  interval_cases i <;> simp_all

theorem hdrRsv3_eq (h : BitVec 16) : hdrRsv3 h = h.getLsbD 12 := by
  rw [hdrRsv3, Bool.eq_iff_iff, bne_iff_ne, ne_eq, ← not_iff_not, not_not]
  refine ⟨fun e => by simpa using congrArg (·.getLsbD 12) e, fun e => BitVec.eq_of_getLsbD_eq ?_⟩
  intro i hi
  interval_cases i <;> simp_all

theorem hdrMask_eq (h : BitVec 16) : hdrMask h = h.getLsbD 7 := by
  rw [hdrMask, Bool.eq_iff_iff, bne_iff_ne, ne_eq, ← not_iff_not, not_not]
  refine ⟨fun e => by simpa using congrArg (·.getLsbD 7) e, fun e => BitVec.eq_of_getLsbD_eq ?_⟩
  intro i hi
  interval_cases i <;> simp_all

section
variable (f : Bool) (r : BitVec 3) (o : BitVec 4) (m : Bool) (l : BitVec 7)

@[simp] theorem hdrFin_word : hdrFin (hdrWord f r o m l) = f := by
  simp [hdrFin_eq, hdrWord, BitVec.getLsbD_of_ge]

@[simp] theorem hdrMask_word : hdrMask (hdrWord f r o m l) = m := by
  simp [hdrMask_eq, hdrWord, BitVec.getLsbD_of_ge]

@[simp] theorem hdrRsv1_word : hdrRsv1 (hdrWord f r o m l) = r[2] := by
  simp [hdrRsv1_eq, hdrWord, BitVec.getLsbD_of_ge]

@[simp] theorem hdrRsv2_word : hdrRsv2 (hdrWord f r o m l) = r[1] := by
  simp [hdrRsv2_eq, hdrWord, BitVec.getLsbD_of_ge]

@[simp] theorem hdrRsv3_word : hdrRsv3 (hdrWord f r o m l) = r[0] := by
  simp [hdrRsv3_eq, hdrWord, BitVec.getLsbD_of_ge]

@[simp] theorem hdrRsv_word : hdrRsv (hdrWord f r o m l) = r := by
  apply BitVec.eq_of_getLsbD_eq
  intro i hi
  interval_cases i <;> simp [hdrRsv, hdrWord, BitVec.getLsbD_of_ge]

@[simp] theorem hdrOpcode_word : hdrOpcode (hdrWord f r o m l) = o := by
  apply BitVec.eq_of_getLsbD_eq
  intro i hi
  interval_cases i <;> simp [hdrOpcode, hdrWord, BitVec.getLsbD_of_ge]

@[simp] theorem hdrBase_word : hdrBase (hdrWord f r o m l) = l := by
  apply BitVec.eq_of_getLsbD_eq
  intro i hi
  interval_cases i <;> simp [hdrBase, hdrWord]

end

/-- Every bit of a header word belongs to one field. -/
theorem hdrWord_fields (h : BitVec 16) :
    hdrWord (hdrFin h) (hdrRsv h) (hdrOpcode h) (hdrMask h) (hdrBase h) = h := by
  apply BitVec.eq_of_getLsbD_eq
  intro i hi
  interval_cases i <;> simp [hdrWord, hdrFin_eq, hdrMask_eq, hdrRsv, hdrOpcode, hdrBase]

/-- The reserved-bit field is the three reserved bits. -/
theorem hdrRsv_bits (h : BitVec 16) : hdrRsv h = rsvBits (hdrRsv1 h) (hdrRsv2 h) (hdrRsv3 h) := by
  apply BitVec.eq_of_getLsbD_eq
  intro i hi
  interval_cases i <;> simp [rsvBits, hdrRsv, hdrRsv1_eq, hdrRsv2_eq, hdrRsv3_eq]

/-- The mask `0x7000` picks the three reserved bits. -/
theorem reserved_mask (h : BitVec 16) :
    h &&& 0x7000#16 = 0#16 ↔ (hdrRsv1 h || hdrRsv2 h || hdrRsv3 h) = false := by
  simp only [hdrRsv1_eq, hdrRsv2_eq, hdrRsv3_eq, Bool.or_eq_false_iff]
  refine ⟨fun e => ⟨⟨?_, ?_⟩, ?_⟩, fun e => BitVec.eq_of_getLsbD_eq ?_⟩
  · simpa using congrArg (·.getLsbD 14) e
  · simpa using congrArg (·.getLsbD 13) e
  · simpa using congrArg (·.getLsbD 12) e
  · intro i hi
    interval_cases i <;> simp_all

/-- The reserved-bit field is 0 exactly when no reserved bit is set. -/
theorem hdrRsv_zero (h : BitVec 16) : hdrRsv h = 0#3 ↔ h &&& 0x7000#16 = 0#16 := by
  rw [reserved_mask, hdrRsv_bits]
  cases hdrRsv1 h <;> cases hdrRsv2 h <;> cases hdrRsv3 h <;> decide

@[simp] theorem rsvBits_two (a b c : Bool) : (rsvBits a b c)[2] = a := by
  cases a <;> cases b <;> cases c <;> decide

@[simp] theorem rsvBits_one (a b c : Bool) : (rsvBits a b c)[1] = b := by
  cases a <;> cases b <;> cases c <;> decide

@[simp] theorem rsvBits_zero (a b c : Bool) : (rsvBits a b c)[0] = c := by
  cases a <;> cases b <;> cases c <;> decide

/-- A header word of a row whose three reserved bits are 0. -/
theorem word_reserved_zero (f : Bool) (o : BitVec 4) (m : Bool) (l : BitVec 7) :
    hdrWord f 0#3 o m l &&& 0x7000#16 = 0#16 := by
  rw [← hdrRsv_zero, hdrRsv_word]

namespace Machine

/-- The header word that ENCODE's first two bytes make. -/
theorem be16_encoded (o : BitVec 4) (m : Bool) (l : BitVec 7) :
    be16 (headerByte o) (firstLengthByte m l) = hdrWord true 0#3 o m l := by
  apply BitVec.eq_of_getLsbD_eq
  intro i hi
  interval_cases i <;> simp [be16, headerByte, firstLengthByte, hdrWord, BitVec.getLsbD_of_ge]

theorem be16_toNat (a b : Byte) : (be16 a b).toNat = a.toNat * 256 + b.toNat := by
  have ha := a.isLt
  have hb := b.isLt
  have h := Nat.shiftLeft_add_eq_or_of_lt hb a.toNat
  simp only [be16, BitVec.toNat_or, BitVec.toNat_shiftLeft, BitVec.truncate_eq_setWidth, BitVec.toNat_setWidth]
  rw [Nat.mod_eq_of_lt (by omega : a.toNat < 2 ^ 16), Nat.mod_eq_of_lt (by omega : b.toNat < 2 ^ 16),
    Nat.mod_eq_of_lt (by rw [Nat.shiftLeft_eq]; omega), ← h, Nat.shiftLeft_eq]

theorem be32_toNat (a b c d : Byte) :
    (be32 a b c d).toNat = ((a.toNat * 256 + b.toNat) * 256 + c.toNat) * 256 + d.toNat := by
  have ha := a.isLt
  have hb := b.isLt
  have hc := c.isLt
  have hd := d.isLt
  have h1 := Nat.shiftLeft_add_eq_or_of_lt (b := b.toNat * 65536) (i := 24) (by omega) a.toNat
  have h2 := Nat.shiftLeft_add_eq_or_of_lt (b := c.toNat * 256) (i := 16) (by omega) (a.toNat * 256 + b.toNat)
  have h3 := Nat.shiftLeft_add_eq_or_of_lt (b := d.toNat) (i := 8)
    (by omega) ((a.toNat * 256 + b.toNat) * 256 + c.toNat)
  simp only [Nat.shiftLeft_eq, Nat.reducePow] at h1 h2 h3
  simp only [be32, BitVec.toNat_or, BitVec.toNat_shiftLeft, BitVec.truncate_eq_setWidth, BitVec.toNat_setWidth,
    Nat.shiftLeft_eq, Nat.reducePow]
  rw [Nat.mod_eq_of_lt (by omega : a.toNat < 4294967296), Nat.mod_eq_of_lt (by omega : b.toNat < 4294967296),
    Nat.mod_eq_of_lt (by omega : c.toNat < 4294967296), Nat.mod_eq_of_lt (by omega : d.toNat < 4294967296),
    Nat.mod_eq_of_lt (by omega), Nat.mod_eq_of_lt (by omega), Nat.mod_eq_of_lt (by omega), ← h1,
    show a.toNat * 16777216 + b.toNat * 65536 = (a.toNat * 256 + b.toNat) * 65536 by ring, ← h2,
    show (a.toNat * 256 + b.toNat) * 65536 + c.toNat * 256 =
      ((a.toNat * 256 + b.toNat) * 256 + c.toNat) * 256 by ring, ← h3]

/-- `MemRead` of two bytes is `be16` (R35). -/
theorem bigEndian_two (a b : Byte) : BitVec.ofNat 16 (bigEndian [a, b]) = be16 a b := by
  have ha := a.isLt
  have hb := b.isLt
  apply BitVec.eq_of_toNat_eq
  rw [be16_toNat]
  simp [bigEndian]
  omega

/-- `MemRead` of four bytes is `be32` (R35). -/
theorem bigEndian_four (a b c d : Byte) : BitVec.ofNat 32 (bigEndian [a, b, c, d]) = be32 a b c d := by
  have ha := a.isLt
  have hb := b.isLt
  have hc := c.isLt
  have hd := d.isLt
  apply BitVec.eq_of_toNat_eq
  rw [be32_toNat]
  simp [bigEndian]
  omega

end Machine

end Sys2Proof
end

