-- ==== Sys2Proof/Laws/Mem.lean ====
section
/-! SUPPORT. The laws of a buffer: a write is read back, leaves every other offset alone and keeps the
canonical form, and a byte sequence written is the byte sequence read (20_memory.md R30, R35, R42). -/

namespace Sys2Proof.Machine

/-! ### One byte -/

theorem read_write (m : Mem) (a b : Nat) (v : Byte) :
    Mem.read (Mem.write m a v) b = if b = a then some v else Mem.read m b := by
  induction m with
  | nil => simp [Mem.write, Mem.read]
  | cons c m ih =>
    obtain ⟨o, w⟩ := c
    rw [Mem.write]
    split
    · simp [Mem.read]
    · split
      · next h => subst h; by_cases e : b = a <;> simp [Mem.read, e]
      · next h1 h2 =>
        by_cases e : b = o
        · subst e; simp [Mem.read, Ne.symm h2]
        · simp [Mem.read, e, ih]

theorem read_write_same (m : Mem) (a : Nat) (v : Byte) : Mem.read (Mem.write m a v) a = some v := by
  simp [read_write]

theorem read_write_other (m : Mem) {a b : Nat} (v : Byte) (h : b ≠ a) :
    Mem.read (Mem.write m a v) b = Mem.read m b := by
  simp [read_write, h]

theorem mem_write {m : Mem} {a : Nat} {v : Byte} {c : Host.Cell} (h : c ∈ Mem.write m a v) :
    c.1 = a ∨ c ∈ m := by
  induction m with
  | nil => simp [Mem.write] at h; simp [h]
  | cons d m ih =>
    rw [Mem.write] at h
    split at h
    · rcases List.mem_cons.mp h with rfl | h <;> simp_all
    · split at h
      · rcases List.mem_cons.mp h with rfl | h <;> simp_all
      · rcases List.mem_cons.mp h with rfl | h
        · simp
        · rcases ih h with h | h <;> simp [h]

/-- A write keeps the offsets strictly rising. -/
theorem write_wf {m : Mem} (h : m.wf) (a : Nat) (v : Byte) : Mem.wf (Mem.write m a v) := by
  induction m with
  | nil => simp [Mem.write, Mem.wf]
  | cons c m ih =>
    obtain ⟨o, w⟩ := c
    have hm := List.pairwise_cons.mp h
    rw [Mem.write]
    split
    · next hlt =>
      refine List.pairwise_cons.mpr ⟨fun d hd => ?_, h⟩
      rcases List.mem_cons.mp hd with rfl | hd
      · exact hlt
      · exact lt_trans hlt (hm.1 d hd)
    · split
      · next e => subst e; exact List.pairwise_cons.mpr hm
      · refine List.pairwise_cons.mpr ⟨fun d hd => ?_, ih hm.2⟩
        rcases mem_write hd with e | hd
        · simp only [e]; omega
        · exact hm.1 d hd

/-! ### A byte sequence -/

theorem writeBytes_wf {m : Mem} (h : m.wf) (a : Nat) (vs : List Byte) : Mem.wf (Mem.writeBytes m a vs) := by
  induction vs generalizing m a with
  | nil => exact h
  | cons v vs ih => exact ih (write_wf h a v) (a + 1)

theorem ofBytes_wf (vs : List Byte) : (Mem.ofBytes vs).wf := writeBytes_wf List.Pairwise.nil 0 vs

theorem writeBytes_append (m : Mem) (a : Nat) (vs ws : List Byte) :
    Mem.writeBytes m a (vs ++ ws) = Mem.writeBytes (Mem.writeBytes m a vs) (a + vs.length) ws := by
  induction vs generalizing m a with
  | nil => rfl
  | cons v vs ih =>
    rw [List.cons_append, Mem.writeBytes, Mem.writeBytes, ih, List.length_cons]
    congr 1
    omega

/-- Appending at the end of what a buffer holds. -/
theorem ofBytes_append (vs ws : List Byte) :
    Mem.writeBytes (Mem.ofBytes vs) vs.length ws = Mem.ofBytes (vs ++ ws) := by
  rw [Mem.ofBytes, Mem.ofBytes, writeBytes_append, Nat.zero_add]

theorem read_writeBytes (m : Mem) (a b : Nat) (vs : List Byte) :
    Mem.read (Mem.writeBytes m a vs) b = if a ≤ b ∧ b < a + vs.length then vs[b - a]? else Mem.read m b := by
  induction vs generalizing m a with
  | nil =>
    rw [Mem.writeBytes, if_neg]
    simp only [List.length_nil]
    omega
  | cons v vs ih =>
    rw [Mem.writeBytes, ih, read_write, List.length_cons]
    by_cases e : b = a
    · subst e
      simp
    · by_cases h : a + 1 ≤ b ∧ b < a + 1 + vs.length
      · rw [if_pos h, if_pos (by omega), show b - a = b - (a + 1) + 1 by omega, List.getElem?_cons_succ]
      · rw [if_neg h, if_neg e, if_neg (by omega)]

/-- Offset by offset, a buffer holds exactly the bytes written to it. -/
theorem read_ofBytes (vs : List Byte) (b : Nat) : Mem.read (Mem.ofBytes vs) b = vs[b]? := by
  rw [Mem.ofBytes, read_writeBytes]
  by_cases h : b < vs.length
  · simp [h]
  · simp [h, Mem.read]

/-- Reading `n` bytes gives `bs` exactly when each byte of `bs` stands at its offset. -/
theorem readBytes_ok_iff (m : Mem) (a n : Nat) (bs : List Byte) :
    Mem.readBytes m a n = .ok bs ↔ bs.length = n ∧ ∀ i < n, Mem.read m (a + i) = bs[i]? := by
  induction n generalizing a bs with
  | zero =>
    rw [Mem.readBytes]
    constructor
    · rintro ⟨⟩; simp
    · rintro ⟨h, -⟩; rw [List.length_eq_zero_iff.mp h]
  | succ n ih =>
    rw [Mem.readBytes]
    constructor
    · intro h
      split at h
      · cases h
      · next v hv =>
        split at h
        · cases h
        · next vs hvs =>
          cases h
          obtain ⟨hl, hr⟩ := (ih (a + 1) vs).mp hvs
          refine ⟨by simp [hl], fun i hi => ?_⟩
          cases i with
          | zero => simpa using hv
          | succ i => simpa [Nat.add_assoc, Nat.add_comm 1 i] using hr i (by omega)
    · rintro ⟨hl, hr⟩
      cases bs with
      | nil => simp at hl
      | cons v vs =>
        have h0 : Mem.read m a = some v := by simpa using hr 0 (by omega)
        have hs : Mem.readBytes m (a + 1) n = .ok vs :=
          (ih (a + 1) vs).mpr ⟨by simpa using hl, fun i hi => by
            simpa [Nat.add_assoc, Nat.add_comm 1 i] using hr (i + 1) (by omega)⟩
        simp [h0, hs]

theorem readBytes_ofBytes (vs : List Byte) : Mem.readBytes (Mem.ofBytes vs) 0 vs.length = .ok vs := by
  rw [readBytes_ok_iff]
  exact ⟨rfl, fun i _ => by rw [Nat.zero_add, read_ofBytes]⟩

/-- A part of what has been read can be read by itself. -/
theorem readBytes_sub {m : Mem} {a n : Nat} {bs : List Byte} (h : Mem.readBytes m a n = .ok bs) {i k : Nat}
    (hk : i + k ≤ n) : Mem.readBytes m (a + i) k = .ok ((bs.drop i).take k) := by
  obtain ⟨hl, hr⟩ := (readBytes_ok_iff m a n bs).mp h
  rw [readBytes_ok_iff]
  refine ⟨by simp; omega, fun j hj => ?_⟩
  rw [Nat.add_assoc, hr (i + j) (by omega), List.getElem?_take_of_lt hj, List.getElem?_drop]

/-! ### The buffers of a state -/

/-- The input bytes are there exactly when ILEN holds their number and each stands at its offset. -/
theorem inputBytes_eq_some {s : State} {bs : List Byte} (h : s.inputBytes = some bs) :
    ∃ n : BitVec 64, s.ilen = some n ∧ n.toNat = bs.length ∧ s.ibuf.readBytes 0 bs.length = .ok bs := by
  rw [State.inputBytes] at h
  split at h
  · cases h
  · next n hn =>
    split at h
    · next vs hvs =>
      cases h
      have hl := ((readBytes_ok_iff _ _ _ _).mp hvs).1
      exact ⟨n, hn, hl.symm, by rw [hl]; exact hvs⟩
    · cases h

theorem inputBytes_length_lt {s : State} {bs : List Byte} (h : s.inputBytes = some bs) : bs.length < 2 ^ 64 := by
  obtain ⟨n, -, hl, -⟩ := inputBytes_eq_some h
  exact hl ▸ n.isLt

/-- What a buffer was given is what it holds. -/
theorem outputBytes_setOutput {bs : List Byte} (h : bs.length < 2 ^ 64) (s : State) :
    (setOutput bs s).outputBytes = some bs := by
  simp only [State.outputBytes, setOutput, BitVec.toNat_ofNat, Nat.mod_eq_of_lt h, readBytes_ofBytes]

theorem inputBytes_giveInput {bs : List Byte} (h : bs.length < 2 ^ 64) (s : State) :
    (giveInput bs s).inputBytes = some bs := by
  simp only [State.inputBytes, giveInput, BitVec.toNat_ofNat, Nat.mod_eq_of_lt h, readBytes_ofBytes]

end Sys2Proof.Machine
end

