-- ==== Sys2Proof/Laws/State.lean ====
section
/-! SUPPORT. What each named update of State leaves in each field, so that no proof unfolds a record update. -/

namespace Sys2Proof.Machine

variable (s : State)

/-! ### raise -/

@[simp] theorem raise_ph (f : Failure) : (raise f s).ph = .done := rfl
@[simp] theorem raise_cmdOp (f : Failure) : (raise f s).cmdOp = s.cmdOp := rfl
@[simp] theorem raise_cmdOpcode (f : Failure) : (raise f s).cmdOpcode = s.cmdOpcode := rfl
@[simp] theorem raise_cmdHasKey (f : Failure) : (raise f s).cmdHasKey = s.cmdHasKey := rfl
@[simp] theorem raise_cmdKey0 (f : Failure) : (raise f s).cmdKey0 = s.cmdKey0 := rfl
@[simp] theorem raise_cmdKey1 (f : Failure) : (raise f s).cmdKey1 = s.cmdKey1 := rfl
@[simp] theorem raise_cmdKey2 (f : Failure) : (raise f s).cmdKey2 = s.cmdKey2 := rfl
@[simp] theorem raise_cmdKey3 (f : Failure) : (raise f s).cmdKey3 = s.cmdKey3 := rfl
@[simp] theorem raise_ilen (f : Failure) : (raise f s).ilen = s.ilen := rfl
@[simp] theorem raise_ibuf (f : Failure) : (raise f s).ibuf = s.ibuf := rfl
@[simp] theorem raise_olen (f : Failure) : (raise f s).olen = none := rfl
@[simp] theorem raise_obuf (f : Failure) : (raise f s).obuf = [] := rfl
@[simp] theorem raise_resStatus (f : Failure) : (raise f s).resStatus = some f.status := rfl
@[simp] theorem raise_resReason (f : Failure) : (raise f s).resReason = some f.reason := rfl
@[simp] theorem raise_resFin (f : Failure) : (raise f s).resFin = none := rfl
@[simp] theorem raise_resOpcode (f : Failure) : (raise f s).resOpcode = none := rfl
@[simp] theorem raise_work (f : Failure) : (raise f s).work = Work.clear := rfl
@[simp] theorem raise_payloadMax (f : Failure) : (raise f s).payloadMax = s.payloadMax := rfl
@[simp] theorem raise_pending (f : Failure) : (raise f s).pending = s.pending := rfl
@[simp] theorem raise_rdata (f : Failure) : (raise f s).rdata = s.rdata := rfl

/-! ### finish -/

@[simp] theorem finish_ph (fin : Option Bool) (op : Option (BitVec 4)) : (finish fin op s).ph = .done := rfl
@[simp] theorem finish_cmdOp (fin : Option Bool) (op : Option (BitVec 4)) : (finish fin op s).cmdOp = s.cmdOp := rfl
@[simp] theorem finish_cmdOpcode (fin : Option Bool) (op : Option (BitVec 4)) : (finish fin op s).cmdOpcode = s.cmdOpcode := rfl
@[simp] theorem finish_cmdHasKey (fin : Option Bool) (op : Option (BitVec 4)) : (finish fin op s).cmdHasKey = s.cmdHasKey := rfl
@[simp] theorem finish_cmdKey0 (fin : Option Bool) (op : Option (BitVec 4)) : (finish fin op s).cmdKey0 = s.cmdKey0 := rfl
@[simp] theorem finish_cmdKey1 (fin : Option Bool) (op : Option (BitVec 4)) : (finish fin op s).cmdKey1 = s.cmdKey1 := rfl
@[simp] theorem finish_cmdKey2 (fin : Option Bool) (op : Option (BitVec 4)) : (finish fin op s).cmdKey2 = s.cmdKey2 := rfl
@[simp] theorem finish_cmdKey3 (fin : Option Bool) (op : Option (BitVec 4)) : (finish fin op s).cmdKey3 = s.cmdKey3 := rfl
@[simp] theorem finish_ilen (fin : Option Bool) (op : Option (BitVec 4)) : (finish fin op s).ilen = s.ilen := rfl
@[simp] theorem finish_ibuf (fin : Option Bool) (op : Option (BitVec 4)) : (finish fin op s).ibuf = s.ibuf := rfl
@[simp] theorem finish_olen (fin : Option Bool) (op : Option (BitVec 4)) : (finish fin op s).olen = s.olen := rfl
@[simp] theorem finish_obuf (fin : Option Bool) (op : Option (BitVec 4)) : (finish fin op s).obuf = s.obuf := rfl
@[simp] theorem finish_resStatus (fin : Option Bool) (op : Option (BitVec 4)) : (finish fin op s).resStatus = some .ok := rfl
@[simp] theorem finish_resReason (fin : Option Bool) (op : Option (BitVec 4)) : (finish fin op s).resReason = some .none := rfl
@[simp] theorem finish_resFin (fin : Option Bool) (op : Option (BitVec 4)) : (finish fin op s).resFin = fin := rfl
@[simp] theorem finish_resOpcode (fin : Option Bool) (op : Option (BitVec 4)) : (finish fin op s).resOpcode = op := rfl
@[simp] theorem finish_work (fin : Option Bool) (op : Option (BitVec 4)) : (finish fin op s).work = Work.clear := rfl
@[simp] theorem finish_payloadMax (fin : Option Bool) (op : Option (BitVec 4)) : (finish fin op s).payloadMax = s.payloadMax := rfl
@[simp] theorem finish_pending (fin : Option Bool) (op : Option (BitVec 4)) : (finish fin op s).pending = s.pending := rfl
@[simp] theorem finish_rdata (fin : Option Bool) (op : Option (BitVec 4)) : (finish fin op s).rdata = s.rdata := rfl

/-! ### beginOperation -/

@[simp] theorem beginOperation_ph : (beginOperation s).ph = .busy := rfl
@[simp] theorem beginOperation_cmdOp : (beginOperation s).cmdOp = s.cmdOp := rfl
@[simp] theorem beginOperation_cmdOpcode : (beginOperation s).cmdOpcode = s.cmdOpcode := rfl
@[simp] theorem beginOperation_cmdHasKey : (beginOperation s).cmdHasKey = s.cmdHasKey := rfl
@[simp] theorem beginOperation_cmdKey0 : (beginOperation s).cmdKey0 = s.cmdKey0 := rfl
@[simp] theorem beginOperation_cmdKey1 : (beginOperation s).cmdKey1 = s.cmdKey1 := rfl
@[simp] theorem beginOperation_cmdKey2 : (beginOperation s).cmdKey2 = s.cmdKey2 := rfl
@[simp] theorem beginOperation_cmdKey3 : (beginOperation s).cmdKey3 = s.cmdKey3 := rfl
@[simp] theorem beginOperation_ilen : (beginOperation s).ilen = s.ilen := rfl
@[simp] theorem beginOperation_ibuf : (beginOperation s).ibuf = s.ibuf := rfl
@[simp] theorem beginOperation_olen : (beginOperation s).olen = none := rfl
@[simp] theorem beginOperation_obuf : (beginOperation s).obuf = [] := rfl
@[simp] theorem beginOperation_resStatus : (beginOperation s).resStatus = none := rfl
@[simp] theorem beginOperation_resReason : (beginOperation s).resReason = none := rfl
@[simp] theorem beginOperation_resFin : (beginOperation s).resFin = none := rfl
@[simp] theorem beginOperation_resOpcode : (beginOperation s).resOpcode = none := rfl
@[simp] theorem beginOperation_work : (beginOperation s).work = s.work := rfl
@[simp] theorem beginOperation_payloadMax : (beginOperation s).payloadMax = s.payloadMax := rfl
@[simp] theorem beginOperation_pending : (beginOperation s).pending = s.pending := rfl
@[simp] theorem beginOperation_rdata : (beginOperation s).rdata = s.rdata := rfl

/-! ### setOutput -/

@[simp] theorem setOutput_ph (bs : List Byte) : (setOutput bs s).ph = s.ph := rfl
@[simp] theorem setOutput_cmdOp (bs : List Byte) : (setOutput bs s).cmdOp = s.cmdOp := rfl
@[simp] theorem setOutput_cmdOpcode (bs : List Byte) : (setOutput bs s).cmdOpcode = s.cmdOpcode := rfl
@[simp] theorem setOutput_cmdHasKey (bs : List Byte) : (setOutput bs s).cmdHasKey = s.cmdHasKey := rfl
@[simp] theorem setOutput_cmdKey0 (bs : List Byte) : (setOutput bs s).cmdKey0 = s.cmdKey0 := rfl
@[simp] theorem setOutput_cmdKey1 (bs : List Byte) : (setOutput bs s).cmdKey1 = s.cmdKey1 := rfl
@[simp] theorem setOutput_cmdKey2 (bs : List Byte) : (setOutput bs s).cmdKey2 = s.cmdKey2 := rfl
@[simp] theorem setOutput_cmdKey3 (bs : List Byte) : (setOutput bs s).cmdKey3 = s.cmdKey3 := rfl
@[simp] theorem setOutput_ilen (bs : List Byte) : (setOutput bs s).ilen = s.ilen := rfl
@[simp] theorem setOutput_ibuf (bs : List Byte) : (setOutput bs s).ibuf = s.ibuf := rfl
@[simp] theorem setOutput_olen (bs : List Byte) : (setOutput bs s).olen = some (BitVec.ofNat 64 bs.length) := rfl
@[simp] theorem setOutput_obuf (bs : List Byte) : (setOutput bs s).obuf = Mem.ofBytes bs := rfl
@[simp] theorem setOutput_resStatus (bs : List Byte) : (setOutput bs s).resStatus = s.resStatus := rfl
@[simp] theorem setOutput_resReason (bs : List Byte) : (setOutput bs s).resReason = s.resReason := rfl
@[simp] theorem setOutput_resFin (bs : List Byte) : (setOutput bs s).resFin = s.resFin := rfl
@[simp] theorem setOutput_resOpcode (bs : List Byte) : (setOutput bs s).resOpcode = s.resOpcode := rfl
@[simp] theorem setOutput_work (bs : List Byte) : (setOutput bs s).work = s.work := rfl
@[simp] theorem setOutput_payloadMax (bs : List Byte) : (setOutput bs s).payloadMax = s.payloadMax := rfl
@[simp] theorem setOutput_pending (bs : List Byte) : (setOutput bs s).pending = s.pending := rfl
@[simp] theorem setOutput_rdata (bs : List Byte) : (setOutput bs s).rdata = s.rdata := rfl

/-! ### giveInput -/

@[simp] theorem giveInput_ph (bs : List Byte) : (giveInput bs s).ph = s.ph := rfl
@[simp] theorem giveInput_cmdOp (bs : List Byte) : (giveInput bs s).cmdOp = s.cmdOp := rfl
@[simp] theorem giveInput_cmdOpcode (bs : List Byte) : (giveInput bs s).cmdOpcode = s.cmdOpcode := rfl
@[simp] theorem giveInput_cmdHasKey (bs : List Byte) : (giveInput bs s).cmdHasKey = s.cmdHasKey := rfl
@[simp] theorem giveInput_cmdKey0 (bs : List Byte) : (giveInput bs s).cmdKey0 = s.cmdKey0 := rfl
@[simp] theorem giveInput_cmdKey1 (bs : List Byte) : (giveInput bs s).cmdKey1 = s.cmdKey1 := rfl
@[simp] theorem giveInput_cmdKey2 (bs : List Byte) : (giveInput bs s).cmdKey2 = s.cmdKey2 := rfl
@[simp] theorem giveInput_cmdKey3 (bs : List Byte) : (giveInput bs s).cmdKey3 = s.cmdKey3 := rfl
@[simp] theorem giveInput_ilen (bs : List Byte) : (giveInput bs s).ilen = some (BitVec.ofNat 64 bs.length) := rfl
@[simp] theorem giveInput_ibuf (bs : List Byte) : (giveInput bs s).ibuf = Mem.ofBytes bs := rfl
@[simp] theorem giveInput_olen (bs : List Byte) : (giveInput bs s).olen = s.olen := rfl
@[simp] theorem giveInput_obuf (bs : List Byte) : (giveInput bs s).obuf = s.obuf := rfl
@[simp] theorem giveInput_resStatus (bs : List Byte) : (giveInput bs s).resStatus = s.resStatus := rfl
@[simp] theorem giveInput_resReason (bs : List Byte) : (giveInput bs s).resReason = s.resReason := rfl
@[simp] theorem giveInput_resFin (bs : List Byte) : (giveInput bs s).resFin = s.resFin := rfl
@[simp] theorem giveInput_resOpcode (bs : List Byte) : (giveInput bs s).resOpcode = s.resOpcode := rfl
@[simp] theorem giveInput_work (bs : List Byte) : (giveInput bs s).work = s.work := rfl
@[simp] theorem giveInput_payloadMax (bs : List Byte) : (giveInput bs s).payloadMax = s.payloadMax := rfl
@[simp] theorem giveInput_pending (bs : List Byte) : (giveInput bs s).pending = s.pending := rfl
@[simp] theorem giveInput_rdata (bs : List Byte) : (giveInput bs s).rdata = s.rdata := rfl

/-! ### writeKeyAll -/

@[simp] theorem writeKeyAll_ph (k : Key) : (writeKeyAll k s).ph = s.ph := rfl
@[simp] theorem writeKeyAll_cmdOp (k : Key) : (writeKeyAll k s).cmdOp = s.cmdOp := rfl
@[simp] theorem writeKeyAll_cmdOpcode (k : Key) : (writeKeyAll k s).cmdOpcode = s.cmdOpcode := rfl
@[simp] theorem writeKeyAll_cmdHasKey (k : Key) : (writeKeyAll k s).cmdHasKey = s.cmdHasKey := rfl
@[simp] theorem writeKeyAll_cmdKey0 (k : Key) : (writeKeyAll k s).cmdKey0 = some k.b0 := rfl
@[simp] theorem writeKeyAll_cmdKey1 (k : Key) : (writeKeyAll k s).cmdKey1 = some k.b1 := rfl
@[simp] theorem writeKeyAll_cmdKey2 (k : Key) : (writeKeyAll k s).cmdKey2 = some k.b2 := rfl
@[simp] theorem writeKeyAll_cmdKey3 (k : Key) : (writeKeyAll k s).cmdKey3 = some k.b3 := rfl
@[simp] theorem writeKeyAll_ilen (k : Key) : (writeKeyAll k s).ilen = s.ilen := rfl
@[simp] theorem writeKeyAll_ibuf (k : Key) : (writeKeyAll k s).ibuf = s.ibuf := rfl
@[simp] theorem writeKeyAll_olen (k : Key) : (writeKeyAll k s).olen = s.olen := rfl
@[simp] theorem writeKeyAll_obuf (k : Key) : (writeKeyAll k s).obuf = s.obuf := rfl
@[simp] theorem writeKeyAll_resStatus (k : Key) : (writeKeyAll k s).resStatus = s.resStatus := rfl
@[simp] theorem writeKeyAll_resReason (k : Key) : (writeKeyAll k s).resReason = s.resReason := rfl
@[simp] theorem writeKeyAll_resFin (k : Key) : (writeKeyAll k s).resFin = s.resFin := rfl
@[simp] theorem writeKeyAll_resOpcode (k : Key) : (writeKeyAll k s).resOpcode = s.resOpcode := rfl
@[simp] theorem writeKeyAll_work (k : Key) : (writeKeyAll k s).work = s.work := rfl
@[simp] theorem writeKeyAll_payloadMax (k : Key) : (writeKeyAll k s).payloadMax = s.payloadMax := rfl
@[simp] theorem writeKeyAll_pending (k : Key) : (writeKeyAll k s).pending = s.pending := rfl
@[simp] theorem writeKeyAll_rdata (k : Key) : (writeKeyAll k s).rdata = s.rdata := rfl

/-! ### setWork -/

@[simp] theorem setWork_ph (w : Work) : (setWork w s).ph = s.ph := rfl
@[simp] theorem setWork_cmdOp (w : Work) : (setWork w s).cmdOp = s.cmdOp := rfl
@[simp] theorem setWork_cmdOpcode (w : Work) : (setWork w s).cmdOpcode = s.cmdOpcode := rfl
@[simp] theorem setWork_cmdHasKey (w : Work) : (setWork w s).cmdHasKey = s.cmdHasKey := rfl
@[simp] theorem setWork_cmdKey0 (w : Work) : (setWork w s).cmdKey0 = s.cmdKey0 := rfl
@[simp] theorem setWork_cmdKey1 (w : Work) : (setWork w s).cmdKey1 = s.cmdKey1 := rfl
@[simp] theorem setWork_cmdKey2 (w : Work) : (setWork w s).cmdKey2 = s.cmdKey2 := rfl
@[simp] theorem setWork_cmdKey3 (w : Work) : (setWork w s).cmdKey3 = s.cmdKey3 := rfl
@[simp] theorem setWork_ilen (w : Work) : (setWork w s).ilen = s.ilen := rfl
@[simp] theorem setWork_ibuf (w : Work) : (setWork w s).ibuf = s.ibuf := rfl
@[simp] theorem setWork_olen (w : Work) : (setWork w s).olen = s.olen := rfl
@[simp] theorem setWork_obuf (w : Work) : (setWork w s).obuf = s.obuf := rfl
@[simp] theorem setWork_resStatus (w : Work) : (setWork w s).resStatus = s.resStatus := rfl
@[simp] theorem setWork_resReason (w : Work) : (setWork w s).resReason = s.resReason := rfl
@[simp] theorem setWork_resFin (w : Work) : (setWork w s).resFin = s.resFin := rfl
@[simp] theorem setWork_resOpcode (w : Work) : (setWork w s).resOpcode = s.resOpcode := rfl
@[simp] theorem setWork_work (w : Work) : (setWork w s).work = w := rfl
@[simp] theorem setWork_payloadMax (w : Work) : (setWork w s).payloadMax = s.payloadMax := rfl
@[simp] theorem setWork_pending (w : Work) : (setWork w s).pending = s.pending := rfl
@[simp] theorem setWork_rdata (w : Work) : (setWork w s).rdata = s.rdata := rfl

/-! ### The working registers after the header word is unpacked (R53) -/

@[simp] theorem unpack_hdr (w : Work) (h : BitVec 16) : (w.unpack h).hdr = some h := rfl
@[simp] theorem unpack_fin (w : Work) (h : BitVec 16) : (w.unpack h).fin = some (hdrFin h) := rfl
@[simp] theorem unpack_rsv1 (w : Work) (h : BitVec 16) : (w.unpack h).rsv1 = some (hdrRsv1 h) := rfl
@[simp] theorem unpack_rsv2 (w : Work) (h : BitVec 16) : (w.unpack h).rsv2 = some (hdrRsv2 h) := rfl
@[simp] theorem unpack_rsv3 (w : Work) (h : BitVec 16) : (w.unpack h).rsv3 = some (hdrRsv3 h) := rfl
@[simp] theorem unpack_opc (w : Work) (h : BitVec 16) : (w.unpack h).opc = some (hdrOpcode h) := rfl
@[simp] theorem unpack_mskf (w : Work) (h : BitVec 16) : (w.unpack h).mskf = some (hdrMask h) := rfl
@[simp] theorem unpack_base (w : Work) (h : BitVec 16) : (w.unpack h).base = some (hdrBase h) := rfl
@[simp] theorem unpack_hi (w : Work) (h : BitVec 16) : (w.unpack h).hi = w.hi := rfl
@[simp] theorem unpack_lo (w : Work) (h : BitVec 16) : (w.unpack h).lo = w.lo := rfl
@[simp] theorem unpack_len (w : Work) (h : BitVec 16) : (w.unpack h).len = w.len := rfl
@[simp] theorem unpack_pos (w : Work) (h : BitVec 16) : (w.unpack h).pos = w.pos := rfl
@[simp] theorem unpack_keyw (w : Work) (h : BitVec 16) : (w.unpack h).keyw = w.keyw := rfl
@[simp] theorem unpack_idx (w : Work) (h : BitVec 16) : (w.unpack h).idx = w.idx := rfl

end Sys2Proof.Machine
end

