-- ==== Sys2Proof/Laws/Steps.lean ====
section
/-! SUPPORT. What each shared operation can do, said once: reading what is held, sequencing, and each part of
ENCODE, DECODE and XFORM on a state whose input bytes are known. -/

namespace Sys2Proof.Machine

/-! ### Reading what is held -/

@[simp] theorem need_some {α : Type} (r : Reg) (a : α) (k : α → Result) : need r (some a) k = k a := rfl

@[simp] theorem need_none {α : Type} (r : Reg) (k : α → Result) : need r none k = .refused (.noValue r) := rfl

/-- Reading can only go on with a value that is held. -/
theorem need_next {α : Type} {r : Reg} {v : Option α} {k : α → Result} {t : State}
    (h : need r v k = .next t) : ∃ a, v = some a ∧ k a = .next t := by
  cases v with
  | none => cases h
  | some a => exact ⟨a, rfl, h⟩

section
variable {s : State} {b : List Byte} (h : s.inputBytes = some b)
include h

/-- ILEN holds the number of the input bytes. -/
theorem need_ilen (k : BitVec 64 → Result) : need .ilen s.ilen k = k (BitVec.ofNat 64 b.length) := by
  obtain ⟨n, hn, hl, -⟩ := inputBytes_eq_some h
  rw [hn, need_some, ← hl, BitVec.ofNat_toNat, BitVec.setWidth_eq]

theorem needInput_part {i n : Nat} (hn : i + n ≤ b.length) (k : List Byte → Result) :
    needInput s i n k = k ((b.drop i).take n) := by
  obtain ⟨-, -, -, hr⟩ := inputBytes_eq_some h
  have := readBytes_sub hr hn
  rw [Nat.zero_add] at this
  simp only [needInput, this]

theorem needField_part {i n : Nat} (hn : i + n ≤ b.length) (k : Nat → Result) :
    needField s i n k = k (bigEndian ((b.drop i).take n)) := by
  obtain ⟨-, -, -, hr⟩ := inputBytes_eq_some h
  have := readBytes_sub hr hn
  rw [Nat.zero_add] at this
  simp only [needField, Mem.readField, this]

theorem needByte_part {i : Nat} (hi : i < b.length) (k : Byte → Result) : needByte s i k = k b[i] := by
  obtain ⟨-, -, -, hr⟩ := inputBytes_eq_some h
  have := ((readBytes_ok_iff _ _ _ _).mp hr).2 i hi
  rw [Nat.zero_add] at this
  rw [needByte, this, List.getElem?_eq_getElem hi, need_some]

/-- `if N < n then raise` (R107), on known input bytes. -/
theorem requireInput_run (n : Nat) (f : Framing) :
    requireInput n f s = if b.length < n then .next (raise (.framing f) s) else .next s := by
  rw [requireInput, need_ilen h, BitVec.toNat_ofNat, Nat.mod_eq_of_lt (inputBytes_length_lt h)]

end

/-! ### Sequencing -/

@[simp] theorem runSteps_nil (s : State) : runSteps [] s = .next s := rfl

/-- A step that stays in BUSY is followed by the next. -/
theorem runSteps_go {f : Action} {fs : List Action} {s t : State} (h : f s = .next t) (hb : t.ph = .busy) :
    runSteps (f :: fs) s = runSteps fs t := by
  rw [runSteps, h]
  simp [hb]

/-- No step follows one that has left BUSY. -/
theorem runSteps_end {f : Action} {fs : List Action} {s t : State} (h : f s = .next t) (hb : t.ph ≠ .busy) :
    runSteps (f :: fs) s = .next t := by
  rw [runSteps, h]
  simp [hb]

/-- A failing step ends the whole sequence. -/
theorem runSteps_raise {f : Action} {fs : List Action} {s : State} {e : Failure} (h : f s = .next (raise e s)) :
    runSteps (f :: fs) s = .next (raise e s) := runSteps_end h (by simp)

/-- Only what the first step answers matters. -/
theorem runSteps_congr {f g : Action} {fs : List Action} {s : State} (h : f s = g s) :
    runSteps (f :: fs) s = runSteps (g :: fs) s := by
  rw [runSteps, runSteps, h]

/-- A sequence after a sequence runs while BUSY. -/
theorem runSteps_append (fs gs : List Action) {s : State} (hb : s.ph = .busy) :
    runSteps (fs ++ gs) s =
      match runSteps fs s with
      | .next t => if t.ph = .busy then runSteps gs t else .next t
      | .fault r => .fault r
      | .refused r => .refused r := by
  induction fs generalizing s with
  | nil => simp [hb]
  | cons f fs ih =>
    rw [List.cons_append, runSteps, runSteps]
    cases f s with
    | next u =>
      by_cases hu : u.ph = .busy
      · simp only [hu, if_true, ih hu]
      · simp [hu]
    | fault r => rfl
    | refused r => rfl

/-- A step that is itself a sequence of steps. -/
theorem runSteps_nested {f : Action} {fs gs : List Action} {s : State} (hb : s.ph = .busy)
    (h : f s = runSteps fs s) : runSteps (f :: gs) s = runSteps (fs ++ gs) s := by
  rw [runSteps_append fs gs hb, runSteps, h]
  all_goals cases runSteps fs s <;> rfl

/-- What every step keeps, a sequence of steps keeps. -/
theorem runSteps_keeps {R : State → State → Prop} (hr : ∀ s, R s s) (ht : ∀ s u t, R s u → R u t → R s t)
    {fs : List Action} (hf : ∀ f ∈ fs, ∀ s t, f s = .next t → R s t) {s t : State}
    (h : runSteps fs s = .next t) : R s t := by
  induction fs generalizing s with
  | nil => cases h; exact hr _
  | cons f fs ih =>
    rw [runSteps] at h
    cases hfs : f s with
    | next u =>
      have hu := hf f (by simp) s u hfs
      rw [hfs] at h
      by_cases hb : u.ph = .busy
      · simp only [hb, if_true] at h
        exact ht s u t hu (ih (fun g hg => hf g (by simp [hg])) h)
      · simp only [hb, if_false] at h
        cases h
        exact hu
    | fault r => rw [hfs] at h; cases h
    | refused r => rw [hfs] at h; cases h

/-- Only an operation in BUSY answers a next state, and then it is what its steps answer. -/
theorem operation_next {steps : List Action} {s t : State} (h : operation steps s = .next t) :
    s.ph = .busy ∧ runSteps steps s = .next t := by
  rw [operation] at h
  split at h
  · next hb => exact ⟨hb, h⟩
  · cases h

/-- In BUSY an operation is its steps. -/
theorem operation_busy {steps : List Action} {s : State} (h : s.ph = .busy) :
    operation steps s = runSteps steps s := by
  rw [operation, if_pos h]

/-- Outside BUSY there is no operation. -/
theorem operation_not_busy {steps : List Action} {s : State} (h : s.ph ≠ .busy) :
    operation steps s = .refused .executeOutsideBusy := by
  rw [operation, if_neg h]

/-! ### How an operation ends -/

/-- The working registers are gone at the end, whatever they held (R17, R148). -/
@[simp] theorem raise_setWork (f : Failure) (s : State) (w : Work) :
    raise f (setWork w s) = raise f s := rfl

@[simp] theorem finish_setWork (a : Option Bool) (o : Option (BitVec 4)) (s : State) (w : Work) :
    finish a o (setWork w s) = finish a o s := rfl

@[simp] theorem endDecode_setWork (s : State) (w : Work) (r : Except Failure Frame) :
    endDecode (setWork w s) r = endDecode s r := by cases r <;> rfl

@[simp] theorem inputBytes_setWork (s : State) (w : Work) : (setWork w s).inputBytes = s.inputBytes := rfl

@[simp] theorem raise_setOutput (f : Failure) (s : State) (bs : List Byte) :
    raise f (setOutput bs s) = raise f s := rfl

@[simp] theorem setOutput_setOutput (bs cs : List Byte) (s : State) :
    setOutput bs (setOutput cs s) = setOutput bs s := rfl

theorem setOutput_setWork (bs : List Byte) (s : State) (w : Work) :
    setOutput bs (setWork w s) = setWork w (setOutput bs s) := rfl

@[simp] theorem endDecode_ph (s : State) (r : Except Failure Frame) : (endDecode s r).ph = .done := by
  cases r <;> rfl

/-! ### The parts of DECODE -/

/-- Before step 1 (R20, R107). -/
theorem beforeHeader_run {s : State} {b : List Byte} (hb : s.ph = .busy) (h : s.inputBytes = some b)
    (rest : List Action) :
    runSteps (beforeHeader ++ rest) s =
      if b.length < 2 then .next (raise (.framing .shortHeader) s)
      else runSteps rest (setWork { s.work with pos := some 0 } s) := by
  rw [beforeHeader, List.cons_append, List.cons_append, List.nil_append,
    runSteps_go (f := startCursor) (t := setWork { s.work with pos := some 0 } s) rfl hb]
  have hr := requireInput_run (s := setWork { s.work with pos := some 0 } s) h 2 .shortHeader
  split at hr
  · next hl => rw [if_pos hl, runSteps_raise hr, raise_setWork]
  · next hl => rw [if_neg hl, runSteps_go hr hb]

/-- Step 1 (R101). -/
theorem fetchHeader_run {s : State} {b : List Byte} (h : s.inputBytes = some b) (hl : 2 ≤ b.length) :
    fetchHeader s = unpackHeader (be16 b[0] b[1]) s := by
  rw [fetchHeader, needField_part h (by omega)]
  congr 1
  match b, hl with
  | x :: y :: r, _ => exact bigEndian_two x y

/-- Steps 2 and 3 after the header word `hd` is unpacked (R102, R103). -/
theorem legality_run {s : State} (hb : s.ph = .busy) {hd : BitVec 16}
    (h1 : s.work.rsv1 = some (hdrRsv1 hd)) (h2 : s.work.rsv2 = some (hdrRsv2 hd))
    (h3 : s.work.rsv3 = some (hdrRsv3 hd)) (ho : s.work.opc = some (hdrOpcode hd)) (rest : List Action) :
    runSteps (legalitySteps ++ rest) s =
      match violationOf hd with
      | some v => .next (raise (.violation v) s)
      | none => runSteps rest s := by
  rw [legalitySteps, List.cons_append, List.cons_append, List.nil_append, violationOf]
  by_cases hm : hd &&& 0x7000#16 = 0#16
  · have hz := (reserved_mask hd).mp hm
    have hr : checkReserved s = .next s := by
      simp only [checkReserved, h1, h2, h3, need_some, hz]; rfl
    rw [runSteps_go hr hb, if_neg (not_not.mpr hm)]
    cases hc : opcodeClass (hdrOpcode hd) with
    | accepted =>
      rw [runSteps_go (t := s) (by simp only [checkOpcode, ho, need_some, hc]) hb]
    | reservedNoncontrol =>
      rw [runSteps_raise (e := .violation .reservedNoncontrolOpcode) (by simp only [checkOpcode, ho, need_some, hc])]
    | reservedControl =>
      rw [runSteps_raise (e := .violation .reservedControlOpcode) (by simp only [checkOpcode, ho, need_some, hc])]
  · have hz : (hdrRsv1 hd || hdrRsv2 hd || hdrRsv3 hd) = true := by
      rw [← Bool.not_eq_false]; exact fun e => hm ((reserved_mask hd).mpr e)
    have hr : checkReserved s = .next (raise (.violation .rsvSet) s) := by
      simp only [checkReserved, h1, h2, h3, need_some, hz, if_true]
    rw [runSteps_raise hr, if_pos hm]

/-- The end of step 4 (R63, R107). -/
theorem checkRange_run {s : State} {l : BitVec 64} (hl : s.work.len = some l) :
    checkRange s =
      if s.payloadMax.toNat < l.toNat then .next (raise (.framing .lengthRange) s) else .next s := by
  rw [checkRange, hl, need_some]

/-- The key of step 5 is not all there (R107). -/
theorem keySteps_short {s : State} {b : List Byte} {p : BitVec 64} (h : s.inputBytes = some b)
    (hp : s.work.pos = some p) (hk : b.length < p.toNat + 4) (rest : List Action) :
    runSteps (keySteps ++ rest) s = .next (raise (.framing .shortKey) s) := by
  have hr : requireKey s = requireInput (p.toNat + 4) .shortKey s := by rw [requireKey, hp, need_some]
  rw [requireInput_run h, if_pos hk] at hr
  exact runSteps_raise hr

section
variable {s : State} {b : List Byte} {p l : BitVec 64} (hb : s.ph = .busy) (h : s.inputBytes = some b)
  (hp : s.work.pos = some p) (hl : s.work.len = some l)
include hb h hp

/-- The key of step 5 (R105). -/
theorem keySteps_run {k0 k1 k2 k3 : Byte} {r : List Byte} (hd : b.drop p.toNat = k0 :: k1 :: k2 :: k3 :: r)
    (rest : List Action) :
    runSteps (keySteps ++ rest) s =
      runSteps rest
        (setWork { s.work with keyw := some (Key.mk k0 k1 k2 k3), pos := some (p + 4#64) } s) := by
  have hk : p.toNat + 4 ≤ b.length := by
    have := congrArg List.length hd
    simp only [List.length_drop, List.length_cons] at this
    omega
  have hr : requireKey s = requireInput (p.toNat + 4) .shortKey s := by rw [requireKey, hp, need_some]
  rw [requireInput_run h, if_neg (by omega)] at hr
  rw [keySteps, List.cons_append, List.cons_append, List.nil_append, runSteps_go hr hb]
  rw [List.drop_eq_getElem_cons (by omega), List.drop_eq_getElem_cons (by omega),
    List.drop_eq_getElem_cons (by omega), List.drop_eq_getElem_cons (by omega)] at hd
  simp only [List.cons.injEq] at hd
  obtain ⟨h0, h1, h2, h3, -⟩ := hd
  refine runSteps_go ?_ hb
  rw [readKey, hp, need_some, needByte_part h (by omega), needByte_part h (by omega),
    needByte_part h (by omega), needByte_part h (by omega), setKey, hp, need_some, h0, h1, h2, h3]

include hl

/-- The payload's extent (R106, R107). -/
theorem checkExtent_run (hpb : p.toNat ≤ b.length) (rest : List Action) :
    runSteps (checkExtent :: rest) s =
      match exactPayload l.toNat (b.drop p.toNat) with
      | .error e => .next (raise e s)
      | .ok _ => runSteps rest s := by
  have hr : checkExtent s =
      if b.length < p.toNat + l.toNat then .next (raise (.framing .shortPayload) s)
      else if p.toNat + l.toNat < b.length then .next (raise (.framing .trailingBytes) s)
      else .next s := by
    rw [checkExtent, need_ilen h, hp, need_some, hl, need_some, BitVec.toNat_ofNat,
      Nat.mod_eq_of_lt (inputBytes_length_lt h)]
  rw [exactPayload, List.length_drop]
  by_cases h1 : b.length < p.toNat + l.toNat
  · rw [if_pos h1] at hr
    rw [runSteps_raise hr, if_pos (by omega)]
  · rw [if_neg h1] at hr
    by_cases h2 : p.toNat + l.toNat < b.length
    · rw [if_pos h2] at hr
      rw [runSteps_raise hr, if_neg (by omega), if_pos (by omega)]
    · rw [if_neg h2] at hr
      rw [runSteps_go hr hb, if_neg (by omega), if_neg (by omega)]

end

/-- `R <- IBUF[POS .. N-1]` (R105). -/
theorem needRemaining_run {s : State} {b : List Byte} {p : BitVec 64} (h : s.inputBytes = some b)
    (hp : s.work.pos = some p) (hpb : p.toNat ≤ b.length) (k : List Byte → Result) :
    needRemaining s k = k (b.drop p.toNat) := by
  rw [needRemaining, need_ilen h, hp, need_some, BitVec.toNat_ofNat, Nat.mod_eq_of_lt (inputBytes_length_lt h),
    needInput_part h (by omega), List.take_of_length_le (by simp)]

/-! ### Step 5 and step 6 together -/

/-- `OBUF <- R`, then step 6 (R105, R109). -/
theorem clearPayload_run {s : State} {b : List Byte} {p l : BitVec 64} {f : Bool} {o : BitVec 4}
    (hb : s.ph = .busy) (h : s.inputBytes = some b) (hp : s.work.pos = some p) (hpb : p.toNat ≤ b.length)
    (hl : s.work.len = some l) (hlen : (b.drop p.toNat).length = l.toNat) (hf : s.work.fin = some f)
    (ho : s.work.opc = some o) :
    runSteps [clearPayload, deliver] s = .next (finish (some f) (some o) (setOutput (b.drop p.toNat) s)) := by
  have h1 : clearPayload s = .next (setOutput (b.drop p.toNat) s) := by
    rw [clearPayload, needRemaining_run h hp hpb]
  rw [runSteps_go h1 (by simpa using hb)]
  have h2 : deliver (setOutput (b.drop p.toNat) s) =
      .next (finish (some f) (some o) (setOutput (b.drop p.toNat) s)) := by
    rw [deliver, setOutput_work, hl, need_some, hf, need_some, ho, need_some]
    simp only [setOutput, hlen, BitVec.ofNat_toNat, BitVec.setWidth_eq]
  rw [runSteps_end h2 (by simp)]

/-- `OBUF <- Transform(R, KEYW)`, then step 6 (R105, R109). -/
theorem unmaskPayload_run {s : State} {b : List Byte} {p l : BitVec 64} {f : Bool} {o : BitVec 4} {k : Key}
    (hb : s.ph = .busy) (h : s.inputBytes = some b) (hp : s.work.pos = some p) (hpb : p.toNat ≤ b.length)
    (hl : s.work.len = some l) (hlen : (transform (b.drop p.toNat) k).length = l.toNat)
    (hf : s.work.fin = some f) (ho : s.work.opc = some o) (hk : s.work.keyw = some k) :
    runSteps [unmaskPayload, deliver] s =
      .next (finish (some f) (some o) (setOutput (transform (b.drop p.toNat) k) s)) := by
  have h1 : unmaskPayload s =
      .next (setOutput (transform (b.drop p.toNat) k)
        (setWork { s.work with idx := some (idxAfter 0#2 (b.drop p.toNat)) } s)) := by
    rw [unmaskPayload, needRemaining_run h hp hpb, runMask, hk, need_some]
  rw [runSteps_go h1 (by simpa using hb)]
  refine runSteps_end (t := finish (some f) (some o) (setOutput (transform (b.drop p.toNat) k) s)) ?_ (by simp)
  rw [deliver, setOutput_work]
  simp only [hl, hf, ho]
  simp only [setOutput, hlen, BitVec.ofNat_toNat, BitVec.setWidth_eq]
  rfl

/-! ### The transform -/

@[simp] theorem maskFrom_length (k : Key) (i : BitVec 2) (d : List Byte) : (maskFrom k i d).length = d.length := by
  induction d generalizing i with
  | nil => rfl
  | cons x d ih => simp [maskFrom, ih]

@[simp] theorem transform_length (d : List Byte) (k : Key) : (transform d k).length = d.length := by
  rw [transform, maskFrom_length]

end Sys2Proof.Machine
end

