-- ==== Sys2Proof/Laws/Decoding.lean ====
section
/-! SUPPORT. What the sequences of steps that DECODE and the header rows share do, in terms of the pure functions
of Codec.lean: the tails after a known length, the tail after the opcode check, and the part before the header
word. -/

namespace Sys2Proof.Machine

/-! ### Payloads -/

theorem exactPayload_ok {n : Nat} {r p : List Byte} (h : exactPayload n r = .ok p) : p = r ∧ r.length = n := by
  rw [exactPayload] at h
  split at h
  · cases h
  · split at h
    · cases h
    · cases h
      exact ⟨rfl, by omega⟩

theorem exactPayload_self {n : Nat} {r : List Byte} (h : r.length = n) : exactPayload n r = .ok r := by
  rw [exactPayload, if_neg (by omega), if_neg (by omega)]

/-- A frame around a payload that may have failed. -/
def frameOf (f : Bool) (o : BitVec 4) : Except Failure (List Byte) → Except Failure Frame
  | .error e => .error e
  | .ok p => .ok (Frame.mk o f p)

/-- `decodeAfterLength` past the range check. -/
theorem decodeAfterLength_inRange {m : Nat} {h : BitVec 16} {l : Nat} {r : List Byte} (hm : ¬ m < l) :
    decodeAfterLength m h l r = frameOf (hdrFin h) (hdrOpcode h) (decodePayload (hdrMask h) l r) := by
  rw [decodeAfterLength, if_neg hm]
  cases decodePayload (hdrMask h) l r <;> rfl

theorem decodePayload_clear (l : Nat) (r : List Byte) : decodePayload false l r = exactPayload l r := rfl

theorem decodePayload_key (l : Nat) (k0 k1 k2 k3 : Byte) (r : List Byte) :
    decodePayload true l (k0 :: k1 :: k2 :: k3 :: r) =
      match exactPayload l r with
      | .ok p => .ok (transform p (Key.mk k0 k1 k2 k3))
      | .error e => .error e := rfl

theorem decodePayload_short {l : Nat} {r : List Byte} (h : r.length < 4) :
    decodePayload true l r = .error (.framing .shortKey) := by
  match r, h with
  | [], _ | [_], _ | [_, _], _ | [_, _, _], _ => rfl

/-- A byte sequence of at least four bytes begins with a key. -/
theorem four_bytes {r : List Byte} (h : 4 ≤ r.length) : ∃ k0 k1 k2 k3 t, r = k0 :: k1 :: k2 :: k3 :: t := by
  match r, h with
  | k0 :: k1 :: k2 :: k3 :: t, _ => exact ⟨k0, k1, k2, k3, t, rfl⟩

/-! ### The tails after a known length -/

section
variable {s : State} {b : List Byte} {p l : BitVec 64} {f : Bool} {o : BitVec 4}
  (hb : s.ph = .busy) (h : s.inputBytes = some b) (hp : s.work.pos = some p) (hpb : p.toNat ≤ b.length)
  (hl : s.work.len = some l) (hf : s.work.fin = some f) (ho : s.work.opc = some o)
include hb h hp hpb hl hf ho

/-- The extent and the payload in clear (R105, R106, R109). -/
theorem clearTail_run :
    runSteps [checkExtent, clearPayload, deliver] s =
      .next (endDecode s (frameOf f o (decodePayload false l.toNat (b.drop p.toNat)))) := by
  rw [checkExtent_run hb h hp hl hpb, decodePayload_clear]
  cases he : exactPayload l.toNat (b.drop p.toNat) with
  | error e => rfl
  | ok pl =>
    obtain ⟨rfl, hlen⟩ := exactPayload_ok he
    exact clearPayload_run hb h hp hpb hl hlen hf ho

/-- The extent and the payload unmasked with the key in KEYW (R105, R106, R109). -/
theorem unmaskTail_run {k : Key} (hk : s.work.keyw = some k) :
    runSteps [checkExtent, unmaskPayload, deliver] s =
      .next (endDecode s (frameOf f o
        (match exactPayload l.toNat (b.drop p.toNat) with
          | .ok r => .ok (transform r k)
          | .error e => .error e))) := by
  rw [checkExtent_run hb h hp hl hpb]
  cases he : exactPayload l.toNat (b.drop p.toNat) with
  | error e => rfl
  | ok pl =>
    obtain ⟨rfl, hlen⟩ := exactPayload_ok he
    exact unmaskPayload_run hb h hp hpb hl (by rw [transform_length, hlen]) hf ho hk

/-- The key, the extent and the payload unmasked with it (R105 to R107, R109). -/
theorem maskedTail_run (hp10 : p.toNat ≤ 10) :
    runSteps (keySteps ++ [checkExtent, unmaskPayload, deliver]) s =
      .next (endDecode s (frameOf f o (decodePayload true l.toNat (b.drop p.toNat)))) := by
  by_cases hk : b.length < p.toNat + 4
  · rw [keySteps_short h hp hk, decodePayload_short (by rw [List.length_drop]; omega)]
    rfl
  · obtain ⟨k0, k1, k2, k3, r, hd⟩ := four_bytes (r := b.drop p.toNat) (by rw [List.length_drop]; omega)
    have hp4 : (p + 4#64).toNat = p.toNat + 4 := by
      rw [BitVec.toNat_add, BitVec.toNat_ofNat]
      omega
    have hr : b.drop (p + 4#64).toNat = r := by
      rw [hp4, ← List.drop_drop, hd]
      rfl
    rw [keySteps_run hb h hp hd, unmaskTail_run
      (s := setWork { s.work with keyw := some (Key.mk k0 k1 k2 k3), pos := some (p + 4#64) } s) (b := b) (p := p + 4#64) (l := l) (f := f)
      (o := o) (k := Key.mk k0 k1 k2 k3) hb h rfl (by omega) hl hf ho rfl, hr, hd, decodePayload_key,
      endDecode_setWork]

/-- What follows a known length, the masked flag read from MSKF (R105 to R109). -/
theorem afterLength_run (hp10 : p.toNat ≤ 10) {m : Bool} (hm : s.work.mskf = some m) :
    runSteps afterLength s =
      if s.payloadMax.toNat < l.toNat then .next (raise (.framing .lengthRange) s)
      else .next (endDecode s (frameOf f o (decodePayload m l.toNat (b.drop p.toNat)))) := by
  have hr := checkRange_run hl
  split at hr
  · next hlt => rw [afterLength, runSteps_raise hr, if_pos hlt]
  · next hlt =>
    rw [afterLength, runSteps_go hr hb, if_neg hlt]
    cases m with
    | false =>
      have hk : readKeyIfMasked s = .next s := by rw [readKeyIfMasked, hm]; rfl
      have hc : readPayload s = clearPayload s := by rw [readPayload, hm]; rfl
      rw [runSteps_go hk hb, ← clearTail_run hb h hp hpb hl hf ho, checkExtent_run hb h hp hl hpb,
        checkExtent_run hb h hp hl hpb, runSteps_congr hc]
    | true =>
      have hk : readKeyIfMasked s = runSteps keySteps s := by rw [readKeyIfMasked, hm]; rfl
      rw [runSteps_nested hb hk, ← maskedTail_run hb h hp hpb hl hf ho hp10]
      by_cases hs : b.length < p.toNat + 4
      · rw [keySteps_short h hp hs, keySteps_short h hp hs]
      · obtain ⟨k0, k1, k2, k3, r, hd⟩ := four_bytes (r := b.drop p.toNat) (by rw [List.length_drop]; omega)
        have hp4 : (p + 4#64).toNat = p.toNat + 4 := by
          rw [BitVec.toNat_add, BitVec.toNat_ofNat]
          omega
        have hc : readPayload (setWork { s.work with keyw := some (Key.mk k0 k1 k2 k3), pos := some (p + 4#64) } s) =
            unmaskPayload (setWork { s.work with keyw := some (Key.mk k0 k1 k2 k3), pos := some (p + 4#64) } s) := by
          rw [readPayload, setWork_work, hm]
          rfl
        rw [keySteps_run hb h hp hd, keySteps_run hb h hp hd,
          checkExtent_run (s := setWork { s.work with keyw := some (Key.mk k0 k1 k2 k3), pos := some (p + 4#64) } s)
            (p := p + 4#64) hb h rfl hl (by omega),
          checkExtent_run (s := setWork { s.work with keyw := some (Key.mk k0 k1 k2 k3), pos := some (p + 4#64) } s)
            (p := p + 4#64) hb h rfl hl (by omega), runSteps_congr hc]

end

/-! ### After the header word is unpacked -/

/-- Step 1 is done: the header word `hd` is unpacked, POS is 2 and the input bytes are `b` (R101). -/
structure Unpacked (s : State) (b : List Byte) (hd : BitVec 16) : Prop where
  busy : s.ph = .busy
  input : s.inputBytes = some b
  two : 2 ≤ b.length
  pos : s.work.pos = some 2#64
  fin : s.work.fin = some (hdrFin hd)
  rsv1 : s.work.rsv1 = some (hdrRsv1 hd)
  rsv2 : s.work.rsv2 = some (hdrRsv2 hd)
  rsv3 : s.work.rsv3 = some (hdrRsv3 hd)
  opc : s.work.opc = some (hdrOpcode hd)
  mskf : s.work.mskf = some (hdrMask hd)
  base : s.work.base = some (hdrBase hd)

/-- The state right after step 1. -/
def afterUnpack (hd : BitVec 16) (s : State) : State :=
  setWork { (({ s.work with pos := some 0#64 } : Work).unpack hd) with pos := some 2#64 } s

theorem afterUnpack_unpacked {s : State} {b : List Byte} (hb : s.ph = .busy) (h : s.inputBytes = some b)
    (h2 : 2 ≤ b.length) (hd : BitVec 16) : Unpacked (afterUnpack hd s) b hd :=
  { busy := hb, input := h, two := h2, pos := rfl, fin := rfl, rsv1 := rfl, rsv2 := rfl, rsv3 := rfl,
    opc := rfl, mskf := rfl, base := rfl }

/-- A header row runs its steps after step 1, once two bytes are there (R101, R107). -/
theorem withHeader_run {s : State} {b : List Byte} (hb : s.ph = .busy) (h : s.inputBytes = some b)
    (hd : BitVec 16) (steps : List Action) :
    withHeader hd steps s =
      if b.length < 2 then .next (raise (.framing .shortHeader) s) else runSteps steps (afterUnpack hd s) := by
  rw [withHeader, operation_busy hb, List.append_assoc, beforeHeader_run hb h]
  split
  · rfl
  · exact runSteps_go rfl hb

/-- DECODE is the row machinery on the header word in IBUF (R35, R109). -/
theorem execDecode_run {s : State} {b : List Byte} (hb : s.ph = .busy) (h : s.inputBytes = some b) :
    execDecode s =
      match b with
      | x :: y :: _ => runSteps (legalitySteps ++ afterOpcode) (afterUnpack (be16 x y) s)
      | _ => .next (raise (.framing .shortHeader) s) := by
  rw [execDecode, operation_busy hb, List.append_assoc, List.append_assoc, beforeHeader_run hb h]
  match b, h with
  | [], _ | [_], _ => rfl
  | x :: y :: r, h =>
    rw [if_neg (by simp), List.cons_append, List.nil_append]
    refine runSteps_go ?_ hb
    exact fetchHeader_run (s := setWork { s.work with pos := some 0 } s) h (by simp)

/-- Step 4 has set LEN to `l` and POS to `p`, the offset after the length field (R104). -/
structure Sized (s : State) (b : List Byte) (hd : BitVec 16) (p l : BitVec 64) : Prop where
  busy : s.ph = .busy
  input : s.inputBytes = some b
  pos : s.work.pos = some p
  small : p.toNat ≤ 10
  inside : p.toNat ≤ b.length
  len : s.work.len = some l
  fin : s.work.fin = some (hdrFin hd)
  opc : s.work.opc = some (hdrOpcode hd)
  mskf : s.work.mskf = some (hdrMask hd)

/-- What every way of finishing after step 4 comes to (R105 to R109). -/
abbrev finishes (steps : List Action) (s : State) (b : List Byte) (hd : BitVec 16) (p l : BitVec 64) : Prop :=
  runSteps steps s = .next (endDecode s (decodeAfterLength s.payloadMax.toNat hd l.toNat (b.drop p.toNat)))

section
variable {s : State} {b : List Byte} {hd : BitVec 16} {p l : BitVec 64} (hz : Sized s b hd p l)
include hz

/-- The range check comes first (R107). -/
theorem Sized.range {rest : List Action}
    (h : runSteps rest s = .next (endDecode s
      (frameOf (hdrFin hd) (hdrOpcode hd) (decodePayload (hdrMask hd) l.toNat (b.drop p.toNat))))) :
    finishes (checkRange :: rest) s b hd p l := by
  have hr := checkRange_run hz.len
  split at hr
  · next hlt => rw [finishes, runSteps_raise hr, decodeAfterLength, if_pos hlt]; rfl
  · next hlt => rw [finishes, runSteps_go hr hz.busy, h, decodeAfterLength_inRange hlt]

/-- The masked flag is read from MSKF. -/
theorem Sized.runAfterLength : finishes afterLength s b hd p l := by
  rw [finishes, afterLength_run hz.busy hz.input hz.pos hz.inside hz.len hz.fin hz.opc hz.small hz.mskf]
  split
  · next hlt => rw [decodeAfterLength, if_pos hlt]; rfl
  · next hlt => rw [decodeAfterLength_inRange hlt]

/-- The masked flag is known to be 0. -/
theorem Sized.runClear (hm : hdrMask hd = false) : finishes [checkRange, checkExtent, clearPayload, deliver] s b hd p l :=
  hz.range (by rw [hm]; exact clearTail_run hz.busy hz.input hz.pos hz.inside hz.len hz.fin hz.opc)

/-- The masked flag is known to be 1. -/
theorem Sized.runMasked (hm : hdrMask hd = true) :
    finishes (checkRange :: (keySteps ++ [checkExtent, unmaskPayload, deliver])) s b hd p l :=
  hz.range (by rw [hm]; exact maskedTail_run hz.busy hz.input hz.pos hz.inside hz.len hz.fin hz.opc hz.small)

/-- The masked flag is known to be 1 and the key is known. -/
theorem Sized.runKeyed (hm : hdrMask hd = true) {k : Key} {r : List Byte} (hk : b.drop p.toNat = k.bytes ++ r) :
    finishes (checkRange :: (keyGiven k ++ [checkExtent, unmaskPayload, deliver])) s b hd p l := by
  refine hz.range ?_
  have h4 : p.toNat + 4 ≤ b.length := by
    have := congrArg List.length hk
    simp only [List.length_drop, List.length_append, Key.bytes, List.length_cons, List.length_nil] at this
    omega
  have hr : requireKey s = requireInput (p.toNat + 4) .shortKey s := by rw [requireKey, hz.pos, need_some]
  rw [requireInput_run hz.input, if_neg (by omega)] at hr
  have hg : setKey k s = .next (setWork { s.work with keyw := some k, pos := some (p + 4#64) } s) := by
    rw [setKey, hz.pos, need_some]
  rw [hm, ← maskedTail_run hz.busy hz.input hz.pos hz.inside hz.len hz.fin hz.opc hz.small,
    keySteps_run hz.busy hz.input hz.pos hk, keyGiven, List.cons_append, List.cons_append, List.nil_append,
    runSteps_go hr hz.busy, runSteps_go hg hz.busy]

end

section
variable {s : State} {b : List Byte} {hd : BitVec 16} (hu : Unpacked s b hd)
include hu

/-- Step 4, one-byte tier (R104). -/
theorem Unpacked.length7 {rest : List Action}
    (h : ∀ t, Sized t b hd 2 ((hdrBase hd).zeroExtend 64) → finishes rest t b hd 2 ((hdrBase hd).zeroExtend 64)) :
    runSteps (lengthFromBase :: rest) s =
      .next (endDecode s (decodeAfterLength s.payloadMax.toNat hd (hdrBase hd).toNat (b.drop 2))) := by
  have hread : lengthFromBase s = .next (setWork { s.work with len := some ((hdrBase hd).zeroExtend 64) } s) := by
    rw [lengthFromBase, hu.base, need_some]
  rw [runSteps_go hread hu.busy, h (setWork { s.work with len := some ((hdrBase hd).zeroExtend 64) } s)
    ⟨hu.busy, hu.input, hu.pos, by decide, hu.two, rfl, hu.fin, hu.opc, hu.mskf⟩, endDecode_setWork]
  have hlt := (hdrBase hd).isLt
  simp [Nat.mod_eq_of_lt (show (hdrBase hd).toNat < 18446744073709551616 by omega)]

/-- Step 4, 16-bit tier, the length taken from the instruction (R56, R104). -/
theorem Unpacked.ext16 {rest : List Action} {e : BitVec 16} (h4 : 4 ≤ b.length)
    (h : ∀ t, Sized t b hd 4 (e.zeroExtend 64) → finishes rest t b hd 4 (e.zeroExtend 64)) :
    runSteps (ext16Given e ++ rest) s =
      .next (endDecode s (decodeAfterLength s.payloadMax.toNat hd e.toNat (b.drop 4))) := by
  have hr := requireInput_run hu.input 4 .shortExtLen
  rw [if_neg (by omega)] at hr
  have hread : setLength16 e s =
      .next (setWork { s.work with len := some (e.zeroExtend 64), pos := some 4 } s) := rfl
  rw [ext16Given, List.cons_append, List.cons_append, List.nil_append, runSteps_go hr hu.busy,
    runSteps_go hread hu.busy, h (setWork { s.work with len := some (e.zeroExtend 64), pos := some 4 } s)
    ⟨hu.busy, hu.input, rfl, by decide, h4, rfl, hu.fin, hu.opc, hu.mskf⟩, endDecode_setWork]
  have hlt := e.isLt
  simp [Nat.mod_eq_of_lt (show e.toNat < 18446744073709551616 by omega)]

/-- Step 4, 64-bit tier, the length taken from the instruction (R57, R104). -/
theorem Unpacked.ext64 {rest : List Action} {e : BitVec 64} (h10 : 10 ≤ b.length)
    (h : ∀ t, Sized t b hd 10 e → finishes rest t b hd 10 e) :
    runSteps (ext64Given e ++ rest) s =
      .next (endDecode s (decodeAfterLength s.payloadMax.toNat hd e.toNat (b.drop 10))) := by
  have hr := requireInput_run hu.input 10 .shortExtLen
  rw [if_neg (by omega)] at hr
  have hread : setLength64 (highHalf e) (lowHalf e) s =
      .next (setWork { s.work with
        hi := some (highHalf e), lo := some (lowHalf e), len := some e, pos := some 10 } s) := by
    rw [setLength64, joinHalves_split]
  rw [ext64Given, List.cons_append, List.cons_append, List.nil_append, runSteps_go hr hu.busy,
    runSteps_go hread hu.busy,
    h (setWork { s.work with hi := some (highHalf e), lo := some (lowHalf e), len := some e, pos := some 10 } s)
    ⟨hu.busy, hu.input, rfl, by decide, h10, rfl, hu.fin, hu.opc, hu.mskf⟩, endDecode_setWork]
  rfl

end

/-- Step 4, 16-bit tier (R56, R104). -/
theorem Unpacked.length16 {s : State} {b : List Byte} {hd : BitVec 16} (hu : Unpacked s b hd) {rest : List Action}
    (h : ∀ t l, Sized t b hd 4 l → finishes rest t b hd 4 l) :
    runSteps (lengthStep16 ++ rest) s =
      match b.drop 2 with
      | x :: y :: r => .next (endDecode s (decodeAfterLength s.payloadMax.toNat hd (be16 x y).toNat r))
      | _ => .next (raise (.framing .shortExtLen) s) := by
  have hr := requireInput_run hu.input 4 .shortExtLen
  match b, hu with
  | [], hu => exact absurd hu.two (by simp)
  | [_], hu => exact absurd hu.two (by simp)
  | [_, _], hu => exact runSteps_raise hr
  | [_, _, _], hu => exact runSteps_raise hr
  | a :: c :: x :: y :: r, hu =>
    rw [if_neg (by simp)] at hr
    have hread : readLength16 s = setLength16 (be16 x y) s := by
      rw [readLength16, needField_part hu.input (by simp),
        show List.take 2 (List.drop 2 (a :: c :: x :: y :: r)) = [x, y] from rfl, bigEndian_two]
    have he := hu.ext16 (rest := rest) (e := be16 x y) (by simp) fun t ht => h t _ ht
    rw [ext16Given, List.cons_append, List.cons_append, List.nil_append, runSteps_go hr hu.busy,
      ← runSteps_congr hread] at he
    rw [lengthStep16, List.cons_append, List.cons_append, List.nil_append, runSteps_go hr hu.busy, he]
    rfl

/-- Step 4, 64-bit tier (R57, R104). -/
theorem Unpacked.length64 {s : State} {b : List Byte} {hd : BitVec 16} (hu : Unpacked s b hd) {rest : List Action}
    (h : ∀ t l, Sized t b hd 10 l → finishes rest t b hd 10 l) :
    runSteps (lengthStep64 ++ rest) s =
      match b.drop 2 with
      | c0 :: c1 :: c2 :: c3 :: c4 :: c5 :: c6 :: c7 :: r =>
        .next (endDecode s (decodeAfterLength s.payloadMax.toNat hd
          (joinHalves (be32 c0 c1 c2 c3) (be32 c4 c5 c6 c7)).toNat r))
      | _ => .next (raise (.framing .shortExtLen) s) := by
  have hr := requireInput_run hu.input 10 .shortExtLen
  match b, hu with
  | [], hu => exact absurd hu.two (by simp)
  | [_], hu => exact absurd hu.two (by simp)
  | [_, _], hu => exact runSteps_raise hr
  | [_, _, _], hu => exact runSteps_raise hr
  | [_, _, _, _], hu => exact runSteps_raise hr
  | [_, _, _, _, _], hu => exact runSteps_raise hr
  | [_, _, _, _, _, _], hu => exact runSteps_raise hr
  | [_, _, _, _, _, _, _], hu => exact runSteps_raise hr
  | [_, _, _, _, _, _, _, _], hu => exact runSteps_raise hr
  | [_, _, _, _, _, _, _, _, _], hu => exact runSteps_raise hr
  | a :: c :: c0 :: c1 :: c2 :: c3 :: c4 :: c5 :: c6 :: c7 :: r, hu =>
    rw [if_neg (by simp)] at hr
    have hread : readLength64 s = setLength64 (highHalf (joinHalves (be32 c0 c1 c2 c3) (be32 c4 c5 c6 c7)))
        (lowHalf (joinHalves (be32 c0 c1 c2 c3) (be32 c4 c5 c6 c7))) s := by
      rw [readLength64, needField_part hu.input (by simp), needField_part hu.input (by simp),
        show List.take 4 (List.drop 2 (a :: c :: c0 :: c1 :: c2 :: c3 :: c4 :: c5 :: c6 :: c7 :: r)) =
          [c0, c1, c2, c3] from rfl,
        show List.take 4 (List.drop 6 (a :: c :: c0 :: c1 :: c2 :: c3 :: c4 :: c5 :: c6 :: c7 :: r)) =
          [c4, c5, c6, c7] from rfl, bigEndian_four, bigEndian_four, highHalf_join, lowHalf_join]
    have he := hu.ext64 (rest := rest) (e := joinHalves (be32 c0 c1 c2 c3) (be32 c4 c5 c6 c7)) (by simp)
      fun t ht => h t _ ht
    rw [ext64Given, List.cons_append, List.cons_append, List.nil_append, runSteps_go hr hu.busy,
      ← runSteps_congr hread] at he
    rw [lengthStep64, List.cons_append, List.cons_append, List.nil_append, runSteps_go hr hu.busy, he]
    rfl

/-- Step 4 and any way of finishing (R104 to R109). -/
theorem Unpacked.readLength {s : State} {b : List Byte} {hd : BitVec 16} (hu : Unpacked s b hd)
    {rest : List Action} (h : ∀ t p l, Sized t b hd p l → finishes rest t b hd p l) :
    runSteps (Machine.readLength :: rest) s =
      .next (endDecode s (decodeAfterOpcode s.payloadMax.toNat hd (b.drop 2))) := by
  rw [decodeAfterOpcode.eq_def, decodeLength.eq_def]
  by_cases h1 : hdrBase hd = 126#7
  · have hr : Machine.readLength s = runSteps lengthStep16 s := by
      rw [Machine.readLength, hu.base, need_some, if_pos h1]
    rw [runSteps_nested hu.busy hr, hu.length16 (fun t l => h t 4 l), if_pos h1]
    match b.drop 2 with
    | [] | [_] | _ :: _ :: _ => rfl
  · by_cases h2 : hdrBase hd = 127#7
    · have hr : Machine.readLength s = runSteps lengthStep64 s := by
        rw [Machine.readLength, hu.base, need_some, if_neg h1, if_pos h2]
      rw [runSteps_nested hu.busy hr, hu.length64 (fun t l => h t 10 l), if_neg h1, if_pos h2]
      match b.drop 2 with
      | [] | [_] | [_, _] | [_, _, _] | [_, _, _, _] | [_, _, _, _, _] | [_, _, _, _, _, _]
      | [_, _, _, _, _, _, _] => rfl
      | _ :: _ :: _ :: _ :: _ :: _ :: _ :: _ :: _ => rfl
    · have hr : Machine.readLength s = lengthFromBase s := by
        rw [Machine.readLength, hu.base, need_some, if_neg h1, if_neg h2]
      rw [runSteps_congr hr, hu.length7 (fun t => h t 2 _), if_neg h1, if_neg h2]

/-- Steps 4 to 6 (R104 to R109). -/
theorem Unpacked.runAfterOpcode {s : State} {b : List Byte} {hd : BitVec 16} (hu : Unpacked s b hd) :
    runSteps afterOpcode s = .next (endDecode s (decodeAfterOpcode s.payloadMax.toNat hd (b.drop 2))) :=
  hu.readLength fun _ _ _ hz => hz.runAfterLength

/-- Steps 2 and 3, then any steps (R102, R103). -/
theorem Unpacked.legality {s : State} {b : List Byte} {hd : BitVec 16} (hu : Unpacked s b hd)
    (rest : List Action) :
    runSteps (legalitySteps ++ rest) s =
      match violationOf hd with
      | some v => .next (raise (.violation v) s)
      | none => runSteps rest s :=
  legality_run hu.busy hu.rsv1 hu.rsv2 hu.rsv3 hu.opc rest

end Sys2Proof.Machine
end

