-- ==== Sys2Proof/Laws/Encoding.lean ====
section
/-! SUPPORT. What each step of ENCODE and XFORM does on a state whose operands are known: each appends its bytes
to what OBUF holds (41_encode.md R81 to R89, 43_masking.md R132, R137). -/

namespace Sys2Proof.Machine

/-- OBUF grows at its end (R9). -/
theorem append_run (bs cs : List Byte) (s : State) (h : bs.length < 2 ^ 64) :
    append cs (setOutput bs s) = .next (setOutput (bs ++ cs) s) := by
  rw [append, setOutput_olen, need_some, setOutput_obuf, BitVec.toNat_ofNat, Nat.mod_eq_of_lt h, ofBytes_append,
    BitVec.ofNat_add_ofNat, setOutput, setOutput, List.length_append]

/-- The four key registers (R13). -/
theorem cmdKey_eq_some {s : State} {k : Key} (h : s.cmdKey = some k) :
    s.cmdKey0 = some k.b0 ∧ s.cmdKey1 = some k.b1 ∧ s.cmdKey2 = some k.b2 ∧ s.cmdKey3 = some k.b3 := by
  rw [State.cmdKey] at h
  split at h
  · next h0 h1 h2 h3 => cases h; exact ⟨h0, h1, h2, h3⟩
  · cases h

/-- `KEYW <- CMD_KEY` (R89, R137). -/
theorem loadCmdKey_run {s : State} {k : Key} (h : s.cmdKey = some k) :
    loadCmdKey s = .next (setWork { s.work with keyw := some k } s) := by
  obtain ⟨h0, h1, h2, h3⟩ := cmdKey_eq_some h
  rw [loadCmdKey, needCmdKey, h0, h1, h2, h3]
  rfl

/-- The masking engine on a known key (R132). -/
theorem runMask_run {s : State} {k : Key} (h : s.work.keyw = some k) (d : List Byte) (f : List Byte → Action) :
    runMask d f s = f (transform d k) (setWork { s.work with idx := some (idxAfter 0#2 d) } s) := by
  rw [runMask, h, need_some]

/-- `OBUF <- Transform(IBUF, KEYW)` (R137). -/
theorem transformInput_run {s : State} {b : List Byte} {k : Key} (h : s.inputBytes = some b)
    (hk : s.work.keyw = some k) :
    transformInput s =
      .next (setOutput (transform b k) (setWork { s.work with idx := some (idxAfter 0#2 b) } s)) := by
  rw [transformInput, need_ilen h, BitVec.toNat_ofNat, Nat.mod_eq_of_lt (inputBytes_length_lt h),
    needInput_part h (by omega), List.drop_zero, List.take_length, runMask_run hk]

/-- The start of ENCODE (R89). -/
theorem beginEncode_run {s : State} {p : List Byte} {m : Bool} (h : s.inputBytes = some p)
    (hm : s.cmdHasKey = some m) :
    beginEncode s =
      .next (setOutput [] (setWork { s.work with mskf := some m, len := some (BitVec.ofNat 64 p.length) } s)) := by
  rw [beginEncode, hm, need_some, need_ilen h]

/-- The header byte (R81). -/
theorem emitHeader_run {s : State} {o : BitVec 4} (bs : List Byte) (h : bs.length < 2 ^ 64)
    (ho : s.cmdOpcode = some o) :
    emitHeader (setOutput bs s) = .next (setOutput (bs ++ [headerByte o]) s) := by
  rw [emitHeader, setOutput_cmdOpcode, ho, need_some, append_run _ _ _ h]

/-- The two low bytes of a 64-bit length. -/
theorem bytes16_truncate (v : BitVec 64) : bytes16 (v.truncate 16) = [(v >>> 8).truncate 8, v.truncate 8] := by
  simp only [bytes16, List.cons.injEq, and_true]
  constructor <;> (apply BitVec.eq_of_getLsbD_eq; intro i hi; interval_cases i <;> simp)

/-- The length field (R82 to R86): only the working registers differ beside OBUF and OLEN. -/
theorem emitLength_run {s : State} {m : Bool} {n : Nat} (bs : List Byte) (h : bs.length < 2 ^ 64) (hn : n < 2 ^ 64)
    (hm : s.work.mskf = some m) (hl : s.work.len = some (BitVec.ofNat 64 n)) :
    ∃ w, w.mskf = some m ∧ w.len = s.work.len ∧
      emitLength (setOutput bs s) = .next (setOutput (bs ++ lengthField m n) (setWork w s)) := by
  have ht : (BitVec.ofNat 64 n).toNat = n := by rw [BitVec.toNat_ofNat, Nat.mod_eq_of_lt hn]
  rw [emitLength, setOutput_work, hm, need_some, hl, need_some, ht, lengthField, tierOf]
  by_cases h1 : n ≤ 125
  · refine ⟨{ s.work with base := some ((BitVec.ofNat 64 n).truncate 7) }, hm, hl, ?_⟩
    rw [if_pos h1, if_pos h1, ← setOutput_setWork, append_run _ _ _ h, BitVec.truncate_eq_setWidth,
      BitVec.setWidth_ofNat_of_le (by omega)]
  · by_cases h2 : n ≤ 65535
    · refine ⟨{ s.work with base := some 126#7 }, hm, hl, ?_⟩
      rw [if_neg h1, if_pos h2, if_neg h1, if_pos h2, ← setOutput_setWork, append_run _ _ _ h,
        ← bytes16_truncate, BitVec.truncate_eq_setWidth, BitVec.setWidth_ofNat_of_le (by omega)]
    · refine ⟨{ s.work with
        base := some 127#7, hi := some (highHalf (BitVec.ofNat 64 n)), lo := some (lowHalf (BitVec.ofNat 64 n)) },
        hm, hl, ?_⟩
      rw [if_neg h1, if_neg h2, if_neg h1, if_neg h2, ← setOutput_setWork, append_run _ _ _ h]
      rfl

section
variable {s : State} {p : List Byte} (h : s.inputBytes = some p)
  (hl : s.work.len = some (BitVec.ofNat 64 p.length))
include h hl

/-- The payload in clear (R88). -/
theorem emitPayload_run (bs : List Byte) (hb : bs.length < 2 ^ 64) :
    emitPayload (setOutput bs s) = .next (setOutput (bs ++ p) s) := by
  rw [emitPayload, setOutput_work, hl, need_some, BitVec.toNat_ofNat, Nat.mod_eq_of_lt (inputBytes_length_lt h),
    needInput_part (s := setOutput bs s) h (by omega), List.drop_zero, List.take_length, append_run _ _ _ hb]

/-- The masked payload (R88). -/
theorem emitMaskedPayload_run {k : Key} (hk : s.work.keyw = some k) (bs : List Byte) (hb : bs.length < 2 ^ 64) :
    emitMaskedPayload (setOutput bs s) =
      .next (setOutput (bs ++ transform p k) (setWork { s.work with idx := some (idxAfter 0#2 p) } s)) := by
  rw [emitMaskedPayload, setOutput_work, hl, need_some, BitVec.toNat_ofNat,
    Nat.mod_eq_of_lt (inputBytes_length_lt h), needInput_part (s := setOutput bs s) h (by omega), List.drop_zero,
    List.take_length, runMask_run (s := setOutput bs s) hk, setOutput_work, ← setOutput_setWork, append_run _ _ _ hb]

end

/-- The key in clear (R87). -/
theorem emitKey_run {s : State} {k : Key} (hk : s.work.keyw = some k) (bs : List Byte) (hb : bs.length < 2 ^ 64) :
    emitKey (setOutput bs s) = .next (setOutput (bs ++ k.bytes) s) := by
  rw [emitKey, setOutput_work, hk, need_some, append_run _ _ _ hb]

/-- A length field is 1, 3 or 9 bytes (R54, R90). -/
theorem lengthField_length (m : Bool) (n : Nat) : (lengthField m n).length = lengthFieldSize n := by
  rw [lengthField, lengthFieldSize]
  cases tierOf n <;> rfl

theorem lengthFieldSize_le (n : Nat) : lengthFieldSize n ≤ 9 := by
  rw [lengthFieldSize]
  cases tierOf n <;> simp

end Sys2Proof.Machine
end

