-- ==== Sys2Proof/Laws/Codec.lean ====
section
/-! SUPPORT. What the pure functions of Codec.lean answer, case by case: the length and the key by counting bytes,
the violation of a header word by its fields, and what START's checks leave held. -/

namespace Sys2Proof.Machine

/-! ### Header words -/

/-- The first two bytes of a header word followed by anything. -/
theorem header_front (h : BitVec 16) (r : List Byte) : ∃ x y, bytes16 h ++ r = x :: y :: r ∧ be16 x y = h :=
  ⟨_, _, rfl, be16_bytes16 h⟩

theorem hdrMask_be16 (a c : Byte) : hdrMask (be16 a c) = c.getLsbD 7 := by
  rw [hdrMask_eq]
  simp [be16]

theorem hdrBase_be16 (a c : Byte) : (hdrBase (be16 a c)).toNat = (c &&& 0x7F#8).toNat := by
  have h : hdrBase (be16 a c) = (c &&& 0x7F#8).truncate 7 := by
    apply BitVec.eq_of_getLsbD_eq
    intro i hi
    interval_cases i <;> simp [hdrBase, be16]
  have h7 : ∀ c : Byte, ((c &&& 0x7F#8).truncate 7).toNat = (c &&& 0x7F#8).toNat := by decide
  rw [h, h7]

theorem hdrOpcode_be16 (a c : Byte) : (hdrOpcode (be16 a c)).toNat = (a &&& 0x0F#8).toNat := by
  have h : hdrOpcode (be16 a c) = (a &&& 0x0F#8).truncate 4 := by
    apply BitVec.eq_of_getLsbD_eq
    intro i hi
    interval_cases i <;> simp [hdrOpcode, be16]
  have h4 : ∀ c : Byte, ((c &&& 0x0F#8).truncate 4).toNat = (c &&& 0x0F#8).toNat := by decide
  rw [h, h4]

/-- The violation of a header word, by its reserved bits and its opcode (R102, R103). -/
theorem violationOf_word (f m : Bool) (l : BitVec 7) (o : BitVec 4) (r : BitVec 3) :
    violationOf (hdrWord f r o m l) =
      if r ≠ 0#3 then some .rsvSet
      else
        match opcodeClass o with
        | .accepted => none
        | .reservedNoncontrol => some .reservedNoncontrolOpcode
        | .reservedControl => some .reservedControlOpcode := by
  have hz : hdrWord f r o m l &&& 0x7000#16 = 0#16 ↔ r = 0#3 := by rw [← hdrRsv_zero, hdrRsv_word]
  simp only [violationOf, ne_eq, hz, hdrOpcode_word]
  all_goals
    split
    · rfl
    · cases opcodeClass o <;> rfl

/-! ### Step 4 on byte sequences -/

/-- The declared length, by counting: BASE itself, or the extended length's bytes (R104). -/
def declaredLength (base : BitVec 7) (r : List Byte) : Nat :=
  if extBytes base = 0 then base.toNat else bigEndian (r.take (extBytes base))

theorem joinHalves_toNat (a b c d e f g h : Byte) :
    (joinHalves (be32 a b c d) (be32 e f g h)).toNat = bigEndian [a, b, c, d, e, f, g, h] := by
  have h1 := be32_toNat a b c d
  have h2 := be32_toNat e f g h
  have l1 := (be32 a b c d).isLt
  have l2 := (be32 e f g h).isLt
  have h3 := Nat.shiftLeft_add_eq_or_of_lt (b := (be32 e f g h).toNat) (i := 32) (by omega) (be32 a b c d).toNat
  simp only [joinHalves, BitVec.toNat_or, BitVec.toNat_shiftLeft, BitVec.toNat_setWidth, BitVec.zeroExtend]
  rw [Nat.mod_eq_of_lt (a := (be32 a b c d).toNat) (by omega), Nat.mod_eq_of_lt (a := (be32 e f g h).toNat) (by omega),
    Nat.mod_eq_of_lt (by rw [Nat.shiftLeft_eq]; omega), ← h3, Nat.shiftLeft_eq]
  simp only [bigEndian, List.foldl]
  omega

theorem decodeLength_short {base : BitVec 7} {r : List Byte} (h : r.length < extBytes base) :
    decodeLength base r = .error (.framing .shortExtLen) := by
  rw [decodeLength.eq_def]
  rw [extBytes] at h
  by_cases h1 : base = 126#7
  · rw [if_pos h1] at h ⊢
    match r, h with
    | [], _ | [_], _ => rfl
  · rw [if_neg h1] at h ⊢
    by_cases h2 : base = 127#7
    · rw [if_pos h2] at h ⊢
      match r, h with
      | [], _ | [_], _ | [_, _], _ | [_, _, _], _ | [_, _, _, _], _ | [_, _, _, _, _], _
      | [_, _, _, _, _, _], _ | [_, _, _, _, _, _, _], _ => rfl
    · rw [if_neg h2] at h
      omega

theorem decodeLength_whole {base : BitVec 7} {r : List Byte} (h : extBytes base ≤ r.length) :
    decodeLength base r = .ok (declaredLength base r, r.drop (extBytes base)) := by
  rw [decodeLength.eq_def, declaredLength]
  by_cases h1 : base = 126#7
  · have he : extBytes base = 2 := by rw [extBytes, if_pos h1]
    rw [he] at h ⊢
    match r, h with
    | a :: b :: t, _ =>
      rw [if_pos h1]
      simp only [List.take, List.drop, if_neg (show ¬ 2 = 0 by omega)]
      rw [be16_toNat]
      simp [bigEndian]
  · by_cases h2 : base = 127#7
    · have he : extBytes base = 8 := by rw [extBytes, if_neg h1, if_pos h2]
      rw [he] at h ⊢
      match r, h with
      | a :: b :: _ :: _ :: _ :: _ :: _ :: _ :: t, _ =>
        rw [if_neg h1, if_pos h2]
        simp only [List.take, List.drop, if_neg (show ¬ 8 = 0 by omega)]
        rw [joinHalves_toNat]
    · have he : extBytes base = 0 := by rw [extBytes, if_neg h1, if_neg h2]
      rw [he, if_neg h1, if_neg h2]
      rfl

theorem decodeAfterOpcode_short {n : Nat} {h : BitVec 16} {r : List Byte} (hl : r.length < extBytes (hdrBase h)) :
    decodeAfterOpcode n h r = .error (.framing .shortExtLen) := by
  rw [decodeAfterOpcode, decodeLength_short hl]

theorem decodeAfterOpcode_whole {n : Nat} {h : BitVec 16} {r : List Byte} (hl : extBytes (hdrBase h) ≤ r.length) :
    decodeAfterOpcode n h r =
      decodeAfterLength n h (declaredLength (hdrBase h) r) (r.drop (extBytes (hdrBase h))) := by
  rw [decodeAfterOpcode, decodeLength_whole hl]

/-! ### Step 5 on byte sequences -/

/-- The number of key bytes (R58). -/
def keyBytes (masked : Bool) : Nat := if masked then 4 else 0

/-- The payload in what follows the length field (R105). -/
def payloadOf (masked : Bool) (r : List Byte) : List Byte :=
  if masked then
    match r with
    | k0 :: k1 :: k2 :: k3 :: p => transform p (Key.mk k0 k1 k2 k3)
    | _ => []
  else r

/-- Step 5, case by case in its order (R105 to R107). -/
theorem decodePayload_cases (m : Bool) (l : Nat) (r : List Byte) :
    decodePayload m l r =
      if r.length < keyBytes m then .error (.framing .shortKey)
      else if r.length < keyBytes m + l then .error (.framing .shortPayload)
      else if keyBytes m + l < r.length then .error (.framing .trailingBytes)
      else .ok (payloadOf m r) := by
  cases m with
  | false => simp [decodePayload_clear, exactPayload, keyBytes, payloadOf]
  | true =>
    by_cases h : r.length < 4
    · rw [decodePayload_short h, if_pos (by simpa [keyBytes] using h)]
    · obtain ⟨k0, k1, k2, k3, t, rfl⟩ := four_bytes (r := r) (by omega)
      rw [decodePayload_key, exactPayload]
      simp only [keyBytes, payloadOf, if_true, List.length_cons]
      rw [if_neg (show ¬ t.length + 1 + 1 + 1 + 1 < 4 by omega)]
      by_cases h1 : t.length < l
      · rw [if_pos h1, if_pos (by omega)]
      · by_cases h2 : l < t.length
        · rw [if_neg h1, if_pos h2, if_neg (by omega), if_pos (by omega)]
        · rw [if_neg h1, if_neg h2, if_neg (by omega), if_neg (by omega)]

/-- R108's condition, by counting. -/
theorem wellFramed_iff (n : Nat) (a c : Byte) (r : List Byte) :
    wellFramed n (a :: c :: r) = true ↔
      extBytes (hdrBase (be16 a c)) ≤ r.length ∧ declaredLength (hdrBase (be16 a c)) r ≤ n ∧
      r.length = extBytes (hdrBase (be16 a c)) + keyBytes (hdrMask (be16 a c)) +
        declaredLength (hdrBase (be16 a c)) r := by
  rw [wellFramed]
  generalize be16 a c = h
  by_cases hl : extBytes (hdrBase h) ≤ r.length
  · rw [decodeLength_whole hl]
    simp [hl, keyBytes]
  · rw [decodeLength_short (by omega)]
    simp [hl]

/-! ### What START has checked is there -/

theorem inputProblem_none {s : State} {n : Nat} (h : inputProblem n s = none) :
    ∃ b, s.inputBytes = some b ∧ b.length ≤ n := by
  simp only [inputProblem] at h
  split at h
  · cases h
  · next m hm =>
    split at h
    · cases h
    · split at h
      · next bs hb =>
        have hl := ((readBytes_ok_iff _ _ _ _).mp hb).1
        exact ⟨bs, by simp [State.inputBytes, hm, hb], by omega⟩
      · cases h

theorem inputProblem_held {s : State} {b : List Byte} {n : Nat} (h : s.inputBytes = some b) (hn : b.length ≤ n) :
    inputProblem n s = none := by
  obtain ⟨m, hm, hl, hr⟩ := inputBytes_eq_some h
  simp only [inputProblem, hm, hl, hr]
  rw [if_neg (by omega)]

theorem keyProblem_none {s : State} (h : keyProblem s = none) : ∃ k, s.cmdKey = some k := by
  simp only [keyProblem] at h
  cases h0 : s.cmdKey0 <;> cases h1 : s.cmdKey1 <;> cases h2 : s.cmdKey2 <;> cases h3 : s.cmdKey3 <;>
    simp_all [registerProblem, State.cmdKey]

theorem keyProblem_held {s : State} {k : Key} (h : s.cmdKey = some k) : keyProblem s = none := by
  obtain ⟨h0, h1, h2, h3⟩ := cmdKey_eq_some h
  simp [keyProblem, registerProblem, h0, h1, h2, h3]

end Sys2Proof.Machine
end

