-- ==== Sys2Proof/Laws/Frames.lean ====
section
/-! SUPPORT. The frame of every part of an operation: when it answers a next state, only PH, the results, OBUF,
OLEN and the working registers can differ (10_state.md R24). -/

namespace Sys2Proof.Machine

/-- Everything but PH, the working registers, the results, OBUF and OLEN is as it was. -/
def sameOperands (s t : State) : Prop :=
  ∃ ph work olen obuf status reason fin opcode, t = { s with
    ph := ph, work := work, olen := olen, obuf := obuf, resStatus := status, resReason := reason, resFin := fin,
    resOpcode := opcode }

theorem sameOperands_refl (s : State) : sameOperands s s := ⟨_, _, _, _, _, _, _, _, rfl⟩

theorem sameOperands_trans (s u t : State) (h1 : sameOperands s u) (h2 : sameOperands u t) : sameOperands s t := by
  obtain ⟨_, _, _, _, _, _, _, _, rfl⟩ := h1
  obtain ⟨_, _, _, _, _, _, _, _, rfl⟩ := h2
  exact ⟨_, _, _, _, _, _, _, _, rfl⟩

/-- An action that leaves the operands alone whenever it answers a next state. -/
def Framed (f : Action) : Prop := ∀ s t, f s = .next t → sameOperands s t

/-! ### Ways to build one -/

theorem framed_next {g : State → State} (h : ∀ s, sameOperands s (g s)) : Framed (fun s => .next (g s)) := by
  intro s t e
  cases e
  exact h s

theorem framed_runSteps {fs : List Action} (h : ∀ f ∈ fs, Framed f) : Framed (runSteps fs) :=
  fun _ _ e => runSteps_keeps sameOperands_refl sameOperands_trans h e

theorem framed_operation {fs : List Action} (h : ∀ f ∈ fs, Framed f) : Framed (operation fs) :=
  fun s t e => framed_runSteps h s t (operation_next e).2

theorem framed_setWork {f : Action} (hf : Framed f) (w : Work) {s t : State} (h : f (setWork w s) = .next t) :
    sameOperands s t :=
  sameOperands_trans s (setWork w s) t ⟨_, _, _, _, _, _, _, _, rfl⟩ (hf _ t h)

theorem needInput_next {s : State} {a n : Nat} {k : List Byte → Result} {t : State}
    (h : needInput s a n k = .next t) : ∃ d, k d = .next t := by
  rw [needInput] at h
  split at h
  · exact ⟨_, h⟩
  · cases h

theorem needField_next {s : State} {a n : Nat} {k : Nat → Result} {t : State}
    (h : needField s a n k = .next t) : ∃ v, k v = .next t := by
  rw [needField] at h
  split at h
  · exact ⟨_, h⟩
  · cases h

theorem needRemaining_next {s : State} {k : List Byte → Result} {t : State} (h : needRemaining s k = .next t) :
    ∃ d, k d = .next t := by
  obtain ⟨_, -, h⟩ := need_next h
  obtain ⟨_, -, h⟩ := need_next h
  exact needInput_next h

/-! ### Every part of the three operations -/

theorem framed_raiseStep (f : Failure) : Framed (raiseStep f) :=
  framed_next fun _ => ⟨_, _, _, _, _, _, _, _, rfl⟩

theorem framed_finishStep : Framed finishStep := framed_next fun _ => ⟨_, _, _, _, _, _, _, _, rfl⟩

theorem framed_append (bs : List Byte) : Framed (append bs) := by
  intro s t h
  obtain ⟨_, -, h⟩ := need_next h
  cases h
  exact ⟨_, _, _, _, _, _, _, _, rfl⟩

theorem framed_setOutput (bs : List Byte) : Framed (fun s => .next (setOutput bs s)) :=
  framed_next fun _ => ⟨_, _, _, _, _, _, _, _, rfl⟩

theorem framed_runMask (d : List Byte) {k : List Byte → Action} (h : ∀ o, Framed (k o)) : Framed (runMask d k) := by
  intro s t e
  obtain ⟨_, -, e⟩ := need_next e
  exact framed_setWork (h _) _ e

theorem framed_loadCmdKey : Framed loadCmdKey := by
  intro s t h
  obtain ⟨_, -, h⟩ := need_next h
  obtain ⟨_, -, h⟩ := need_next h
  obtain ⟨_, -, h⟩ := need_next h
  obtain ⟨_, -, h⟩ := need_next h
  cases h
  exact ⟨_, _, _, _, _, _, _, _, rfl⟩

theorem framed_transformInput : Framed transformInput := by
  intro s t h
  obtain ⟨_, -, h⟩ := need_next h
  obtain ⟨d, h⟩ := needInput_next h
  exact framed_runMask d framed_setOutput s t h

theorem framed_beginEncode : Framed beginEncode := by
  intro s t h
  obtain ⟨_, -, h⟩ := need_next h
  obtain ⟨_, -, h⟩ := need_next h
  cases h
  exact ⟨_, _, _, _, _, _, _, _, rfl⟩

theorem framed_emitHeader : Framed emitHeader := by
  intro s t h
  obtain ⟨_, -, h⟩ := need_next h
  exact framed_append _ s t h

theorem framed_emitLength : Framed emitLength := by
  intro s t h
  obtain ⟨_, -, h⟩ := need_next h
  obtain ⟨_, -, h⟩ := need_next h
  split at h
  · exact framed_setWork (framed_append _) _ h
  · split at h
    · exact framed_setWork (framed_append _) _ h
    · exact framed_setWork (framed_append _) _ h

theorem framed_emitKey : Framed emitKey := by
  intro s t h
  obtain ⟨_, -, h⟩ := need_next h
  exact framed_append _ s t h

theorem framed_emitPayload : Framed emitPayload := by
  intro s t h
  obtain ⟨_, -, h⟩ := need_next h
  obtain ⟨_, h⟩ := needInput_next h
  exact framed_append _ s t h

theorem framed_emitMaskedPayload : Framed emitMaskedPayload := by
  intro s t h
  obtain ⟨_, -, h⟩ := need_next h
  obtain ⟨d, h⟩ := needInput_next h
  exact framed_runMask d framed_append s t h

theorem framed_emitBody : Framed emitBody := by
  intro s t h
  obtain ⟨_, -, h⟩ := need_next h
  split at h
  · exact framed_runSteps (by simp [framed_loadCmdKey, framed_emitKey, framed_emitMaskedPayload]) s t h
  · exact framed_emitPayload s t h

theorem framed_startCursor : Framed startCursor := framed_next fun _ => ⟨_, _, _, _, _, _, _, _, rfl⟩

theorem framed_requireInput (n : Nat) (f : Framing) : Framed (requireInput n f) := by
  intro s t h
  obtain ⟨_, -, h⟩ := need_next h
  split at h <;> cases h <;> exact ⟨_, _, _, _, _, _, _, _, rfl⟩

theorem framed_unpackHeader (h : BitVec 16) : Framed (unpackHeader h) :=
  framed_next fun _ => ⟨_, _, _, _, _, _, _, _, rfl⟩

theorem framed_fetchHeader : Framed fetchHeader := by
  intro s t h
  obtain ⟨_, h⟩ := needField_next h
  exact framed_unpackHeader _ s t h

theorem framed_checkReserved : Framed checkReserved := by
  intro s t h
  obtain ⟨_, -, h⟩ := need_next h
  obtain ⟨_, -, h⟩ := need_next h
  obtain ⟨_, -, h⟩ := need_next h
  split at h <;> cases h <;> exact ⟨_, _, _, _, _, _, _, _, rfl⟩

theorem framed_checkOpcode : Framed checkOpcode := by
  intro s t h
  obtain ⟨_, -, h⟩ := need_next h
  split at h <;> cases h <;> exact ⟨_, _, _, _, _, _, _, _, rfl⟩

theorem framed_lengthFromBase : Framed lengthFromBase := by
  intro s t h
  obtain ⟨_, -, h⟩ := need_next h
  cases h
  exact ⟨_, _, _, _, _, _, _, _, rfl⟩

theorem framed_setLength16 (e : BitVec 16) : Framed (setLength16 e) :=
  framed_next fun _ => ⟨_, _, _, _, _, _, _, _, rfl⟩

theorem framed_setLength64 (hi lo : BitVec 32) : Framed (setLength64 hi lo) :=
  framed_next fun _ => ⟨_, _, _, _, _, _, _, _, rfl⟩

theorem framed_readLength16 : Framed readLength16 := by
  intro s t h
  obtain ⟨_, h⟩ := needField_next h
  exact framed_setLength16 _ s t h

theorem framed_readLength64 : Framed readLength64 := by
  intro s t h
  obtain ⟨_, h⟩ := needField_next h
  obtain ⟨_, h⟩ := needField_next h
  exact framed_setLength64 _ _ s t h

theorem framed_readLength : Framed readLength := by
  intro s t h
  obtain ⟨_, -, h⟩ := need_next h
  split at h
  · exact framed_runSteps (fs := lengthStep16)
      (by simp [lengthStep16, framed_requireInput, framed_readLength16]) s t h
  · split at h
    · exact framed_runSteps (fs := lengthStep64)
        (by simp [lengthStep64, framed_requireInput, framed_readLength64]) s t h
    · exact framed_lengthFromBase s t h

theorem framed_checkRange : Framed checkRange := by
  intro s t h
  obtain ⟨_, -, h⟩ := need_next h
  split at h <;> cases h <;> exact ⟨_, _, _, _, _, _, _, _, rfl⟩

theorem framed_requireKey : Framed requireKey := by
  intro s t h
  obtain ⟨_, -, h⟩ := need_next h
  exact framed_requireInput _ _ s t h

theorem framed_setKey (k : Key) : Framed (setKey k) := by
  intro s t h
  obtain ⟨_, -, h⟩ := need_next h
  cases h
  exact ⟨_, _, _, _, _, _, _, _, rfl⟩

theorem framed_readKey : Framed readKey := by
  intro s t h
  obtain ⟨_, -, h⟩ := need_next h
  obtain ⟨_, -, h⟩ := need_next h
  obtain ⟨_, -, h⟩ := need_next h
  obtain ⟨_, -, h⟩ := need_next h
  obtain ⟨_, -, h⟩ := need_next h
  exact framed_setKey _ s t h

theorem framed_readKeyIfMasked : Framed readKeyIfMasked := by
  intro s t h
  obtain ⟨_, -, h⟩ := need_next h
  split at h
  · exact framed_runSteps (fs := keySteps) (by simp [keySteps, framed_requireKey, framed_readKey]) s t h
  · cases h
    exact sameOperands_refl _

theorem framed_checkExtent : Framed checkExtent := by
  intro s t h
  obtain ⟨_, -, h⟩ := need_next h
  obtain ⟨_, -, h⟩ := need_next h
  obtain ⟨_, -, h⟩ := need_next h
  split at h
  · cases h
    exact ⟨_, _, _, _, _, _, _, _, rfl⟩
  · split at h <;> cases h <;> exact ⟨_, _, _, _, _, _, _, _, rfl⟩

theorem framed_clearPayload : Framed clearPayload := by
  intro s t h
  obtain ⟨_, h⟩ := needRemaining_next h
  exact framed_setOutput _ s t h

theorem framed_unmaskPayload : Framed unmaskPayload := by
  intro s t h
  obtain ⟨d, h⟩ := needRemaining_next h
  exact framed_runMask d framed_setOutput s t h

theorem framed_readPayload : Framed readPayload := by
  intro s t h
  obtain ⟨_, -, h⟩ := need_next h
  split at h
  · exact framed_unmaskPayload s t h
  · exact framed_clearPayload s t h

theorem framed_deliver : Framed deliver := by
  intro s t h
  obtain ⟨_, -, h⟩ := need_next h
  obtain ⟨_, -, h⟩ := need_next h
  obtain ⟨_, -, h⟩ := need_next h
  cases h
  exact ⟨_, _, _, _, _, _, _, _, rfl⟩

end Sys2Proof.Machine
end

