-- ==== Sys2Proof/Laws/PerInstr.lean ====
section
/-! SUPPORT. Decoding gives an encoded well-formed instruction back, one lemma per constructor (family
`RoundTrip`). The words themselves are read against the spec in Tests/Slice0.lean. -/

namespace Sys2Proof

/-! ### Decoding a header word's two bytes, group by group -/

section
variable (v : BitVec 16) (rest : List Byte)

theorem decodeIn_rsv1 : decodeIn .rsv1 (bytes16 v ++ rest) = withRest rest (decodeRsv1 v) := by
  rw [bytes16, List.cons_append, List.cons_append, List.nil_append, decodeIn, be16_bytes16]

theorem decodeIn_rsv2 : decodeIn .rsv2 (bytes16 v ++ rest) = withRest rest (decodeRsv2 v) := by
  rw [bytes16, List.cons_append, List.cons_append, List.nil_append, decodeIn, be16_bytes16]

theorem decodeIn_rsv3 : decodeIn .rsv3 (bytes16 v ++ rest) = withRest rest (decodeRsv3 v) := by
  rw [bytes16, List.cons_append, List.cons_append, List.nil_append, decodeIn, be16_bytes16]

theorem decodeIn_opcode : decodeIn .opcode (bytes16 v ++ rest) = withRest rest (decodeOpcodeRow v) := by
  rw [bytes16, List.cons_append, List.cons_append, List.nil_append, decodeIn, be16_bytes16]

theorem decodeIn_fin : decodeIn .fin (bytes16 v ++ rest) = .ok (decodeFin v, rest) := by
  rw [bytes16, List.cons_append, List.cons_append, List.nil_append, decodeIn, be16_bytes16]

theorem decodeIn_mask : decodeIn .mask (bytes16 v ++ rest) = .ok (decodeMask v, rest) := by
  rw [bytes16, List.cons_append, List.cons_append, List.nil_append, decodeIn, be16_bytes16]

theorem decodeIn_tier : decodeIn .tier (bytes16 v ++ rest) = .ok (decodeTier v, rest) := by
  rw [bytes16, List.cons_append, List.cons_append, List.nil_append, decodeIn, be16_bytes16]

theorem decodeIn_format : decodeIn .format (bytes16 v ++ rest) = decodeFormat v rest := by
  rw [bytes16, List.cons_append, List.cons_append, List.nil_append, decodeIn, be16_bytes16]

theorem decodeHeader_bytes16 : decodeHeader (bytes16 v ++ rest) = .ok (decodeLegality v, rest) := by
  rw [bytes16, List.cons_append, List.cons_append, List.nil_append, decodeHeader, be16_bytes16]

end

/-! ### The parts of a header after its word -/

@[simp] theorem takeKey_bytes (k : Key) (rest : List Byte) : takeKey (k.bytes ++ rest) = .ok (k, rest) := rfl

@[simp] theorem takeExt16_bytes (e : BitVec 16) (rest : List Byte) :
    takeExt16 (bytes16 e ++ rest) = .ok (e, rest) := by
  rw [bytes16, List.cons_append, List.cons_append, List.nil_append, takeExt16, be16_bytes16]

@[simp] theorem takeExt64_bytes (e : BitVec 64) (rest : List Byte) :
    takeExt64 (bytes64 e ++ rest) = .ok (e, rest) := by
  simp only [bytes64, bytes32, List.cons_append, List.nil_append, takeExt64]
  rw [be32_bytes32, be32_bytes32, joinHalves_split]

/-- A direct base length is neither marker. -/
theorem directBase_ne {l : BitVec 7} (h : directBase l = true) : l ≠ 126#7 ∧ l ≠ 127#7 := by
  rw [directBase, decide_eq_true_eq] at h
  constructor <;> rintro rfl <;> simp at h

/-- The opcode row of a word with reserved bits 0. -/
theorem decodeOpcodeRow_word (o : BitVec 4) (f m : Bool) (l : BitVec 7) :
    decodeOpcodeRow (hdrWord f 0#3 o m l) = .ok (decodeOpcode (hdrWord f 0#3 o m l)) := by
  rw [decodeOpcodeRow, if_pos (word_reserved_zero f o m l)]

namespace Laws.RoundTrip

/-- A well-formed instruction's bytes, whatever follows them, decode within its group to it and to what
follows. -/
def Statement (i : Instr) : Prop :=
  i.wellFormed = true → ∀ rest, decodeIn i.group (encode i ++ rest) = .ok (i, rest)

theorem encode : Statement .encode := fun _ _ => rfl
theorem decode : Statement .decode := fun _ _ => rfl
theorem xform : Statement .xform := fun _ _ => rfl
theorem cmdReserved : Statement .cmdReserved := fun _ _ => rfl

/-- The opcode rows, all in one shape. -/
theorem opcode_row {i : Instr} {o : BitVec 4} {f m : Bool} {l : BitVec 7} (hg : i.group = .opcode)
    (he : Sys2Proof.encode i = bytes16 (hdrWord f 0#3 o m l)) (hd : decodeOpcode (hdrWord f 0#3 o m l) = i) :
    Statement i := by
  intro _ rest
  rw [hg, he, decodeIn_opcode, decodeOpcodeRow_word, hd, withRest]

theorem cont (fin mask : Bool) (base : BitVec 7) : Statement (.cont fin mask base) :=
  opcode_row rfl rfl (by simp [decodeOpcode])
theorem text (fin mask : Bool) (base : BitVec 7) : Statement (.text fin mask base) :=
  opcode_row rfl rfl (by simp [decodeOpcode])
theorem bin (fin mask : Bool) (base : BitVec 7) : Statement (.bin fin mask base) :=
  opcode_row rfl rfl (by simp [decodeOpcode])
theorem rsvnc3 (fin mask : Bool) (base : BitVec 7) : Statement (.rsvnc3 fin mask base) :=
  opcode_row rfl rfl (by simp [decodeOpcode])
theorem rsvnc4 (fin mask : Bool) (base : BitVec 7) : Statement (.rsvnc4 fin mask base) :=
  opcode_row rfl rfl (by simp [decodeOpcode])
theorem rsvnc5 (fin mask : Bool) (base : BitVec 7) : Statement (.rsvnc5 fin mask base) :=
  opcode_row rfl rfl (by simp [decodeOpcode])
theorem rsvnc6 (fin mask : Bool) (base : BitVec 7) : Statement (.rsvnc6 fin mask base) :=
  opcode_row rfl rfl (by simp [decodeOpcode])
theorem rsvnc7 (fin mask : Bool) (base : BitVec 7) : Statement (.rsvnc7 fin mask base) :=
  opcode_row rfl rfl (by simp [decodeOpcode])
theorem close (fin mask : Bool) (base : BitVec 7) : Statement (.close fin mask base) :=
  opcode_row rfl rfl (by simp [decodeOpcode])
theorem ping (fin mask : Bool) (base : BitVec 7) : Statement (.ping fin mask base) :=
  opcode_row rfl rfl (by simp [decodeOpcode])
theorem pong (fin mask : Bool) (base : BitVec 7) : Statement (.pong fin mask base) :=
  opcode_row rfl rfl (by simp [decodeOpcode])
theorem rsvc11 (fin mask : Bool) (base : BitVec 7) : Statement (.rsvc11 fin mask base) :=
  opcode_row rfl rfl (by simp [decodeOpcode])
theorem rsvc12 (fin mask : Bool) (base : BitVec 7) : Statement (.rsvc12 fin mask base) :=
  opcode_row rfl rfl (by simp [decodeOpcode])
theorem rsvc13 (fin mask : Bool) (base : BitVec 7) : Statement (.rsvc13 fin mask base) :=
  opcode_row rfl rfl (by simp [decodeOpcode])
theorem rsvc14 (fin mask : Bool) (base : BitVec 7) : Statement (.rsvc14 fin mask base) :=
  opcode_row rfl rfl (by simp [decodeOpcode])
theorem rsvc15 (fin mask : Bool) (base : BitVec 7) : Statement (.rsvc15 fin mask base) :=
  opcode_row rfl rfl (by simp [decodeOpcode])

theorem rsv1Set (fin rsv2 rsv3 : Bool) (opcode : BitVec 4) (mask : Bool) (base : BitVec 7) :
    Statement (.rsv1Set fin rsv2 rsv3 opcode mask base) := by
  intro _ rest
  rw [Sys2Proof.encode, Instr.group, decodeIn_rsv1]
  simp [decodeRsv1, withRest]

theorem rsv2Set (fin rsv1 rsv3 : Bool) (opcode : BitVec 4) (mask : Bool) (base : BitVec 7) :
    Statement (.rsv2Set fin rsv1 rsv3 opcode mask base) := by
  intro _ rest
  rw [Sys2Proof.encode, Instr.group, decodeIn_rsv2]
  simp [decodeRsv2, withRest]

theorem rsv3Set (fin rsv1 rsv2 : Bool) (opcode : BitVec 4) (mask : Bool) (base : BitVec 7) :
    Statement (.rsv3Set fin rsv1 rsv2 opcode mask base) := by
  intro _ rest
  rw [Sys2Proof.encode, Instr.group, decodeIn_rsv3]
  simp [decodeRsv3, withRest]

theorem finSet (rsv : BitVec 3) (opcode : BitVec 4) (mask : Bool) (base : BitVec 7) :
    Statement (.finSet rsv opcode mask base) := by
  intro _ rest
  rw [Sys2Proof.encode, Instr.group, decodeIn_fin]
  simp [decodeFin]

theorem finClear (rsv : BitVec 3) (opcode : BitVec 4) (mask : Bool) (base : BitVec 7) :
    Statement (.finClear rsv opcode mask base) := by
  intro _ rest
  rw [Sys2Proof.encode, Instr.group, decodeIn_fin]
  simp [decodeFin]

theorem masked (fin : Bool) (rsv : BitVec 3) (opcode : BitVec 4) (base : BitVec 7) :
    Statement (.masked fin rsv opcode base) := by
  intro _ rest
  rw [Sys2Proof.encode, Instr.group, decodeIn_mask]
  simp [decodeMask]

theorem unmasked (fin : Bool) (rsv : BitVec 3) (opcode : BitVec 4) (base : BitVec 7) :
    Statement (.unmasked fin rsv opcode base) := by
  intro _ rest
  rw [Sys2Proof.encode, Instr.group, decodeIn_mask]
  simp [decodeMask]

theorem len7 (fin : Bool) (rsv : BitVec 3) (opcode : BitVec 4) (mask : Bool) (base : BitVec 7) :
    Statement (.len7 fin rsv opcode mask base) := by
  intro h rest
  obtain ⟨h1, h2⟩ := directBase_ne h
  rw [Sys2Proof.encode, Instr.group, decodeIn_tier]
  simp [decodeTier, h1, h2]

theorem len16 (fin : Bool) (rsv : BitVec 3) (opcode : BitVec 4) (mask : Bool) :
    Statement (.len16 fin rsv opcode mask) := by
  intro _ rest
  rw [Sys2Proof.encode, Instr.group, decodeIn_tier]
  simp [decodeTier]

theorem len64 (fin : Bool) (rsv : BitVec 3) (opcode : BitVec 4) (mask : Bool) :
    Statement (.len64 fin rsv opcode mask) := by
  intro _ rest
  rw [Sys2Proof.encode, Instr.group, decodeIn_tier]
  simp [decodeTier]

theorem f7u (fin : Bool) (rsv : BitVec 3) (opcode : BitVec 4) (base : BitVec 7) :
    Statement (.f7u fin rsv opcode base) := by
  intro h rest
  obtain ⟨h1, h2⟩ := directBase_ne h
  rw [Sys2Proof.encode, Instr.group, decodeIn_format]
  simp [decodeFormat, h1, h2]

theorem f7m (fin : Bool) (rsv : BitVec 3) (opcode : BitVec 4) (base : BitVec 7) (key : Key) :
    Statement (.f7m fin rsv opcode base key) := by
  intro h rest
  obtain ⟨h1, h2⟩ := directBase_ne h
  rw [Sys2Proof.encode, Instr.group, List.append_assoc, decodeIn_format]
  simp [decodeFormat, h1, h2]

theorem f16u (fin : Bool) (rsv : BitVec 3) (opcode : BitVec 4) (ext : BitVec 16) :
    Statement (.f16u fin rsv opcode ext) := by
  intro _ rest
  rw [Sys2Proof.encode, Instr.group, List.append_assoc, decodeIn_format]
  simp [decodeFormat]

theorem f16m (fin : Bool) (rsv : BitVec 3) (opcode : BitVec 4) (ext : BitVec 16) (key : Key) :
    Statement (.f16m fin rsv opcode ext key) := by
  intro _ rest
  rw [Sys2Proof.encode, Instr.group, List.append_assoc, List.append_assoc, decodeIn_format]
  simp [decodeFormat]

theorem f64u (fin : Bool) (rsv : BitVec 3) (opcode : BitVec 4) (ext : BitVec 64) :
    Statement (.f64u fin rsv opcode ext) := by
  intro _ rest
  rw [Sys2Proof.encode, Instr.group, List.append_assoc, decodeIn_format]
  simp [decodeFormat]

theorem f64m (fin : Bool) (rsv : BitVec 3) (opcode : BitVec 4) (ext : BitVec 64) (key : Key) :
    Statement (.f64m fin rsv opcode ext key) := by
  intro _ rest
  rw [Sys2Proof.encode, Instr.group, List.append_assoc, List.append_assoc, decodeIn_format]
  simp [decodeFormat]

end Laws.RoundTrip

end Sys2Proof
end

