-- ==== Sys2Proof/Tests/Slice0.lean ====
section
/-! SUPPORT. Small checks of the model: ill-formed terms, words written out from the tables of 30_encoding.md, one
or two single steps per instruction with the vectors of 95_test_vectors.md, and a witness of the hypotheses of each
statement. Expected values are the spec's. -/

namespace Sys2Proof.Tests

open Sys2Proof.Machine

/-! ### States to start from -/

/-- BUSY with DECODE selected and these input bytes. -/
def decoding (bs : List Byte) : State := { giveInput bs State.reset with ph := .busy, cmdOp := some 1#2 }

/-- BUSY with ENCODE of this opcode and payload selected. -/
def encoding (o : BitVec 4) (key : Option Key) (p : List Byte) : State :=
  let s := { giveInput p State.reset with
    ph := .busy, cmdOp := some 0#2, cmdOpcode := some o, cmdHasKey := some key.isSome }
  match key with
  | none => s
  | some k => writeKeyAll k s

/-- BUSY with XFORM of these bytes selected. -/
def transforming (k : Key) (d : List Byte) : State :=
  writeKeyAll k { giveInput d State.reset with ph := .busy, cmdOp := some 2#2 }

/-- `seq(n)` of 95_test_vectors.md. -/
def seq (n : Nat) : List Byte := (List.range n).map (BitVec.ofNat 8)

/-- What the host can see of an ended operation. -/
structure View where
  status : Option Status
  reason : Option Reason
  fin : Option Bool
  opcode : Option (BitVec 4)
  out : Option (List Byte)
  deriving DecidableEq, Repr

def view : Result → Option View
  | .next s =>
    if s.ph = .done then some (View.mk s.resStatus s.resReason s.resFin s.resOpcode s.outputBytes) else none
  | _ => none

/-- `-> OK` of ENCODE and XFORM. -/
def made (out : List Byte) : Option View := some (View.mk (some .ok) (some .none) none none (some out))

/-- `-> OK fin=f op=o payload=p`. -/
def frame (f : Bool) (o : BitVec 4) (p : List Byte) : Option View :=
  some (View.mk (some .ok) (some .none) (some f) (some o) (some p))

/-- `-> PV` and `-> FF`. -/
def failed (f : Failure) : Option View := some (View.mk (some f.status) (some f.reason) none none none)

/-- The refusal of a step, if it is refused. -/
def refusal : Result → Option Refusal
  | .refused r => some r
  | _ => none

/-- The state after a step, if there is one. -/
def after : Result → Option State
  | .next s => some s
  | _ => none

/-! ### WellFormed refuses an ill-formed term for each check (R52, R54) -/

theorem test_wf_len7 : (Instr.len7 true 0#3 2#4 false 126#7).wellFormed = false ∧
    (Instr.len7 true 0#3 2#4 false 125#7).wellFormed = true := by decide
theorem test_wf_f7u : (Instr.f7u true 0#3 2#4 127#7).wellFormed = false ∧
    (Instr.f7u true 0#3 2#4 125#7).wellFormed = true := by decide
theorem test_wf_f7m : (Instr.f7m true 0#3 2#4 126#7 (Key.mk 1 2 3 4)).wellFormed = false ∧
    (Instr.f7m true 0#3 2#4 125#7 (Key.mk 1 2 3 4)).wellFormed = true := by decide

/-! ### Words written out bit by bit (30_encoding.md R53, R55 to R59, R67 and section 8) -/

theorem test_word_commands :
    decodeIn .command [0b00#8] = .ok (.encode, []) ∧ decodeIn .command [0b01#8] = .ok (.decode, []) ∧
    decodeIn .command [0b10#8] = .ok (.xform, []) ∧ decodeIn .command [0b11#8] = .ok (.cmdReserved, []) := by decide

-- `f0000oooo mlllllll`: fin 1, masked 0, base 5, then fin 0, masked 1, base 127
theorem test_word_cont : decodeHeader [0b10000000#8, 0b00000101#8] = .ok (.cont true false 5#7, []) := by decide
theorem test_word_text : decodeHeader [0b10000001#8, 0b10000101#8] = .ok (.text true true 5#7, []) := by decide
theorem test_word_bin : decodeHeader [0b00000010#8, 0b11111111#8] = .ok (.bin false true 127#7, []) := by decide
theorem test_word_rsvnc3 : decodeHeader [0b10000011#8, 0b00000000#8] = .ok (.rsvnc3 true false 0#7, []) := by decide
theorem test_word_rsvnc4 : decodeHeader [0b00000100#8, 0b01111110#8] = .ok (.rsvnc4 false false 126#7, []) := by decide
theorem test_word_rsvnc5 : decodeHeader [0b10000101#8, 0b00000000#8] = .ok (.rsvnc5 true false 0#7, []) := by decide
theorem test_word_rsvnc6 : decodeHeader [0b10000110#8, 0b00000000#8] = .ok (.rsvnc6 true false 0#7, []) := by decide
theorem test_word_rsvnc7 : decodeHeader [0b10000111#8, 0b10000000#8] = .ok (.rsvnc7 true true 0#7, []) := by decide
theorem test_word_close : decodeHeader [0b10001000#8, 0b00000010#8] = .ok (.close true false 2#7, []) := by decide
theorem test_word_ping : decodeHeader [0b10001001#8, 0b10000100#8] = .ok (.ping true true 4#7, []) := by decide
theorem test_word_pong : decodeHeader [0b00001010#8, 0b00000000#8] = .ok (.pong false false 0#7, []) := by decide
theorem test_word_rsvc11 : decodeHeader [0b10001011#8, 0b00000000#8] = .ok (.rsvc11 true false 0#7, []) := by decide
theorem test_word_rsvc12 : decodeHeader [0b10001100#8, 0b00000000#8] = .ok (.rsvc12 true false 0#7, []) := by decide
theorem test_word_rsvc13 : decodeHeader [0b10001101#8, 0b00000000#8] = .ok (.rsvc13 true false 0#7, []) := by decide
theorem test_word_rsvc14 : decodeHeader [0b10001110#8, 0b00000000#8] = .ok (.rsvc14 true false 0#7, []) := by decide
theorem test_word_rsvc15 : decodeHeader [0b10001111#8, 0b01111111#8] = .ok (.rsvc15 true false 127#7, []) := by decide

-- `f1rroooo`, `fr1roooo`, `frr1oooo`
theorem test_word_rsv1 :
    decodeHeader [0b11010011#8, 0b01111110#8] = .ok (.rsv1Set true false true 3#4 false 126#7, []) := by decide
theorem test_word_rsv2 :
    decodeHeader [0b10110001#8, 0b00000000#8] = .ok (.rsv2Set true false true 1#4 false 0#7, []) ∧
    decodeIn .rsv2 [0b11100001#8, 0b00000000#8] = .ok (.rsv2Set true true false 1#4 false 0#7, []) := by decide
theorem test_word_rsv3 :
    decodeHeader [0b10010001#8, 0b00000000#8] = .ok (.rsv3Set true false false 1#4 false 0#7, []) ∧
    decodeIn .rsv3 [0b11010001#8, 0b00000000#8] = .ok (.rsv3Set true true false 1#4 false 0#7, []) := by decide

-- `1rrroooo mlllllll` and `0rrroooo mlllllll`
theorem test_word_fin :
    decodeIn .fin [0b11011010#8, 0b10000011#8] = .ok (.finSet 0b101#3 10#4 true 3#7, []) ∧
    decodeIn .fin [0b00000001#8, 0b00000011#8] = .ok (.finClear 0#3 1#4 false 3#7, []) := by decide
-- `frrroooo 1lllllll` and `frrroooo 0lllllll`
theorem test_word_mask :
    decodeIn .mask [0b10000001#8, 0b10000101#8] = .ok (.masked true 0#3 1#4 5#7, []) ∧
    decodeIn .mask [0b00000010#8, 0b01111110#8] = .ok (.unmasked false 0#3 2#4 126#7, []) := by decide
-- `frrroooo mlllllll` with base 125, `frrroooo m1111110`, `frrroooo m1111111`
theorem test_word_tier :
    decodeIn .tier [0b10000010#8, 0b01111101#8] = .ok (.len7 true 0#3 2#4 false 125#7, []) ∧
    decodeIn .tier [0b10000010#8, 0b11111110#8] = .ok (.len16 true 0#3 2#4 true, []) ∧
    decodeIn .tier [0b00001001#8, 0b01111111#8] = .ok (.len64 false 0#3 9#4 false, []) := by decide
-- whole headers: word, extended length, key (R55 to R57)
theorem test_word_f7 :
    decodeIn .format [0x81#8, 0x05#8, 0x48#8] = .ok (.f7u true 0#3 1#4 5#7, [0x48#8]) ∧
    decodeIn .format [0x81#8, 0x85#8, 0x00#8, 0x01#8, 0x02#8, 0x03#8] =
      .ok (.f7m true 0#3 1#4 5#7 (Key.mk 0x00#8 0x01#8 0x02#8 0x03#8), []) := by decide
theorem test_word_f16 :
    decodeIn .format [0x82#8, 0x7E#8, 0x00#8, 0xC8#8] = .ok (.f16u true 0#3 2#4 0x00C8#16, []) ∧
    decodeIn .format [0x82#8, 0xFE#8, 0x01#8, 0x00#8, 0xDE#8, 0xAD#8, 0xBE#8, 0xEF#8, 0x55#8] =
      .ok (.f16m true 0#3 2#4 0x0100#16 (Key.mk 0xDE#8 0xAD#8 0xBE#8 0xEF#8), [0x55#8]) := by decide
theorem test_word_f64 :
    decodeIn .format [0x82#8, 0x7F#8, 0#8, 0#8, 0#8, 0#8, 0#8, 0x01#8, 0x23#8, 0x45#8] =
      .ok (.f64u true 0#3 2#4 0x12345#64, []) ∧
    decodeIn .format [0x82#8, 0xFF#8, 0#8, 0#8, 0#8, 1#8, 0#8, 0#8, 0#8, 0#8, 1#8, 2#8, 3#8, 4#8] =
      .ok (.f64m true 0#3 2#4 0x100000000#64 (Key.mk 1#8 2#8 3#8 4#8), []) := by decide

-- bytes that are no instruction are refused by name
theorem test_word_refused :
    decodeIn .command [] = .error .noCommand ∧ decodeHeader [0x81#8] = .error .shortHeader ∧
    decodeIn .rsv1 [0xA1#8, 0x00#8] = .error .rowNotMatched ∧
    decodeIn .opcode [0x91#8, 0x00#8] = .error .rowNotMatched ∧
    decodeIn .format [0x81#8, 0x7E#8, 0x00#8] = .error .shortExtLen ∧
    decodeIn .format [0x81#8, 0x80#8, 1#8, 2#8, 3#8] = .error .shortKey := by decide

/-! ### ENCODE (S1, S2, V-E1, V-E4, V-E12, V-E13, V-E24) -/

theorem test_encode_hello :
    view (exec .encode (encoding 1#4 none [0x48, 0x65, 0x6C, 0x6C, 0x6F])) =
      made [0x81, 0x05, 0x48, 0x65, 0x6C, 0x6C, 0x6F] := by decide
theorem test_encode_masked :
    view (exec .encode (encoding 1#4 (some (Key.mk 0x37 0xFA 0x21 0x3D)) [0x48, 0x65, 0x6C, 0x6C, 0x6F])) =
      made [0x81, 0x85, 0x37, 0xFA, 0x21, 0x3D, 0x7F, 0x9F, 0x4D, 0x51, 0x58] := by decide
-- V-E12 and V-E13: the mask bit stands in byte 1 only
theorem test_encode_len16 :
    (encodeBytes 2#4 none (seq 126)).take 6 = [0x82, 0x7E, 0x00, 0x7E, 0x00, 0x01] ∧
    (encodeBytes 2#4 (some (Key.mk 1 2 3 4)) (seq 126)).take 12 =
      [0x82, 0xFE, 0x00, 0x7E, 0x01, 0x02, 0x03, 0x04, 0x01, 0x03, 0x01, 0x07] := by decide +kernel
-- R85's worked lengths: 65535, 65536, 2^32 and 2^63 - 1
theorem test_encode_length_fields :
    lengthField false 65535 = [0x7E, 0xFF, 0xFF] ∧ lengthField true 65536 = [0xFF, 0, 0, 0, 0, 0, 1, 0, 0] ∧
    lengthField false 4294967296 = [0x7F, 0, 0, 0, 1, 0, 0, 0, 0] ∧
    lengthField false 9223372036854775807 = [0x7F, 0x7F, 0xFF, 0xFF, 0xFF, 0xFF, 0xFF, 0xFF, 0xFF] := by decide

/-! ### DECODE (V-D8, V-D11, V-D16, V-D17, V-D27) -/

theorem test_decode_masked_ping :
    view (exec .decode (decoding [0x89, 0x85, 0x37, 0xFA, 0x21, 0x3D, 0x7F, 0x9F, 0x4D, 0x51, 0x58])) =
      frame true 9#4 [0x48, 0x65, 0x6C, 0x6C, 0x6F] := by decide
theorem test_decode_order :
    view (exec .decode (decoding [0xF3, 0x00])) = failed (.violation .rsvSet) ∧
    view (exec .decode (decoding [0x81, 0xFF, 0x80, 0, 0, 0, 0, 0, 0, 0])) = failed (.framing .lengthRange) := by
  decide

/-! ### XFORM (V-X4, V-X9) and CMD_OP = 3 (V-R2) -/

theorem test_xform :
    view (exec .xform (transforming (Key.mk 0xA5 0x5A 0xFF 0x00) [1, 2, 3, 4, 5, 6, 7, 8, 9, 0x0A])) =
      made [0xA4, 0x58, 0xFC, 0x04, 0xA0, 0x5C, 0xF8, 0x08, 0xAC, 0x50] := by decide
theorem test_xform_empty :
    view (exec .xform (transforming (Key.mk 0x12 0x34 0x56 0x78) [])) = made [] := by decide
theorem test_cmd_reserved :
    refusal (perform .start { giveInput [] State.reset with cmdOp := some 3#2 }) = some .reservedCommand := by decide

/-! ### Opcode rows (V-D9, V-D4, S3, V-D-OPC, V-D6, V-D12) -/

theorem test_cont :
    view (exec (.cont true false 2#7) (decoding [0x80, 0x02, 0x61, 0x62])) = frame true 0#4 [0x61, 0x62] := by decide
theorem test_text :
    view (exec (.text true false 126#7) (decoding [0x81, 0x7E, 0x00, 0x05, 0x48, 0x69, 0x21, 0x21, 0x21])) =
      frame true 1#4 [0x48, 0x69, 0x21, 0x21, 0x21] := by decide
theorem test_bin :
    view (exec (.bin true false 3#7) (decoding [0x82, 0x03, 0x01, 0x02, 0x03])) = frame true 2#4 [1, 2, 3] := by decide
theorem test_rsvnc3 : view (exec (.rsvnc3 true false 0#7) (decoding [0x83, 0x00])) =
    failed (.violation .reservedNoncontrolOpcode) := by decide
theorem test_rsvnc4 : view (exec (.rsvnc4 true false 0#7) (decoding [0x84, 0x00])) =
    failed (.violation .reservedNoncontrolOpcode) := by decide
theorem test_rsvnc5 : view (exec (.rsvnc5 true false 0#7) (decoding [0x85, 0x00])) =
    failed (.violation .reservedNoncontrolOpcode) := by decide
theorem test_rsvnc6 : view (exec (.rsvnc6 true false 0#7) (decoding [0x86, 0x00])) =
    failed (.violation .reservedNoncontrolOpcode) := by decide
theorem test_rsvnc7 : view (exec (.rsvnc7 true false 0#7) (decoding [0x87, 0x00])) =
    failed (.violation .reservedNoncontrolOpcode) := by decide
theorem test_close :
    view (exec (.close true false 0#7) (decoding [0x88, 0x00])) = frame true 8#4 [] := by decide
theorem test_ping :
    view (exec (.ping false false 126#7) (decoding [0x09, 0x7E, 0x00, 0x02, 0x41, 0x42])) =
      frame false 9#4 [0x41, 0x42] := by decide
theorem test_pong :
    view (exec (.pong true false 0#7) (decoding [0x8A, 0x00])) = frame true 10#4 [] := by decide
theorem test_rsvc11 : view (exec (.rsvc11 true false 0#7) (decoding [0x8B, 0x00])) =
    failed (.violation .reservedControlOpcode) := by decide
theorem test_rsvc12 : view (exec (.rsvc12 true false 0#7) (decoding [0x8C, 0x00])) =
    failed (.violation .reservedControlOpcode) := by decide
theorem test_rsvc13 : view (exec (.rsvc13 true false 0#7) (decoding [0x8D, 0x00])) =
    failed (.violation .reservedControlOpcode) := by decide
theorem test_rsvc14 : view (exec (.rsvc14 true false 0#7) (decoding [0x8E, 0x00])) =
    failed (.violation .reservedControlOpcode) := by decide
theorem test_rsvc15 : view (exec (.rsvc15 true false 127#7) (decoding [0x8F, 0x7F])) =
    failed (.violation .reservedControlOpcode) := by decide

/-! ### Reserved-bit rows (V-D17, V-D14, V-D15) -/

theorem test_rsv1Set : view (exec (.rsv1Set true false false 1#4 false 127#7) (decoding [0xC1, 0x7F])) =
    failed (.violation .rsvSet) := by decide
theorem test_rsv2Set : view (exec (.rsv2Set true false false 1#4 false 0#7) (decoding [0xA1, 0x00])) =
    failed (.violation .rsvSet) := by decide
theorem test_rsv3Set : view (exec (.rsv3Set true false false 1#4 false 0#7) (decoding [0x91, 0x00])) =
    failed (.violation .rsvSet) := by decide

/-! ### fin, masked-flag and tier rows (V-D7, V-D8, V-D28, V-D30, V-D32, V-D24, V-D11) -/

theorem test_finSet :
    view (exec (.finSet 0#3 2#4 true 0#7) (decoding [0x82, 0x80, 0xAA, 0xBB, 0xCC, 0xDD])) = frame true 2#4 [] := by
  decide
theorem test_finClear :
    view (exec (.finClear 0#3 1#4 false 3#7) (decoding [0x01, 0x03, 0x41, 0x42, 0x43])) =
      frame false 1#4 [0x41, 0x42, 0x43] := by decide
theorem test_masked :
    view (exec (.masked true 0#3 1#4 5#7) (decoding [0x81, 0x85, 0, 1, 2, 3, 0x48, 0x64, 0x6E, 0x6F, 0x6F])) =
      frame true 1#4 [0x48, 0x65, 0x6C, 0x6C, 0x6F] := by decide
theorem test_masked_short_key :
    view (exec (.masked true 0#3 1#4 0#7) (decoding [0x81, 0x80, 1, 2, 3])) = failed (.framing .shortKey) := by decide
theorem test_unmasked :
    view (exec (.unmasked true 0#3 1#4 5#7) (decoding [0x81, 0x05, 0x48, 0x65])) =
      failed (.framing .shortPayload) := by decide
theorem test_len7 :
    view (exec (.len7 true 0#3 1#4 false 2#7) (decoding [0x81, 0x02, 0x48, 0x69, 0xFF])) =
      failed (.framing .trailingBytes) := by decide
theorem test_len16 :
    view (exec (.len16 true 0#3 1#4 false) (decoding [0x81, 0x7E, 0x00])) = failed (.framing .shortExtLen) := by decide
theorem test_len64 :
    view (exec (.len64 true 0#3 1#4 false) (decoding [0x81, 0x7F, 0, 0, 0, 0, 0, 0, 0, 3, 0x41, 0x42, 0x43])) =
      frame true 1#4 [0x41, 0x42, 0x43] := by decide

/-! ### Formats (V-D1, V-D5, V-D10, V-D29, V-D11, V-D27) -/

theorem test_f7u : view (exec (.f7u true 0#3 2#4 0#7) (decoding [0x82, 0x00])) = frame true 2#4 [] := by decide
theorem test_f7m :
    view (exec (.f7m true 0#3 1#4 5#7 (Key.mk 0 1 2 3))
      (decoding [0x81, 0x85, 0, 1, 2, 3, 0x48, 0x64, 0x6E, 0x6F, 0x6F])) =
      frame true 1#4 [0x48, 0x65, 0x6C, 0x6C, 0x6F] := by decide
theorem test_f16u :
    view (exec (.f16u true 0#3 1#4 5#16) (decoding [0x81, 0x7E, 0x00, 0x05, 0x48, 0x69, 0x21, 0x21, 0x21])) =
      frame true 1#4 [0x48, 0x69, 0x21, 0x21, 0x21] := by decide
theorem test_f16m :
    view (exec (.f16m true 0#3 1#4 1#16 (Key.mk 0xAA 0xBB 0xCC 0xDD))
      (decoding [0x81, 0xFE, 0x00, 0x01, 0xAA, 0xBB, 0xCC])) = failed (.framing .shortKey) := by decide
theorem test_f64u :
    view (exec (.f64u true 0#3 1#4 3#64) (decoding [0x81, 0x7F, 0, 0, 0, 0, 0, 0, 0, 3, 0x41, 0x42, 0x43])) =
      frame true 1#4 [0x41, 0x42, 0x43] := by decide
theorem test_f64m :
    view (exec (.f64m true 0#3 1#4 0x8000000000000000#64 (Key.mk 1 2 3 4))
      (decoding [0x81, 0xFF, 0x80, 0, 0, 0, 0, 0, 0, 0])) = failed (.framing .lengthRange) := by decide

/-! ### Steps of the machine (V-R1, V-R3 to V-R8, P6) -/

/-- IDLE, operands of V-R4 written. -/
def ready : State :=
  { giveInput [] State.reset with cmdOp := some 0#2, cmdOpcode := some 1#4, cmdHasKey := some false }

theorem test_start_after_reset :
    refusal (step { State.reset with pending := [.start] }) = some (.noValue .cmdOp) := by decide
theorem test_start_reads_only_what_it_needs :
    refusal (perform .start { ready with cmdHasKey := none }) = some (.noValue .cmdHasKey) ∧
    after (perform .start ready) = some { ready with ph := .busy } ∧
    refusal (perform .start { ready with cmdOp := some 2#2 }) = some (.noValue (.cmdKey 0)) ∧
    refusal (perform .start { State.reset with cmdOp := some 1#2, ilen := some 1#64 }) =
      some (.noValue (.ibuf 0)) := by decide
theorem test_start_bounds :
    refusal (perform .start { ready with payloadMax := 0#63, ilen := some 1#64, ibuf := [(0, 7#8)] }) =
      some .lengthOverBound := by decide
theorem test_read_after_failure :
    (after (exec .decode (decoding [0xC1, 0x00]))).map (fun s => refusal (perform (.read .resOpcode) s)) =
      some (some (.noValue .resOpcode)) := by decide
theorem test_reset_in_busy :
    after (step { encoding 1#4 none [0x48] with pending := [.reset, .start] }) =
      some { State.reset with pending := [.start] } := by decide
theorem test_key_port :
    (after (perform (.writeKey32 0x37FA213D#32) State.reset)).map State.cmdKey =
      some (some (Key.mk 0x37 0xFA 0x21 0x3D)) := by decide
-- the host's question: the first step from reset runs the placed word
theorem test_placed :
    decodeTableWord 16 0x827E = some (.bin true false 126#7) ∧
    view (step (State.reset.withFetchWord 16 0x8203)) = frame true 2#4 [0, 0, 0] ∧
    view (step (State.reset.withFetchWord 2 0)) = made [0x80, 0x00] := by decide

/-! ### Witnesses: states and operands that meet the hypotheses of each statement -/

theorem witness_decode_inverts_encode :
    (Instr.len7 true 0#3 2#4 true 125#7).wellFormed = true ∧ (Instr.f7u false 7#3 15#4 0#7).wellFormed = true ∧
    (Instr.f64m true 0#3 2#4 0xFFFFFFFFFFFFFFFF#64 (Key.mk 1 2 3 4)).wellFormed = true := by decide
theorem witness_encode_inverts_decode :
    Group.format ≠ .command ∧ decodeIn .format [0x82#8, 0xFE#8, 0#8, 1#8, 1#8, 2#8, 3#8, 4#8, 9#8] =
      .ok (.f16m true 0#3 2#4 1#16 (Key.mk 1 2 3 4), [9#8]) := by decide
theorem witness_fetch_header :
    Mem.read (decoding [0x81, 0x85]).ibuf 0 = some 0x81#8 ∧ Mem.read (decoding [0x81, 0x85]).ibuf 1 = some 0x85#8 := by
  decide
-- base 125 unmasked: 0 more bytes; base 126 masked: 6, and 5 are too few; base 127: 8, and 7 are too few
theorem witness_header_length :
    (0 ≤ ([] : List Byte).length) ∧ (6 ≤ (seq 6).length ∧ (seq 5).length < 6) ∧
    (8 ≤ (seq 8).length ∧ (seq 7).length < 8) ∧ ((0xFE#8 &&& 0x7F#8).toNat = 126) ∧ (0xFE#8 >>> 7).toNat = 1 := by
  decide
theorem witness_encode :
    (encoding 1#4 none [0x48, 0x69]).running [0x48, 0x69] ∧ (encoding 1#4 none [0x48, 0x69]).cmdOpcode = some 1#4 ∧
    (encoding 1#4 none [0x48, 0x69]).cmdHasKey = some false ∧
    (encoding 15#4 (some (Key.mk 1 2 3 4)) []).running [] ∧
    (encoding 15#4 (some (Key.mk 1 2 3 4)) []).cmdHasKey = some true ∧
    (encoding 15#4 (some (Key.mk 1 2 3 4)) []).cmdKey = some (Key.mk 1 2 3 4) := by decide
theorem witness_format_boundaries :
    (List.replicate 125 0#8).length ≤ 125 ∧ (126 ≤ (List.replicate 126 0#8).length) ∧
    (126 ≤ (List.replicate 65535 0#8).length ∧ (List.replicate 65535 0#8).length ≤ 65535) ∧
    65536 ≤ (List.replicate 65536 0#8).length := by simp only [List.length_replicate]; omega
theorem witness_encode_length :
    (encoding 1#4 (some (Key.mk 1 2 3 4)) [7]).running [7] ∧
    (encoding 1#4 (some (Key.mk 1 2 3 4)) [7]).cmdKey.isSome = true ∧
    [7#8].length ≤ (encoding 1#4 (some (Key.mk 1 2 3 4)) [7]).payloadMax.toNat := by decide
theorem witness_decode : (decoding []).running [] ∧ (decoding [0x82, 0x00]).running [0x82, 0x00] := by decide
theorem witness_xform :
    (transforming (Key.mk 1 2 3 4) [5]).running [5] ∧
    (transforming (Key.mk 1 2 3 4) [5]).cmdKey = some (Key.mk 1 2 3 4) := by decide
theorem witness_reserved_command :
    { State.reset with cmdOp := some 3#2 }.cmdOp = some 3#2 ∧ { State.reset with cmdOp := some 3#2 }.ph ≠ .busy := by
  decide

/-- A state that runs on a well-framed buffer beginning with an instruction's bytes. -/
def deliverable (i : Instr) (r : List Byte) : Bool :=
  decide ((decoding (encode i ++ r)).running (encode i ++ r)) &&
    wellFramed (decoding (encode i ++ r)).payloadMax.toNat (encode i ++ r)

theorem witness_accepted_rows :
    deliverable (.cont true false 1#7) [5] = true ∧ deliverable (.text false false 126#7) [0, 1, 5] = true ∧
    deliverable (.bin true true 127#7) [0, 0, 0, 0, 0, 0, 0, 0, 1, 2, 3, 4] = true ∧
    deliverable (.close true false 0#7) [] = true ∧ deliverable (.ping true true 1#7) [1, 2, 3, 4, 9] = true ∧
    deliverable (.pong true false 0#7) [] = true := by decide
theorem witness_violation :
    (decoding [0x83, 0x00]).ph = .busy ∧ (decoding [0x83, 0x00]).ilen = some 2#64 ∧ 2 ≤ (2#64).toNat := by decide
theorem witness_fin_and_mask_rows :
    opcodeClass 10#4 = .accepted ∧ deliverable (.finSet 0#3 10#4 false 0#7) [] = true ∧
    deliverable (.finClear 0#3 0#4 true 0#7) [1, 2, 3, 4] = true ∧
    deliverable (.masked true 0#3 2#4 126#7) [0, 0, 1, 2, 3, 4] = true ∧
    deliverable (.unmasked true 0#3 2#4 1#7) [8] = true := by decide
theorem witness_tier_rows :
    (125#7).toNat ≤ 125 ∧ deliverable (.len7 true 0#3 2#4 false 0#7) [] = true ∧
    deliverable (.len16 true 0#3 2#4 false) [0, 1, 5] = true ∧
    deliverable (.len64 true 0#3 2#4 true) [0, 0, 0, 0, 0, 0, 0, 0, 1, 2, 3, 4] = true := by decide
theorem witness_format_rows :
    opcodeClass 2#4 = .accepted ∧ (1#7).toNat ≤ 125 ∧ (1#7).toNat = [5#8].length ∧ (1#16).toNat = [5#8].length ∧
    (1#64).toNat = [5#8].length ∧ [5#8].length ≤ (decoding []).payloadMax.toNat ∧
    (decoding [0x82, 1, 5]).inputBytes = some (encode (.f7u true 0#3 2#4 1#7) ++ [5#8]) ∧
    (decoding [0x82, 0x81, 1, 2, 3, 4, 5]).inputBytes =
      some (encode (.f7m true 0#3 2#4 1#7 (Key.mk 1 2 3 4)) ++ [5#8]) ∧
    (decoding [0x82, 0x7E, 0, 1, 5]).inputBytes = some (encode (.f16u true 0#3 2#4 1#16) ++ [5#8]) ∧
    (decoding [0x82, 0xFE, 0, 1, 1, 2, 3, 4, 5]).inputBytes =
      some (encode (.f16m true 0#3 2#4 1#16 (Key.mk 1 2 3 4)) ++ [5#8]) ∧
    (decoding [0x82, 0x7F, 0, 0, 0, 0, 0, 0, 0, 1, 5]).inputBytes =
      some (encode (.f64u true 0#3 2#4 1#64) ++ [5#8]) ∧
    (decoding [0x82, 0xFF, 0, 0, 0, 0, 0, 0, 0, 1, 1, 2, 3, 4, 5]).inputBytes =
      some (encode (.f64m true 0#3 2#4 1#64 (Key.mk 1 2 3 4)) ++ [5#8]) := by decide
theorem witness_header_violation :
    (if (1#3) ≠ 0#3 then Violation.rsvSet = .rsvSet
     else if 3 ≤ (1#4).toNat ∧ (1#4).toNat ≤ 7 then Violation.rsvSet = .reservedNoncontrolOpcode
     else 11 ≤ (1#4).toNat ∧ Violation.rsvSet = .reservedControlOpcode) ∧
    (if (0#3) ≠ 0#3 then Violation.reservedNoncontrolOpcode = .rsvSet
     else if 3 ≤ (7#4).toNat ∧ (7#4).toNat ≤ 7 then Violation.reservedNoncontrolOpcode = .reservedNoncontrolOpcode
     else 11 ≤ (7#4).toNat ∧ Violation.reservedNoncontrolOpcode = .reservedControlOpcode) ∧
    (if (0#3) ≠ 0#3 then Violation.reservedControlOpcode = .rsvSet
     else if 3 ≤ (11#4).toNat ∧ (11#4).toNat ≤ 7 then Violation.reservedControlOpcode = .reservedNoncontrolOpcode
     else 11 ≤ (11#4).toNat ∧ Violation.reservedControlOpcode = .reservedControlOpcode) := by decide
theorem witness_refine :
    (Instr.len16 true 0#3 3#4 true).group ≠ .command ∧ (Instr.len16 true 0#3 3#4 true).wellFormed = true ∧
    (decoding (encode (.len16 true 0#3 3#4 true) ++ [0])).running (encode (.len16 true 0#3 3#4 true) ++ [0]) := by
  decide
-- only two bytes of IBUF hold a value, and ILEN is above 2
theorem witness_reserved_bits :
    let s := { decoding [0xC1, 0x7F] with ilen := some 9#64 }
    s.ph = .busy ∧ s.ilen = some 9#64 ∧ 2 ≤ (9#64).toNat ∧ Mem.read s.ibuf 0 = some 0xC1#8 ∧
    Mem.read s.ibuf 1 = some 0x7F#8 ∧ be16 0xC1#8 0x7F#8 &&& 0x7000#16 ≠ 0#16 ∧ s.inputBytes = none := by decide
theorem witness_opcode :
    be16 0x83#8 0x00#8 &&& 0x7000#16 = 0#16 ∧ 3 ≤ (0x83#8 &&& 0x0F#8).toNat ∧ (0x87#8 &&& 0x0F#8).toNat ≤ 7 ∧
    11 ≤ (0x8B#8 &&& 0x0F#8).toNat ∧ (0x8A#8 &&& 0x0F#8).toNat ∈ [0, 1, 2, 8, 9, 10] ∧
    (decoding [0x8A, 0x00]).inputBytes.isSome = true := by decide
-- one buffer for each of the six, at the boundary of its condition (V-D22 to V-D33)
theorem witness_framing :
    (decoding [0x81]).running [0x81] ∧ violationOf (be16 0x81#8 0xFE#8) = none ∧
    ([0x81#8, 0x7E#8, 0x00#8].length < 2 + 2) ∧
    ((decoding []).payloadMax.toNat < bigEndian [0x80, 0, 0, 0, 0, 0, 0, 0]) ∧
    ([0x81#8, 0xFE#8, 0#8, 1#8, 1#8, 2#8, 3#8].length < 2 + 2 + 4) ∧
    (2 + 0 + 0 ≤ [0x81#8, 0x01#8].length ∧ [0x81#8, 0x01#8].length < 2 + 0 + 0 + 1) ∧
    2 + 0 + 0 + 0 < [0x81#8, 0x00#8, 0x00#8].length := by decide
theorem witness_well_framed :
    wellFramed (decoding []).payloadMax.toNat [0x81, 0x01, 0x05] = true ∧
    wellFramed (decoding []).payloadMax.toNat [0x81, 0x01] = false ∧ wellFramed 0 [0x81, 0x01, 0x05] = false := by
  decide
theorem witness_declares_itself : declaresItself 1 [0x81, 0x01, 0x05] ∧ ¬ declaresItself 0 [0x81] :=
  ⟨⟨0x81, 0x01, [0x05], rfl, by decide⟩, fun ⟨_, _, _, h, _⟩ => by simp at h⟩
-- what ENCODE left in OBUF, copied to IBUF (P2)
theorem witness_round_trip :
    let s := encoding 1#4 (some (Key.mk 1 2 3 4)) [7, 8]
    ∃ t, after (exec .encode s) = some t ∧ t.outputBytes = some [0x81, 0x82, 1, 2, 3, 4, 6, 10] ∧
      (decoding [0x81, 0x82, 1, 2, 3, 4, 6, 10]).inputBytes = t.outputBytes ∧
      (decoding [0x81, 0x82, 1, 2, 3, 4, 6, 10]).payloadMax = s.payloadMax := ⟨_, rfl, by decide, by decide, rfl⟩
theorem witness_transform : [7#8, 8#8][1]? = some 8#8 ∧ (1 < 2) := by decide
theorem witness_xform_twice :
    let s := transforming (Key.mk 1 2 3 4) [5, 6]
    ∃ t, after (exec .xform s) = some t ∧
      (transforming (Key.mk 1 2 3 4) [4, 4]).inputBytes = t.outputBytes := ⟨_, rfl, by decide⟩
theorem witness_ended :
    (after (exec .xform (transforming (Key.mk 1 2 3 4) [5]))).isSome = true ∧
    (after (exec .encode (encoding 1#4 none []))).isSome = true ∧
    (after (exec .decode (decoding [0x82, 0x00]))).map (·.resStatus) = some (some .ok) ∧
    (2#64).toNat ≤ Config.frameMax (decoding [0x82, 0x00]).payloadMax := by decide
-- two states that agree below ILEN and differ in what the operations do not read
theorem witness_same_input :
    ∃ s t : State, s.sameInput t ∧ s.ibuf ≠ t.ibuf ∧ s.cmdOpcode ≠ t.cmdOpcode ∧
      (after (exec .decode s)).isSome = true ∧ (after (exec .decode t)).isSome = true := by
  refine ⟨decoding [0x82, 0x00],
    { decoding [0x82, 0x00] with ibuf := [(0, 0x82), (1, 0), (2, 7)], cmdOpcode := some 3#4, resFin := some true },
    ⟨rfl, rfl, rfl, ?_⟩, by decide, by decide, by decide, by decide⟩
  intro n a hn ha
  cases hn
  have : a = 0 ∨ a = 1 := by simp at ha; omega
  rcases this with rfl | rfl <;> rfl
-- the same for XFORM, and for ENCODE without a key, whose key registers differ
theorem witness_same_operands :
    let s := transforming (Key.mk 1 2 3 4) [5]
    let t := { s with cmdHasKey := some true }
    let u := encoding 1#4 none [5]
    let v := writeKeyAll (Key.mk 1 2 3 4) u
    (s.sameInput t ∧ s.cmdKey = t.cmdKey ∧ (after (exec .xform s)).isSome = true ∧
      (after (exec .xform t)).isSome = true) ∧
    (u.sameInput v ∧ u.cmdOpcode = v.cmdOpcode ∧ u.cmdHasKey = v.cmdHasKey ∧
      (u.cmdHasKey = some true → u.cmdKey = v.cmdKey) ∧ u.cmdKey ≠ v.cmdKey ∧
      (after (exec .encode u)).isSome = true ∧ (after (exec .encode v)).isSome = true) :=
  ⟨⟨⟨rfl, rfl, rfl, fun _ _ _ _ => rfl⟩, by decide, by decide, by decide⟩,
    ⟨rfl, rfl, rfl, fun _ _ _ _ => rfl⟩, by decide, by decide, by decide, by decide, by decide, by decide⟩
theorem witness_step :
    let s := { decoding [0x82, 0x00] with pending := [.execute] }
    s.ph = .busy ∧ fetch s = some .decode ∧ s.pending = [.execute] ∧ (decoding [0x82, 0x00]).pending = [] := by
  decide
theorem witness_placed :
    decodeTableWord 8 2 = some .xform ∧ decodeTableWord 16 0x8B00 = some (.rsvc11 true false 0#7) := by decide
theorem witness_inv_idle : State.reset.Inv :=
  ⟨List.Pairwise.nil, List.Pairwise.nil, rfl, rfl, rfl, rfl, rfl, rfl, rfl⟩
theorem witness_inv_busy :
    (decoding [0x82, 0x00]).Inv ∧ (after (step (decoding [0x82, 0x00]))).isSome = true :=
  ⟨⟨by decide, List.Pairwise.nil, rfl, ⟨rfl, rfl, rfl, rfl, rfl, rfl⟩, by decide⟩, by decide⟩
theorem witness_start :
    ready.ph ≠ .busy ∧ ready.inputBytes = some [] ∧ ready.cmdOp = some 0#2 ∧ ready.cmdOpcode.isSome = true ∧
    ready.cmdHasKey = some false ∧ ([] : List Byte).length ≤ ready.payloadMax.toNat ∧
    (writeKeyAll (Key.mk 1 2 3 4) ready).cmdKey.isSome = true := by decide
theorem witness_no_value :
    State.reset.ph ≠ .busy ∧ State.reset.cmdOp = none ∧ State.reset.ilen = none ∧ State.reset.resFin = none ∧
    State.reset.resOpcode = none ∧ State.reset.olen = none ∧ State.reset.cmdKey = none ∧
    Mem.read State.reset.ibuf 0 = none := by decide
-- a length of 1 over a buffer with no byte
theorem witness_no_byte :
    let s := { ready with ph := .done, ilen := some 1#64, olen := some 1#64 }
    s.ph ≠ .busy ∧ 0 < (1#64).toNat ∧ Mem.read s.ibuf 0 = none ∧ Mem.read s.obuf 0 = none := by decide
theorem witness_overlong :
    let s := { ready with payloadMax := 5#63, ilen := some 6#64 }
    s.ilen = some 6#64 ∧ s.payloadMax.toNat < (6#64).toNat ∧ s.payloadMax.toNat + 14 < (20#64).toNat := by decide
theorem witness_busy_host : (decoding []).ph = .busy ∧ Move.start ≠ .execute ∧ Move.start ≠ .reset := by decide
theorem witness_outside_busy :
    State.reset.ph ≠ .busy ∧ State.reset.pending = [] ∧ (Instr.encode ≠ .cmdReserved) := by decide
-- DONE with every result there, and OBUF of two bytes
theorem witness_reads :
    ∃ s, after (exec .decode (decoding [0x82, 0x02, 7, 8])) = some s ∧ s.ph = .done ∧ s.resStatus = some .ok ∧
      s.resReason = some .none ∧ s.resFin = some true ∧ s.resOpcode = some 2#4 ∧ s.olen = some 2#64 ∧
      Mem.read s.obuf 1 = some 8#8 := ⟨_, rfl, by decide⟩
theorem witness_operand_reads :
    let s := writeKeyAll (Key.mk 1 2 3 4) ready
    s.ph ≠ .busy ∧ s.cmdOp = some 0#2 ∧ s.cmdOpcode.isSome = true ∧ s.cmdHasKey = some false ∧ s.cmdKey0 = some 1 ∧
      s.cmdKey1 = some 2 ∧ s.cmdKey2 = some 3 ∧ s.cmdKey3 = some 4 ∧ s.ilen = some 0#64 := by decide
theorem witness_buffer_reads :
    (2#64).toNat ≤ 2 ∧ 1 < (2#64).toNat ∧ ready.ph ≠ .busy ∧ ready.ilen = some 0#64 ∧
    Mem.read (giveInput [3] ready).ibuf 0 = some 3#8 := by decide
theorem witness_hidden :
    Reg.keyw ∈ [Reg.hdr, Reg.keyw] ∧ Reg.olen ∈ [Reg.resStatus, Reg.olen] ∧ State.reset.ph = .idle := by decide

end Sys2Proof.Tests
end

section
/-! Big-endian fields (R9, R35): what `MemWrite` puts at each offset, and what `MemRead` assembles from it. -/

namespace Sys2Proof.Machine

@[simp] theorem bigEndianBytes_length (n v : Nat) : (bigEndianBytes n v).length = n := by
  induction n with
  | zero => rfl
  | succ n ih => rw [bigEndianBytes, List.length_cons, ih]

/-- Byte `k` of a field is `(v >> (8 * (n - 1 - k))) & 0xFF` (R35). -/
theorem bigEndianBytes_getElem? {n k : Nat} (v : Nat) (hk : k < n) :
    (bigEndianBytes n v)[k]? = some (BitVec.ofNat 8 (v / 256 ^ (n - 1 - k))) := by
  induction n generalizing k with
  | zero => omega
  | succ n ih =>
    cases k with
    | zero => rfl
    | succ k =>
      rw [bigEndianBytes, List.getElem?_cons_succ, ih (by omega), show n + 1 - 1 - (k + 1) = n - 1 - k by omega]

/-- Assembling a field's bytes after those whose value is `acc` shifts `acc` past the field. -/
theorem foldl_bigEndianBytes (n v acc : Nat) :
    (bigEndianBytes n v).foldl (fun acc b => acc * 256 + b.toNat) acc = acc * 256 ^ n + v % 256 ^ n := by
  induction n generalizing acc with
  | zero => simp [bigEndianBytes, Nat.mod_one]
  | succ n ih =>
    rw [bigEndianBytes, List.foldl_cons, ih, BitVec.toNat_ofNat, Nat.mod_pow_succ (b := 256)]
    ring

theorem bigEndian_bigEndianBytes (n v : Nat) : bigEndian (bigEndianBytes n v) = v % 256 ^ n := by
  rw [bigEndian, foldl_bigEndianBytes, Nat.zero_mul, Nat.zero_add]

/-- Inside the range written, each offset holds its byte. -/
theorem read_writeBytes_add (m : Mem) (a : Nat) {i : Nat} {vs : List Byte} (hi : i < vs.length) :
    Mem.read (Mem.writeBytes m a vs) (a + i) = vs[i]? := by
  rw [read_writeBytes, if_pos (by omega), Nat.add_sub_cancel_left]

/-- The bytes written at an offset of any buffer are the bytes read there. -/
theorem readBytes_writeBytes (m : Mem) (a : Nat) (vs : List Byte) :
    Mem.readBytes (Mem.writeBytes m a vs) a vs.length = .ok vs :=
  (readBytes_ok_iff _ _ _ _).mpr ⟨rfl, fun _ hi => read_writeBytes_add m a hi⟩

/-- `MemRead` of what `MemWrite` wrote is the value cut to the field (R35). -/
theorem readField_writeField (m : Mem) (a n v : Nat) :
    Mem.readField (Mem.writeField m a n v) a n = .ok (v % 256 ^ n) := by
  have h := readBytes_writeBytes m a (bigEndianBytes n v)
  rw [bigEndianBytes_length] at h
  simp only [Mem.readField, Mem.writeField, h, bigEndian_bigEndianBytes]

/-- `MemWrite` puts the most significant byte first (R35). -/
theorem read_writeField (m : Mem) (a v : Nat) {n k : Nat} (hk : k < n) :
    Mem.read (Mem.writeField m a n v) (a + k) = some (BitVec.ofNat 8 (v / 256 ^ (n - 1 - k))) := by
  rw [Mem.writeField, read_writeBytes_add m a (by simpa using hk), bigEndianBytes_getElem? v hk]

/-- Settles O34: the bytes written are the bytes read, and assembling them is a fold that shifts by one byte. -/
theorem fieldsAreBigEndian : Obligations.FieldsAreBigEndian :=
  fun m a n v => ⟨readField_writeField m a n v, fun _ hk => read_writeField m a v hk⟩

end Sys2Proof.Machine
end

section
/-! What an operation that START can select leaves alone (R24): each is a sequence of framed steps. -/

namespace Sys2Proof.Machine

theorem framed_execEncode : Framed execEncode :=
  framed_operation (by simp [framed_beginEncode, framed_emitHeader, framed_emitLength, framed_emitBody,
    framed_finishStep])

theorem framed_execDecode : Framed execDecode :=
  framed_operation (by simp [beforeHeader, legalitySteps, afterOpcode, afterLength, framed_startCursor,
    framed_requireInput, framed_fetchHeader, framed_checkReserved, framed_checkOpcode, framed_readLength,
    framed_checkRange, framed_readKeyIfMasked, framed_checkExtent, framed_readPayload, framed_deliver])

theorem framed_execXform : Framed execXform :=
  framed_operation (by simp [framed_loadCmdKey, framed_transformInput, framed_finishStep])

/-- The reserved code answers no next state (R67). -/
theorem framed_execCmdReserved : Framed execCmdReserved := fun _ _ h => nomatch h

theorem framed_decodeCommand (c : BitVec 2) : Framed (exec (decodeCommand c)) := by
  rw [decodeCommand]
  split
  · exact framed_execEncode
  · split
    · exact framed_execDecode
    · split
      · exact framed_execXform
      · exact framed_execCmdReserved

end Sys2Proof.Machine
end

section
/-! What each move can do when it answers a next state, said once per move (R12, R13, R23, R170). -/

namespace Sys2Proof.Machine

variable {s t : State}

/-- An operand write is made outside BUSY (R13, R174). -/
theorem hostWrite_next {f : State → State} (h : hostWrite f s = .next t) : s.ph ≠ .busy ∧ t = f s := by
  rw [hostWrite] at h
  split at h
  · cases h
  all_goals
    next hp =>
    cases h
    exact ⟨by simp [hp], rfl⟩

/-- START is accepted outside BUSY when nothing keeps the selected operation from it (R12, R172). -/
theorem start_next (h : start s = .next t) :
    s.ph ≠ .busy ∧ (∃ i, fetch s = some i ∧ startProblem i s = none) ∧ t = beginOperation s := by
  rw [start] at h
  split at h
  · cases h
  all_goals
    next hp =>
    obtain ⟨i, hi, h⟩ := need_next h
    split at h
    · cases h
    · next hs =>
      cases h
      exact ⟨by simp [hp], ⟨i, hi, hs⟩, rfl⟩

/-- EXECUTE performs in BUSY the operation that CMD_OP selects (R12). -/
theorem execute_next (h : execute s = .next t) :
    s.ph = .busy ∧ ∃ c, s.cmdOp = some c ∧ exec (decodeCommand c) s = .next t := by
  rw [execute] at h
  split at h
  · next hp =>
    obtain ⟨i, hi, h⟩ := need_next h
    obtain ⟨c, hc, rfl⟩ := Option.map_eq_some_iff.mp hi
    exact ⟨hp, c, hc, h⟩
  all_goals cases h

/-! ### Host reads: the answer stands in `rdata` -/

theorem answer_next {n : Nat} (h : answer n s = .next t) : ∃ n, t = { s with rdata := some n } := by
  cases h
  exact ⟨n, rfl⟩

theorem need_answer_next {α : Type} {r : Reg} {v : Option α} {f : α → Nat}
    (h : need r v (fun a => answer (f a) s) = .next t) : ∃ n, t = { s with rdata := some n } := by
  obtain ⟨_, -, h⟩ := need_next h
  exact answer_next h

theorem readOperand_next {r : Reg} {v : Option Nat} (h : readOperand r v s = .next t) :
    ∃ n, t = { s with rdata := some n } := by
  rw [readOperand] at h
  split at h
  · cases h
  all_goals exact need_answer_next h

theorem readResult_next {r : Reg} {v : Option Nat} (h : readResult r v s = .next t) :
    ∃ n, t = { s with rdata := some n } := by
  rw [readResult] at h
  split at h
  · cases h
  · cases h
  · exact need_answer_next h

theorem readInputByte_next {a : Nat} (h : readInputByte a s = .next t) : ∃ n, t = { s with rdata := some n } := by
  rw [readInputByte] at h
  split at h
  · cases h
  all_goals
    obtain ⟨_, -, h⟩ := need_next h
    split at h
    · cases h
    · exact need_answer_next h

theorem readOutputByte_next {a : Nat} (h : readOutputByte a s = .next t) :
    ∃ n, t = { s with rdata := some n } := by
  rw [readOutputByte] at h
  split at h
  · cases h
  · cases h
  · obtain ⟨_, -, h⟩ := need_next h
    split at h
    · cases h
    · exact need_answer_next h

/-- A host read changes nothing but the answer (R23). -/
theorem hostRead_next {r : Reg} (h : hostRead r s = .next t) : ∃ n, t = { s with rdata := some n } := by
  cases r with
  | ph => exact answer_next h
  | cmdKey j => fin_cases j <;> exact readOperand_next h
  | cmdOp | cmdOpcode | cmdHasKey | ilen => exact readOperand_next h
  | olen | resStatus | resReason | resFin | resOpcode => exact readResult_next h
  | ibuf a => exact readInputByte_next h
  | obuf a => exact readOutputByte_next h
  | hdr | fin | rsv1 | rsv2 | rsv3 | opc | mskf | base | hi | lo | len | pos | keyw | idx => cases h

end Sys2Proof.Machine
end

section
/-! PAYLOAD_MAX is a parameter (R4, D2): no move of the host, the platform or the block changes it. -/

namespace Sys2Proof.Machine

variable {s t : State}

theorem payloadMax_of_sameOperands (h : sameOperands s t) : t.payloadMax = s.payloadMax := by
  obtain ⟨_, _, _, _, _, _, _, _, rfl⟩ := h
  rfl

@[simp] theorem writeKeyByte_payloadMax (j : Fin 4) (v : Byte) (s : State) :
    (writeKeyByte j v s).payloadMax = s.payloadMax := by
  fin_cases j <;> rfl

theorem execute_payloadMax (h : execute s = .next t) : t.payloadMax = s.payloadMax := by
  obtain ⟨-, c, -, h⟩ := execute_next h
  exact payloadMax_of_sameOperands (framed_decodeCommand c s t h)

theorem perform_payloadMax {m : Move} (h : perform m s = .next t) : t.payloadMax = s.payloadMax := by
  cases m with
  | writeOp _ | writeOpcode _ | writeHasKey _ | writeIlen _ | writeIbuf _ _ =>
    rw [perform] at h
    obtain ⟨-, rfl⟩ := hostWrite_next h
    rfl
  | writeKey j v =>
    obtain ⟨-, rfl⟩ := hostWrite_next h
    exact writeKeyByte_payloadMax j v s
  | writeKey32 v =>
    obtain ⟨-, rfl⟩ := hostWrite_next h
    exact writeKeyAll_payloadMax s (keyOfWord v)
  | start =>
    obtain ⟨-, -, rfl⟩ := start_next h
    exact beginOperation_payloadMax s
  | read r =>
    obtain ⟨_, rfl⟩ := hostRead_next h
    rfl
  | reset =>
    cases h
    rfl
  | execute => exact execute_payloadMax h

theorem idleStep_payloadMax (h : idleStep s = .next t) : t.payloadMax = s.payloadMax := by
  rw [idleStep] at h
  split at h
  · exact execute_payloadMax h
  all_goals
    cases h
    rfl

/-- Settles O55: a step is the next pending move, or the block's own, and each keeps the field. -/
theorem payloadMaxNeverChanges : Obligations.PayloadMaxNeverChanges := by
  intro s t h
  rw [step, nextMove] at h
  split at h
  · exact idleStep_payloadMax h
  · next rest _ => exact perform_payloadMax (s := { s with pending := rest }) h

end Sys2Proof.Machine
end

section
/-! What each operation comes to on operands that are held (R89, R109, R137), and that ENCODE and XFORM answer a
next state only then. -/

namespace Sys2Proof.Machine

variable {s t : State}

/-! ### What a step that answers a next state has read -/

/-- The first step answers; the rest run on while it stays in BUSY (R148). -/
theorem runSteps_cons_next {f : Action} {fs : List Action} (h : runSteps (f :: fs) s = .next t) :
    ∃ u, f s = .next u ∧ (u.ph = .busy → runSteps fs u = .next t) ∧ (u.ph ≠ .busy → t = u) := by
  rw [runSteps] at h
  split at h
  · next u hu =>
    refine ⟨u, hu, fun hb => ?_, fun hb => ?_⟩
    · rwa [if_pos hb] at h
    · rw [if_neg hb] at h
      cases h
      rfl
  · cases h
  · cases h

theorem needInput_ok {a n : Nat} {k : List Byte → Result} (h : needInput s a n k = .next t) :
    ∃ d, s.ibuf.readBytes a n = .ok d ∧ k d = .next t := by
  rw [needInput] at h
  split at h
  · next d hd => exact ⟨d, hd, h⟩
  · cases h

theorem inputBytes_of_readBytes {n : BitVec 64} {b : List Byte} (hn : s.ilen = some n)
    (hb : s.ibuf.readBytes 0 n.toNat = .ok b) : s.inputBytes = some b := by
  simp only [State.inputBytes, hn, hb]

theorem needCmdKey_next {k : Key → Result} (h : needCmdKey s k = .next t) :
    ∃ key, s.cmdKey = some key ∧ k key = .next t := by
  obtain ⟨b0, h0, h⟩ := need_next h
  obtain ⟨b1, h1, h⟩ := need_next h
  obtain ⟨b2, h2, h⟩ := need_next h
  obtain ⟨b3, h3, h⟩ := need_next h
  exact ⟨Key.mk b0 b1 b2 b3, by simp only [State.cmdKey, h0, h1, h2, h3], h⟩

theorem loadCmdKey_next (h : loadCmdKey s = .next t) :
    ∃ k, s.cmdKey = some k ∧ t = setWork { s.work with keyw := some k } s := by
  obtain ⟨k, hk, h⟩ := needCmdKey_next h
  cases h
  exact ⟨k, hk, rfl⟩

/-! ### DECODE -/

/-- DECODE, whole: the answer of the pure function on the input bytes (R109). -/
theorem execDecode_endDecode {b : List Byte} (hb : s.ph = .busy) (h : s.inputBytes = some b) :
    execDecode s = .next (endDecode s (decodeBytes s.payloadMax.toNat b)) := by
  rw [execDecode_run hb h]
  match b, h with
  | [], _ | [_], _ => rfl
  | x :: y :: r, h =>
    have hu := afterUnpack_unpacked hb h (by simp) (be16 x y)
    simp only [hu.legality, decodeBytes, decodeAfterHeader]
    cases violationOf (be16 x y) with
    | some v => rfl
    | none => exact hu.runAfterOpcode

/-! ### XFORM -/

theorem execXform_run {d : List Byte} {k : Key} (hb : s.ph = .busy) (h : s.inputBytes = some d)
    (hk : s.cmdKey = some k) : execXform s = .next (finish none none (setOutput (transform d k) s)) := by
  have h2 := transformInput_run (s := setWork { s.work with keyw := some k } s) h rfl
  rw [execXform, operation_busy hb, runSteps_go (loadCmdKey_run hk) hb, runSteps_go h2 hb]
  rfl

/-- XFORM answers only when its key and its input are held (R21, R137). -/
theorem execXform_operands (h : execXform s = .next t) :
    s.ph = .busy ∧ ∃ d k, s.inputBytes = some d ∧ s.cmdKey = some k := by
  obtain ⟨hb, h⟩ := operation_next h
  obtain ⟨u, hu, hgo, -⟩ := runSteps_cons_next h
  obtain ⟨k, hk, rfl⟩ := loadCmdKey_next hu
  obtain ⟨v, hv, -⟩ := runSteps_cons_next (hgo hb)
  obtain ⟨n, hn, hv⟩ := need_next hv
  obtain ⟨d, hd, -⟩ := needInput_ok hv
  exact ⟨hb, d, k, inputBytes_of_readBytes hn hd, hk⟩

/-! ### ENCODE -/

/-- What ENCODE reads: an opcode, the flag, a key when the flag is 1, and the payload (R89). -/
structure EncodeOperands (s : State) (o : BitVec 4) (key : Option Key) (p : List Byte) : Prop where
  opcode : s.cmdOpcode = some o
  flag : s.cmdHasKey = some key.isSome
  key : ∀ k, key = some k → s.cmdKey = some k
  input : s.inputBytes = some p

/-- The bytes before the key: header byte and length field (R81 to R86). -/
theorem encodeFront_run {o : BitVec 4} {m : Bool} {n : BitVec 64} (hb : s.ph = .busy)
    (ho : s.cmdOpcode = some o) (hm : s.cmdHasKey = some m) (hn : s.ilen = some n) :
    ∃ w, w.mskf = some m ∧ w.len = some n ∧
      execEncode s = runSteps [emitBody, finishStep]
        (setOutput (headerByte o :: lengthField m n.toNat) (setWork w s)) := by
  have h1 : beginEncode s = .next (setOutput [] (setWork { s.work with mskf := some m, len := some n } s)) := by
    rw [beginEncode, hm, need_some, hn, need_some]
  have h2 := emitHeader_run (s := setWork { s.work with mskf := some m, len := some n } s) [] (by simp) ho
  obtain ⟨w, hwm, hwl, h3⟩ := emitLength_run (n := n.toNat)
    (s := setWork { s.work with mskf := some m, len := some n } s) [headerByte o] (by simp) n.isLt rfl (by simp)
  refine ⟨w, hwm, hwl, ?_⟩
  rw [execEncode, operation_busy hb, runSteps_go h1 hb, runSteps_go h2 hb, List.nil_append, runSteps_go h3 hb]
  rfl

/-- The header byte and the length field are at most ten bytes (R54). -/
theorem encodeFront_length (o : BitVec 4) (m : Bool) (n : Nat) :
    (headerByte o :: lengthField m n).length ≤ 10 := by
  have := lengthFieldSize_le n
  rw [List.length_cons, lengthField_length]
  omega

/-- The masked flag decides between the payload in clear and the key with the masked payload (R87, R88). -/
theorem emitBody_clear (h : s.work.mskf = some false) : emitBody s = emitPayload s := by
  rw [emitBody, h, need_some]
  rfl

theorem emitBody_masked (h : s.work.mskf = some true) :
    emitBody s = runSteps [loadCmdKey, emitKey, emitMaskedPayload] s := by
  rw [emitBody, h, need_some]
  rfl

/-- The key in clear, then the masked payload, after the bytes `bs` (R87, R88). -/
theorem emitBody_masked_run {p bs : List Byte} {k : Key} (hb : s.ph = .busy) (h : s.inputBytes = some p)
    (hk : s.cmdKey = some k) (hm : s.work.mskf = some true) (hl : s.work.len = some (BitVec.ofNat 64 p.length))
    (hs : bs.length ≤ 10) :
    ∃ w, emitBody (setOutput bs s) = .next (setOutput (bs ++ k.bytes ++ transform p k) (setWork w s)) := by
  have h1 : loadCmdKey (setOutput bs s) = .next (setOutput bs (setWork { s.work with keyw := some k } s)) :=
    loadCmdKey_run (s := setOutput bs s) hk
  have h2 := emitKey_run (s := setWork { s.work with keyw := some k } s) rfl bs (by omega)
  have hlen : (bs ++ k.bytes).length < 2 ^ 64 := by
    simp only [List.length_append, Key.bytes, List.length_cons, List.length_nil]
    omega
  have h3 := emitMaskedPayload_run (s := setWork { s.work with keyw := some k } s) h hl rfl (bs ++ k.bytes) hlen
  exact ⟨_, (emitBody_masked (s := setOutput bs s) hm).trans <| (runSteps_go h1 hb).trans <|
    (runSteps_go h2 hb).trans <| runSteps_go h3 hb⟩

/-- ENCODE, whole: the frame of the pure function (R89). -/
theorem execEncode_run {o : BitVec 4} {key : Option Key} {p : List Byte} (hb : s.ph = .busy)
    (h : EncodeOperands s o key p) :
    execEncode s = .next (finish none none (setOutput (encodeBytes o key p) s)) := by
  obtain ⟨n, hn, hl, -⟩ := inputBytes_eq_some h.input
  have hnp : n = BitVec.ofNat 64 p.length := by rw [← hl, BitVec.ofNat_toNat, BitVec.setWidth_eq]
  obtain ⟨w, hwm, hwl, hrun⟩ := encodeFront_run hb h.opcode h.flag hn
  rw [hrun, hl]
  have hs := encodeFront_length o key.isSome p.length
  cases key with
  | none =>
    have hbody := emitPayload_run (s := setWork w s) h.input (hwl.trans (congrArg some hnp)) _
      (lt_of_le_of_lt hs (by decide))
    rw [← emitBody_clear hwm] at hbody
    rw [runSteps_go hbody hb]
    rfl
  | some k =>
    obtain ⟨w', hbody⟩ := emitBody_masked_run (s := setWork w s) hb h.input (h.key k rfl) hwm
      (hwl.trans (congrArg some hnp)) hs
    rw [runSteps_go hbody hb]
    rfl

/-- The body of a frame reads the payload, and a key when it is masked (R87, R88). -/
theorem emitBody_operands {m : Bool} {n : BitVec 64} (hb : s.ph = .busy) (hn : s.ilen = some n)
    (hm : s.work.mskf = some m) (hl : s.work.len = some n) (h : emitBody s = .next t) :
    (∃ p, s.inputBytes = some p) ∧ (m = true → ∃ k, s.cmdKey = some k) := by
  cases m with
  | false =>
    rw [emitBody_clear hm] at h
    obtain ⟨l, hl', h⟩ := need_next h
    cases hl.symm.trans hl'
    obtain ⟨p, hp, -⟩ := needInput_ok h
    exact ⟨⟨p, inputBytes_of_readBytes hn hp⟩, nofun⟩
  | true =>
    rw [emitBody_masked hm] at h
    obtain ⟨u, hu, hgo, -⟩ := runSteps_cons_next h
    obtain ⟨k, hk, rfl⟩ := loadCmdKey_next hu
    obtain ⟨v, hv, hgo, -⟩ := runSteps_cons_next (hgo hb)
    obtain ⟨_, -, hv⟩ := need_next hv
    obtain ⟨_, -, hv⟩ := need_next hv
    cases hv
    obtain ⟨_, hw, -⟩ := runSteps_cons_next (hgo hb)
    obtain ⟨l, hl', hw⟩ := need_next hw
    cases hl.symm.trans hl'
    obtain ⟨p, hp, -⟩ := needInput_ok hw
    exact ⟨⟨p, inputBytes_of_readBytes hn hp⟩, fun _ => ⟨k, hk⟩⟩

/-- ENCODE answers only when its operands are held (R21, R89). -/
theorem execEncode_operands (h : execEncode s = .next t) :
    s.ph = .busy ∧ ∃ o key p, EncodeOperands s o key p := by
  have ⟨hb, hsteps⟩ := operation_next h
  obtain ⟨u, hu, hgo, -⟩ := runSteps_cons_next hsteps
  obtain ⟨m, hm, hu⟩ := need_next hu
  obtain ⟨n, hn, hu⟩ := need_next hu
  cases hu
  obtain ⟨v, hv, -⟩ := runSteps_cons_next (hgo hb)
  obtain ⟨o, ho, -⟩ := need_next hv
  obtain ⟨w, hwm, hwl, hrun⟩ := encodeFront_run hb ho hm hn
  rw [hrun] at h
  obtain ⟨x, hx, -⟩ := runSteps_cons_next h
  obtain ⟨⟨p, hp⟩, hkey⟩ := emitBody_operands (s := setOutput _ (setWork w s)) hb hn hwm hwl hx
  cases m with
  | false => exact ⟨hb, o, none, p, ho, hm, nofun, hp⟩
  | true =>
    obtain ⟨k, hk⟩ := hkey rfl
    exact ⟨hb, o, some k, p, ho, hm, fun _ e => e ▸ hk, hp⟩

end Sys2Proof.Machine
end

section
/-! What START demands of each operation, both ways: what is held once it finds no problem, and that it finds none
when that is held (R13, R14, R21, R67, R172). -/

namespace Sys2Proof.Machine

variable {s t : State}

theorem registerProblem_eq_none {α : Type} {r : Reg} {v : Option α} :
    registerProblem r v = none ↔ ∃ a, v = some a := by
  cases v <;> simp [registerProblem]

theorem keyProblem_eq_none : keyProblem s = none ↔ ∃ k, s.cmdKey = some k :=
  ⟨keyProblem_none, fun ⟨_, h⟩ => keyProblem_held h⟩

theorem inputProblem_eq_none {n : Nat} : inputProblem n s = none ↔ ∃ b, s.inputBytes = some b ∧ b.length ≤ n :=
  ⟨inputProblem_none, fun ⟨_, h, hn⟩ => inputProblem_held h hn⟩

theorem startProblem_encode_eq_none :
    startProblem .encode s = none ↔
      ∃ o key p, EncodeOperands s o key p ∧ p.length ≤ s.payloadMax.toNat := by
  simp only [startProblem, Option.orElse_eq_none, registerProblem_eq_none, inputProblem_eq_none]
  constructor
  · rintro ⟨⟨o, ho⟩, ⟨m, hm⟩, hk, p, hp, hl⟩
    cases m with
    | false => exact ⟨o, none, p, ⟨ho, hm, nofun, hp⟩, hl⟩
    | true =>
      rw [if_pos hm] at hk
      obtain ⟨k, hk⟩ := keyProblem_none hk
      exact ⟨o, some k, p, ⟨ho, hm, fun _ e => e ▸ hk, hp⟩, hl⟩
  · rintro ⟨o, key, p, h, hl⟩
    refine ⟨⟨o, h.opcode⟩, ⟨_, h.flag⟩, ?_, p, h.input, hl⟩
    cases key with
    | none => rw [h.flag]; rfl
    | some k => rw [keyProblem_held (h.key k rfl), ite_self]

theorem startProblem_decode_eq_none :
    startProblem .decode s = none ↔ ∃ b, s.inputBytes = some b ∧ b.length ≤ Config.frameMax s.payloadMax :=
  inputProblem_eq_none

theorem startProblem_xform_eq_none :
    startProblem .xform s = none ↔
      (∃ k, s.cmdKey = some k) ∧ ∃ d, s.inputBytes = some d ∧ d.length ≤ s.payloadMax.toNat := by
  simp only [startProblem, Option.orElse_eq_none, keyProblem_eq_none, inputProblem_eq_none]

/-- START finds no problem with one of the three operations only (R67). -/
theorem startProblem_eq_none {i : Instr} (h : startProblem i s = none) :
    i = .encode ∨ i = .decode ∨ i = .xform := by
  cases i with
  | encode => exact .inl rfl
  | decode => exact .inr (.inl rfl)
  | xform => exact .inr (.inr rfl)
  | _ => cases h

/-- What every operation reads: input bytes, at most FRAME_MAX of them (R14). -/
theorem startProblem_input {i : Instr} (h : startProblem i s = none) :
    ∃ b, s.inputBytes = some b ∧ b.length ≤ Config.frameMax s.payloadMax := by
  obtain rfl | rfl | rfl := startProblem_eq_none h
  · obtain ⟨_, _, p, ho, hl⟩ := startProblem_encode_eq_none.mp h
    exact ⟨p, ho.input, hl.trans (Nat.le_add_right _ 14)⟩
  · exact startProblem_decode_eq_none.mp h
  · obtain ⟨-, d, hd, hl⟩ := startProblem_xform_eq_none.mp h
    exact ⟨d, hd, hl.trans (Nat.le_add_right _ 14)⟩

/-! ### START itself -/

/-- START is accepted outside BUSY when it finds no problem (R12). -/
theorem start_accepts {i : Instr} (hb : s.ph ≠ .busy) (hi : fetch s = some i) (hp : startProblem i s = none) :
    start s = .next (beginOperation s) := by
  cases h : s.ph with
  | busy => exact absurd h hb
  | idle | done => simp only [start, h, hi, hp, need_some]

/-- START is refused, in every phase, when it finds a problem (R12, R21). -/
theorem start_refuses (h : ∀ i, fetch s = some i → startProblem i s ≠ none) : s.refuses .start := by
  simp only [State.refuses, perform, start]
  cases s.ph with
  | busy => exact ⟨_, rfl⟩
  | idle | done =>
    cases hf : fetch s with
    | none => exact ⟨_, rfl⟩
    | some i =>
      obtain ⟨r, hr⟩ := Option.ne_none_iff_exists'.mp (h i hf)
      exact ⟨r, by simp only [need_some, hr]⟩

theorem fetch_of_cmdOp {c : BitVec 2} (h : s.cmdOp = some c) : fetch s = some (decodeCommand c) := by
  rw [fetch, h, Option.map_some]

/-- Settles O46: with every operand held and ILEN in bounds START finds no problem. -/
theorem startBeginsTheOperation : Obligations.StartBeginsTheOperation := by
  intro s b hb hin
  refine ⟨fun hc ho hk hl => ?_, fun hc hl => ?_, fun hc hk hl => ?_⟩
  · obtain ⟨o, ho⟩ := Option.isSome_iff_exists.mp ho
    refine start_accepts hb (fetch_of_cmdOp hc) (startProblem_encode_eq_none.mpr ?_)
    rcases hk with hf | ⟨hf, hk⟩
    · exact ⟨o, none, b, ⟨ho, hf, nofun, hin⟩, hl⟩
    · obtain ⟨k, hk⟩ := Option.isSome_iff_exists.mp hk
      exact ⟨o, some k, b, ⟨ho, hf, fun _ e => e ▸ hk, hin⟩, hl⟩
  · exact start_accepts hb (fetch_of_cmdOp hc) (startProblem_decode_eq_none.mpr ⟨b, hin, hl⟩)
  · exact start_accepts hb (fetch_of_cmdOp hc)
      (startProblem_xform_eq_none.mpr ⟨Option.isSome_iff_exists.mp hk, b, hin, hl⟩)

/-! ### START refused -/

/-- START of an operation whose input bytes are not all held is refused (R21). -/
theorem start_refuses_input (h : s.inputBytes = none) : s.refuses .start :=
  start_refuses fun i _ hp => by
    obtain ⟨b, hb, -⟩ := startProblem_input hp
    exact nomatch h.symm.trans hb

theorem inputBytes_of_ilen_none (h : s.ilen = none) : s.inputBytes = none := by
  simp only [State.inputBytes, h]

/-- One byte below ILEN that holds no value is enough for the input not to be held (R21). -/
theorem inputBytes_of_missing {n : BitVec 64} {a : Nat} (hn : s.ilen = some n) (ha : a < n.toNat)
    (hr : Mem.read s.ibuf a = none) : s.inputBytes = none := by
  rw [Option.eq_none_iff_forall_ne_some]
  intro b hb
  obtain ⟨m, hm, hl, hbs⟩ := inputBytes_eq_some hb
  cases hn.symm.trans hm
  have := ((readBytes_ok_iff _ _ _ _).mp hbs).2 a (hl ▸ ha)
  rw [Nat.zero_add, hr, List.getElem?_eq_getElem (hl ▸ ha)] at this
  cases this

/-- START of ENCODE is refused when an operand that ENCODE reads holds no value (R21). -/
theorem start_refuses_encode (hc : s.cmdOp = some 0#2)
    (h : s.cmdOpcode = none ∨ s.cmdHasKey = none ∨ s.cmdHasKey = some true ∧ s.cmdKey = none) :
    s.refuses .start := by
  refine start_refuses fun i hi hp => ?_
  cases (fetch_of_cmdOp hc).symm.trans hi
  obtain ⟨o, key, p, ho, -⟩ := startProblem_encode_eq_none.mp hp
  rcases h with h | h | ⟨hf, hk⟩
  · exact nomatch h.symm.trans ho.opcode
  · exact nomatch h.symm.trans ho.flag
  · cases key with
    | none => exact nomatch hf.symm.trans ho.flag
    | some k => exact nomatch hk.symm.trans (ho.key k rfl)

/-- START of XFORM is refused when the key holds no value (R21). -/
theorem start_refuses_xform (hc : s.cmdOp = some 2#2) (h : s.cmdKey = none) : s.refuses .start := by
  refine start_refuses fun i hi hp => ?_
  cases (fetch_of_cmdOp hc).symm.trans hi
  obtain ⟨⟨k, hk⟩, -⟩ := startProblem_xform_eq_none.mp hp
  exact nomatch h.symm.trans hk

/-- Settles O48: input bytes that START accepts are within the bound of their operation, and as many as ILEN. -/
theorem startRefusesOverlongInput : Obligations.StartRefusesOverlongInput := by
  intro s n hn h
  have hlen : ∀ b, s.inputBytes = some b → b.length = n.toNat := fun b hb => by
    obtain ⟨m, hm, hl, -⟩ := inputBytes_eq_some hb
    cases hn.symm.trans hm
    exact hl.symm
  refine start_refuses fun i hi hp => ?_
  rcases h with ⟨hc | hc, hl⟩ | ⟨hc, hl⟩ <;> cases (fetch_of_cmdOp hc).symm.trans hi
  · obtain ⟨_, _, p, ho, hb⟩ := startProblem_encode_eq_none.mp hp
    have := hlen p ho.input
    omega
  · obtain ⟨-, d, hd, hb⟩ := startProblem_xform_eq_none.mp hp
    have := hlen d hd
    omega
  · obtain ⟨b, hin, hb⟩ := startProblem_decode_eq_none.mp hp
    have := hlen b hin
    rw [Config.frameMax] at hb
    omega

end Sys2Proof.Machine
end

section
/-! What each access of the host does, phase by phase (R13, R21, R23, R30, R146, R174 to R176). -/

namespace Sys2Proof.Machine

variable {s t : State} {r : Reg} {a : Nat}

/-! ### The equations of the shared accesses -/

theorem hostWrite_busy (hb : s.ph = .busy) (f : State → State) : hostWrite f s = .refused .hostAccessWhileBusy := by
  simp only [hostWrite, hb]

theorem hostWrite_free (hb : s.ph ≠ .busy) (f : State → State) : hostWrite f s = .next (f s) := by
  cases h : s.ph with
  | busy => exact absurd h hb
  | idle | done => simp only [hostWrite, h]

theorem readOperand_busy (hb : s.ph = .busy) (v : Option Nat) :
    readOperand r v s = .refused .hostAccessWhileBusy := by
  simp only [readOperand, hb]

theorem readOperand_free (hb : s.ph ≠ .busy) (v : Option Nat) :
    readOperand r v s = need r v fun n => answer n s := by
  cases h : s.ph with
  | busy => exact absurd h hb
  | idle | done => simp only [readOperand, h]

theorem readResult_busy (hb : s.ph = .busy) (v : Option Nat) :
    readResult r v s = .refused .hostAccessWhileBusy := by
  simp only [readResult, hb]

theorem readResult_idle (hi : s.ph = .idle) (v : Option Nat) : readResult r v s = .refused .noResultYet := by
  simp only [readResult, hi]

theorem readResult_done (hd : s.ph = .done) (v : Option Nat) :
    readResult r v s = need r v fun n => answer n s := by
  simp only [readResult, hd]

theorem readInputByte_busy (hb : s.ph = .busy) : readInputByte a s = .refused .hostAccessWhileBusy := by
  simp only [readInputByte, hb]

theorem readInputByte_free (hb : s.ph ≠ .busy) :
    readInputByte a s = need .ilen s.ilen fun n =>
      if n.toNat ≤ a then .fault (.noSuchOffset (.ibuf a))
      else need (.ibuf a) (s.ibuf.read a) fun v => answer v.toNat s := by
  cases h : s.ph with
  | busy => exact absurd h hb
  | idle | done => simp only [readInputByte, h]

theorem readOutputByte_busy (hb : s.ph = .busy) : readOutputByte a s = .refused .hostAccessWhileBusy := by
  simp only [readOutputByte, hb]

theorem readOutputByte_idle (hi : s.ph = .idle) : readOutputByte a s = .refused .noResultYet := by
  simp only [readOutputByte, hi]

theorem readOutputByte_done (hd : s.ph = .done) :
    readOutputByte a s = need .olen s.olen fun n =>
      if n.toNat ≤ a then .fault (.noSuchOffset (.obuf a))
      else need (.obuf a) (s.obuf.read a) fun v => answer v.toNat s := by
  simp only [readOutputByte, hd]

theorem readInputByte_at {n : BitVec 64} (hb : s.ph ≠ .busy) (hn : s.ilen = some n) :
    readInputByte a s =
      if n.toNat ≤ a then .fault (.noSuchOffset (.ibuf a))
      else need (.ibuf a) (s.ibuf.read a) fun v => answer v.toNat s := by
  rw [readInputByte_free hb, hn, need_some]

theorem readOutputByte_at {n : BitVec 64} (hd : s.ph = .done) (hn : s.olen = some n) :
    readOutputByte a s =
      if n.toNat ≤ a then .fault (.noSuchOffset (.obuf a))
      else need (.obuf a) (s.obuf.read a) fun v => answer v.toNat s := by
  rw [readOutputByte_done hd, hn, need_some]

/-! ### What is held is answered -/

section
variable {α : Type} {v : Option α} {x : α} {f : α → Nat}

theorem readOperand_held (hb : s.ph ≠ .busy) (h : v = some x) :
    readOperand r (v.map f) s = .next { s with rdata := some (f x) } := by
  rw [readOperand_free hb, h]
  rfl

theorem readResult_held (hd : s.ph = .done) (h : v = some x) :
    readResult r (v.map f) s = .next { s with rdata := some (f x) } := by
  rw [readResult_done hd, h]
  rfl

/-! ### What holds no value is refused (R21) -/

theorem readOperand_none (h : v = none) : ∃ e, readOperand r (v.map f) s = .refused e := by
  rw [h]
  by_cases hb : s.ph = .busy
  · exact ⟨_, readOperand_busy hb _⟩
  · exact ⟨_, readOperand_free hb _⟩

theorem readResult_none (h : v = none) : ∃ e, readResult r (v.map f) s = .refused e := by
  rw [h]
  cases hp : s.ph with
  | idle => exact ⟨_, readResult_idle hp _⟩
  | busy => exact ⟨_, readResult_busy hp _⟩
  | done => exact ⟨_, readResult_done hp _⟩

end

theorem readInputByte_none (hb : s.ph ≠ .busy)
    (h : s.ilen = none ∨ ∃ n, s.ilen = some n ∧ a < n.toNat ∧ Mem.read s.ibuf a = none) :
    ∃ e, readInputByte a s = .refused e := by
  obtain h | ⟨n, hn, ha, hr⟩ := h
  · exact ⟨_, by rw [readInputByte_free hb, h, need_none]⟩
  · exact ⟨_, by rw [readInputByte_at hb hn, if_neg (by omega), hr, need_none]⟩

theorem readOutputByte_none (hb : s.ph ≠ .busy)
    (h : s.olen = none ∨ ∃ n, s.olen = some n ∧ a < n.toNat ∧ Mem.read s.obuf a = none) :
    ∃ e, readOutputByte a s = .refused e := by
  cases hp : s.ph with
  | busy => exact absurd hp hb
  | idle => exact ⟨_, readOutputByte_idle hp⟩
  | done =>
    obtain h | ⟨n, hn, ha, hr⟩ := h
    · exact ⟨_, by rw [readOutputByte_done hp, h, need_none]⟩
    · exact ⟨_, by rw [readOutputByte_at hp hn, if_neg (by omega), hr, need_none]⟩

/-- Settles O47: START finds an operand missing, and a read finds the register or the byte missing. -/
theorem whatHoldsNoValueIsRefused : Obligations.WhatHoldsNoValueIsRefused := by
  intro s hb
  refine ⟨?_, readOperand_none, readOperand_none, readOperand_none, readOperand_none, readOperand_none,
    readOperand_none, readOperand_none, fun h => ⟨readOperand_none h, fun _ => readInputByte_none hb (.inl h)⟩,
    fun n _ hn ha hr => readInputByte_none hb (.inr ⟨n, hn, ha, hr⟩), readResult_none, readResult_none,
    readResult_none, readResult_none,
    fun h => ⟨readResult_none h, fun _ => readOutputByte_none hb (.inl h)⟩,
    fun n _ hn ha hr => readOutputByte_none hb (.inr ⟨n, hn, ha, hr⟩)⟩
  rintro (hc | ⟨hc, h⟩ | ⟨hc, h⟩ | h | ⟨n, a, hn, ha, hr⟩)
  · exact start_refuses fun i hi => by
      rw [fetch, hc] at hi
      cases hi
  · exact start_refuses_encode hc h
  · exact start_refuses_xform hc h
  · exact start_refuses_input (inputBytes_of_ilen_none h)
  · exact start_refuses_input (inputBytes_of_missing hn ha hr)

/-- In BUSY a host read of anything but PH is refused (R23, R174). -/
theorem hostRead_busy (hb : s.ph = .busy) (hr : r ≠ .ph) : ∃ e, hostRead r s = .refused e := by
  cases r with
  | ph => exact absurd rfl hr
  | cmdKey j => fin_cases j <;> exact ⟨_, readOperand_busy hb _⟩
  | cmdOp | cmdOpcode | cmdHasKey | ilen => exact ⟨_, readOperand_busy hb _⟩
  | olen | resStatus | resReason | resFin | resOpcode => exact ⟨_, readResult_busy hb _⟩
  | ibuf a => exact ⟨_, readInputByte_busy hb⟩
  | obuf a => exact ⟨_, readOutputByte_busy hb⟩
  | hdr | fin | rsv1 | rsv2 | rsv3 | opc | mskf | base | hi | lo | len | pos | keyw | idx => exact ⟨_, rfl⟩

/-- Settles O49: a write, a START and a read each refuse the phase BUSY. -/
theorem busyLeavesTheHostNoMove : Obligations.BusyLeavesTheHostNoMove := by
  intro s m hb hx hr hph
  cases m with
  | writeOp _ | writeOpcode _ | writeHasKey _ | writeKey _ _ | writeKey32 _ | writeIlen _ | writeIbuf _ _ =>
    exact ⟨.hostAccessWhileBusy, by rw [perform, hostWrite_busy hb]⟩
  | start => exact ⟨.startWhileBusy, by simp only [perform, start, hb]⟩
  | read r => exact hostRead_busy hb fun h => hph (h ▸ rfl)
  | reset => exact absurd rfl hr
  | execute => exact absurd rfl hx

/-- The four bytes of the key port, first wire byte most significant (R13, D8). -/
theorem keyOfWord_eq (v : BitVec 32) :
    keyOfWord v = Key.mk (v.extractLsb' 24 8) (v.extractLsb' 16 8) (v.extractLsb' 8 8) (v.extractLsb' 0 8) := by
  simp only [keyOfWord, Key.mk.injEq]
  refine ⟨?_, ?_, ?_, ?_⟩ <;> apply BitVec.eq_of_getLsbD_eq <;> intro i hi <;> simp [hi]

/-- Settles O51: outside BUSY each write is its record update; a byte of IBUF is read back where it was written. -/
theorem operandWritesTouchOnlyTheirRegister : Obligations.OperandWritesTouchOnlyTheirRegister := by
  intro s op o m n a v k hb
  refine ⟨?_, ?_, ?_, hostWrite_free hb _, hostWrite_free hb _, hostWrite_free hb _, hostWrite_free hb _, ?_, ?_,
    { s with ibuf := s.ibuf.write a.toNat v }, ?_, rfl, read_write_same s.ibuf a.toNat v,
    fun x hx => read_write_other s.ibuf v hx⟩
  case refine_4 =>
    rw [perform, hostWrite_free hb, keyOfWord_eq]
    rfl
  all_goals rw [perform, hostWrite_free hb]

/-- Settles O52: each register is answered with its number, in the phases that have the read. -/
theorem hostReadsAnswerTheRegister : Obligations.HostReadsAnswerTheRegister := by
  intro s
  refine ⟨?_, fun hb => ?_, fun hd => ?_⟩
  · rw [perform, hostRead, answer]
    cases s.ph <;> rfl
  · refine ⟨fun _ => readOperand_held hb, fun _ => readOperand_held hb, fun m h => ?_,
      fun _ => readOperand_held hb, fun _ => readOperand_held hb, fun _ => readOperand_held hb,
      fun _ => readOperand_held hb, fun _ => readOperand_held hb⟩
    exact (readOperand_held hb h).trans (by cases m <;> rfl)
  · refine ⟨fun st h => ?_, fun re h => ?_, fun f h => ?_, fun _ => readResult_held hd, fun _ => readResult_held hd⟩
    · exact (readResult_held hd h).trans (by cases st <;> rfl)
    · refine (readResult_held hd h).trans ?_
      rcases re with _ | v | f
      · rfl
      · cases v <;> rfl
      · cases f <;> rfl
    · exact (readResult_held hd h).trans (by cases f <;> rfl)

/-- Settles O53: the length is compared with the offset before the byte is read. -/
theorem bufferReadsStopAtTheLength : Obligations.BufferReadsStopAtTheLength := by
  intro s n a
  refine ⟨fun hd hn => ⟨fun ha => ?_, fun v ha hv => ?_⟩, fun hb hn => ⟨fun ha => ?_, fun v ha hv => ?_⟩⟩
  · rw [perform, hostRead, readOutputByte_at hd hn, if_pos ha]
  · rw [perform, hostRead, readOutputByte_at hd hn, if_neg (by omega), hv]
    rfl
  · rw [perform, hostRead, readInputByte_at hb hn, if_pos ha]
  · rw [perform, hostRead, readInputByte_at hb hn, if_neg (by omega), hv]
    rfl

/-- Settles O54: a working register is refused by name, and IDLE has no read of a result. -/
theorem workingRegistersAreHidden : Obligations.WorkingRegistersAreHidden := by
  intro s r
  refine ⟨fun h => ?_, fun h hi => ?_, fun a hi => readOutputByte_idle hi⟩
  · simp only [List.mem_cons, List.not_mem_nil, or_false] at h
    rcases h with rfl | rfl | rfl | rfl | rfl | rfl | rfl | rfl | rfl | rfl | rfl | rfl | rfl | rfl <;> rfl
  · simp only [List.mem_cons, List.not_mem_nil, or_false] at h
    rcases h with rfl | rfl | rfl | rfl | rfl <;> exact readResult_idle hi _

end Sys2Proof.Machine
end

section
/-! What any instruction can do, said once: it ends the operation, by a failure or with an output (R148), and
DECODE does so whatever IBUF holds beside the bytes it reads (R107). -/

namespace Sys2Proof.Machine

variable {s t : State}

/-! ### How an operation ends -/

/-- A failure, or the results and the output of a success (R16, R148). -/
inductive Ending where
  | failed (f : Failure)
  | made (fin : Option Bool) (opcode : Option (BitVec 4)) (out : List Byte)

/-- The state in which an operation ends. -/
def Ending.state : Ending → State → State
  | .failed f, s => raise f s
  | .made fin op out, s => finish fin op (setOutput out s)

/-- OLEN can hold the length of the output. -/
def Ending.fits : Ending → Prop
  | .failed _ => True
  | .made _ _ out => out.length < 2 ^ 64

@[simp] theorem Ending.state_ph (e : Ending) (s : State) : (e.state s).ph = .done := by cases e <;> rfl

@[simp] theorem Ending.state_work (e : Ending) (s : State) : (e.state s).work = Work.clear := by cases e <;> rfl

@[simp] theorem Ending.state_ibuf (e : Ending) (s : State) : (e.state s).ibuf = s.ibuf := by cases e <;> rfl

@[simp] theorem Ending.state_setWork (e : Ending) (w : Work) (s : State) : e.state (setWork w s) = e.state s := by
  cases e <;> rfl

/-- What is no result is as it was (R24). -/
theorem Ending.state_operands (e : Ending) (s : State) : s.operandsUnchanged (e.state s) := by
  cases e <;> exact ⟨rfl, rfl, rfl, rfl, rfl, rfl, rfl, rfl, fun _ => rfl, rfl, rfl, rfl⟩

/-- The results are those of the ending, whatever the state was (R10). -/
theorem Ending.state_sameResults (e : Ending) (s t : State) : (e.state s).sameResults (e.state t) := by
  cases e <;> exact ⟨rfl, rfl, rfl, rfl, rfl, rfl, rfl⟩

/-- How a DECODE that gave this answer ends. -/
def Ending.ofDecode : Except Failure Frame → Ending
  | .error f => .failed f
  | .ok f => .made (some f.fin) (some f.opcode) f.payload

theorem Ending.ofDecode_state (r : Except Failure Frame) (s : State) : (Ending.ofDecode r).state s = endDecode s r := by
  cases r <;> rfl

/-! ### More bytes in IBUF -/

/-- The state with this buffer as IBUF. -/
def withInput (m : Mem) (s : State) : State := { s with ibuf := m }

/-- Every byte that `m` holds, `m'` holds at the same offset. -/
def Mem.within (m m' : Mem) : Prop := ∀ a v, Mem.read m a = some v → Mem.read m' a = some v

theorem readBytes_within {m m' : Mem} (hm : m.within m') {a n : Nat} {d : List Byte}
    (h : Mem.readBytes m a n = .ok d) : Mem.readBytes m' a n = .ok d := by
  rw [readBytes_ok_iff] at h ⊢
  refine ⟨h.1, fun i hi => ?_⟩
  have hd : i < d.length := h.1.symm ▸ hi
  rw [List.getElem?_eq_getElem hd]
  exact hm _ _ ((h.2 i hi).trans (List.getElem?_eq_getElem hd))

/-- From `s` the action answers `g s`, and however many more bytes IBUF holds it makes the same change `g`. -/
def Answers (f : Action) (s : State) (g : State → State) : Prop :=
  ∀ m, s.ibuf.within m → f (withInput m s) = .next (g (withInput m s))

theorem Answers.next {f : Action} {g : State → State} (h : Answers f s g) : f s = .next (g s) :=
  h s.ibuf fun _ _ hv => hv

/-! ### The steps before the payload: each writes working registers or raises -/

/-- A part of DECODE before the payload (R101 to R105). -/
def Part (f : Action) : Prop :=
  ∀ s t, f s = .next t → (∃ w, Answers f s (setWork w)) ∨ ∃ e, Answers f s (raise e)

theorem part_stay : Part fun s => .next s := fun s _ _ => .inl ⟨s.work, fun _ _ => rfl⟩

theorem part_raise (e : Failure) : Part fun s => .next (raise e s) := fun _ _ _ => .inr ⟨e, fun _ _ => rfl⟩

theorem part_setWork (w : Work → Work) : Part fun s => .next (setWork (w s.work) s) :=
  fun s _ _ => .inl ⟨w s.work, fun _ _ => rfl⟩

/-- A part that first makes sure of something keeps what the part after it does. -/
theorem Part.after {f : Action} {s : State} (hf : Part f) (ht : f s = .next t) {f' : Action}
    (h : ∀ m, s.ibuf.within m → f' (withInput m s) = f (withInput m s)) :
    (∃ w, Answers f' s (setWork w)) ∨ ∃ e, Answers f' s (raise e) :=
  (hf s t ht).imp (fun ⟨w, hw⟩ => ⟨w, fun m hm => (h m hm).trans (hw m hm)⟩)
    fun ⟨e, he⟩ => ⟨e, fun m hm => (h m hm).trans (he m hm)⟩

theorem part_need {α : Type} {r : Reg} {v : State → Option α} {k : α → Action}
    (hv : ∀ m s, v (withInput m s) = v s) (hk : ∀ a, Part (k a)) : Part fun s => need r (v s) fun a => k a s := by
  intro s t h
  obtain ⟨a, ha, h⟩ := need_next h
  exact (hk a).after h fun m _ => by simp only [hv, ha, need_some]

theorem part_needByte {a : Nat} {k : Byte → Action} (hk : ∀ v, Part (k v)) :
    Part fun s => needByte s a fun v => k v s := by
  intro s t h
  obtain ⟨v, hv, h⟩ := need_next h
  exact (hk v).after h fun m hm => by simp only [needByte, withInput, hm a v hv, need_some]

theorem part_needField {a n : Nat} {k : Nat → Action} (hk : ∀ v, Part (k v)) :
    Part fun s => needField s a n fun v => k v s := by
  intro s t h
  simp only [needField, Mem.readField] at h
  cases hd : s.ibuf.readBytes a n with
  | error e => rw [hd] at h; cases h
  | ok d =>
    rw [hd] at h
    exact (hk _).after h fun m hm => by
      simp only [needField, Mem.readField, withInput, readBytes_within hm hd]

theorem part_ite {c : State → Prop} [∀ s, Decidable (c s)] {f g : Action} (hc : ∀ m s, c (withInput m s) ↔ c s)
    (hf : Part f) (hg : Part g) : Part fun s => if c s then f s else g s := by
  intro s t h
  by_cases hs : c s
  · simp only [if_pos hs] at h
    exact hf.after h fun m _ => if_pos ((hc m s).mpr hs)
  · simp only [if_neg hs] at h
    exact hg.after h fun m _ => if_neg fun hm => hs ((hc m s).mp hm)

theorem part_runSteps {fs : List Action} (h : ∀ f ∈ fs, Part f) : Part (runSteps fs) := by
  induction fs with
  | nil => exact part_stay
  | cons f fs ih =>
    intro s t ht
    obtain ⟨u, hu, hgo, -⟩ := runSteps_cons_next ht
    obtain ⟨w, hw⟩ | ⟨e, he⟩ := h f (by simp) s u hu
    · cases hu.symm.trans hw.next
      by_cases hb : s.ph = .busy
      · refine ((ih fun g hg => h g (by simp [hg])) _ t (hgo hb)).imp ?_ ?_
        · exact fun ⟨w', hw'⟩ => ⟨w', fun m hm => (runSteps_go (hw m hm) hb).trans (hw' m hm)⟩
        · exact fun ⟨e, he⟩ => ⟨e, fun m hm => (runSteps_go (hw m hm) hb).trans (he m hm)⟩
      · exact .inl ⟨w, fun m hm => runSteps_end (hw m hm) hb⟩
    · exact .inr ⟨e, fun m hm => runSteps_raise (he m hm)⟩

/-! ### The parts of DECODE -/

theorem part_startCursor : Part startCursor := part_setWork fun w => { w with pos := some 0 }

theorem part_requireInput (n : Nat) (f : Framing) : Part (requireInput n f) :=
  part_need (fun _ _ => rfl) fun _ => part_ite (fun _ _ => .rfl) (part_raise _) part_stay

theorem part_unpackHeader (h : BitVec 16) : Part (unpackHeader h) :=
  part_setWork fun w => { w.unpack h with pos := some 2 }

theorem part_fetchHeader : Part fetchHeader := part_needField fun _ => part_unpackHeader _

theorem part_checkReserved : Part checkReserved :=
  part_need (fun _ _ => rfl) fun _ => part_need (fun _ _ => rfl) fun _ => part_need (fun _ _ => rfl) fun _ =>
    part_ite (fun _ _ => .rfl) (part_raise _) part_stay

theorem part_checkOpcode : Part checkOpcode :=
  part_need (fun _ _ => rfl) fun o => by
    cases opcodeClass o with
    | accepted => exact part_stay
    | reservedNoncontrol | reservedControl => exact part_raise _

theorem part_lengthFromBase : Part lengthFromBase :=
  part_need (fun _ _ => rfl) fun b => part_setWork fun w => { w with len := some (b.zeroExtend 64) }

theorem part_setLength16 (e : BitVec 16) : Part (setLength16 e) :=
  part_setWork fun w => { w with len := some (e.zeroExtend 64), pos := some 4 }

theorem part_setLength64 (hi lo : BitVec 32) : Part (setLength64 hi lo) :=
  part_setWork fun w => { w with hi := some hi, lo := some lo, len := some (joinHalves hi lo), pos := some 10 }

theorem part_readLength16 : Part readLength16 := part_needField fun _ => part_setLength16 _

theorem part_readLength64 : Part readLength64 :=
  part_needField fun _ => part_needField fun _ => part_setLength64 _ _

theorem part_readLength : Part readLength :=
  part_need (fun _ _ => rfl) fun _ => part_ite (fun _ _ => .rfl)
    (part_runSteps (by simp [lengthStep16, part_requireInput, part_readLength16]))
    (part_ite (fun _ _ => .rfl) (part_runSteps (by simp [lengthStep64, part_requireInput, part_readLength64]))
      part_lengthFromBase)

theorem part_checkRange : Part checkRange :=
  part_need (fun _ _ => rfl) fun l =>
    part_ite (c := fun s => s.payloadMax.toNat < l.toNat) (fun _ _ => .rfl) (part_raise _) part_stay

theorem part_requireKey : Part requireKey := part_need (fun _ _ => rfl) fun _ => part_requireInput _ _

theorem part_setKey (k : Key) : Part (setKey k) :=
  part_need (fun _ _ => rfl) fun p => part_setWork fun w => { w with keyw := some k, pos := some (p + 4#64) }

theorem part_readKey : Part readKey :=
  part_need (fun _ _ => rfl) fun _ => part_needByte fun _ => part_needByte fun _ => part_needByte fun _ =>
    part_needByte fun _ => part_setKey _

theorem part_readKeyIfMasked : Part readKeyIfMasked :=
  part_need (fun _ _ => rfl) fun _ => part_ite (fun _ _ => .rfl)
    (part_runSteps (by simp [keySteps, part_requireKey, part_readKey])) part_stay

/-! ### The payload -/

/-- A way to put the rest of the input into OBUF, in clear or unmasked (R105): `N - POS` bytes, and of the working
registers only IDX is written. -/
def Fills (f : Action) : Prop :=
  ∀ s t, f s = .next t → ∃ (n p : BitVec 64) (d : List Byte) (i : Option (BitVec 2)), s.ilen = some n ∧
    s.work.pos = some p ∧ d.length = n.toNat - p.toNat ∧
    Answers f s fun u => setOutput d (setWork { s.work with idx := i } u)

theorem needRemaining_read {k : List Byte → Result} (h : needRemaining s k = .next t) :
    ∃ n p d, s.ilen = some n ∧ s.work.pos = some p ∧ s.ibuf.readBytes p.toNat (n.toNat - p.toNat) = .ok d ∧
      k d = .next t := by
  obtain ⟨n, hn, h⟩ := need_next h
  obtain ⟨p, hp, h⟩ := need_next h
  obtain ⟨d, hd, h⟩ := needInput_ok h
  exact ⟨n, p, d, hn, hp, hd, h⟩

theorem needRemaining_within {n p : BitVec 64} {d : List Byte} (hn : s.ilen = some n) (hp : s.work.pos = some p)
    (hd : s.ibuf.readBytes p.toNat (n.toNat - p.toNat) = .ok d) {m : Mem} (hm : s.ibuf.within m)
    (k : List Byte → Result) : needRemaining (withInput m s) k = k d := by
  simp only [needRemaining, needInput, withInput, hn, hp, need_some, readBytes_within hm hd]

theorem fills_clearPayload : Fills clearPayload := by
  intro s t h
  obtain ⟨n, p, d, hn, hp, hd, -⟩ := needRemaining_read h
  exact ⟨n, p, d, s.work.idx, hn, hp, ((readBytes_ok_iff _ _ _ _).mp hd).1,
    fun m hm => needRemaining_within hn hp hd hm _⟩

theorem fills_unmaskPayload : Fills unmaskPayload := by
  intro s t h
  obtain ⟨n, p, d, hn, hp, hd, h⟩ := needRemaining_read h
  obtain ⟨k, hk, -⟩ := need_next h
  refine ⟨n, p, transform d k, some (idxAfter 0#2 d), hn, hp, ?_, fun m hm => ?_⟩
  · rw [transform_length, ((readBytes_ok_iff _ _ _ _).mp hd).1]
  · rw [unmaskPayload, needRemaining_within hn hp hd hm, runMask_run (s := withInput m s) hk]
    rfl

theorem fills_readPayload : Fills readPayload := by
  intro s t h
  obtain ⟨m, hm, h⟩ := need_next h
  have hread : ∀ m', readPayload (withInput m' s) =
      if m then unmaskPayload (withInput m' s) else clearPayload (withInput m' s) := fun m' => by
    simp only [readPayload, withInput, hm, need_some]
  cases m with
  | false =>
    obtain ⟨n, p, d, i, hn, hp, hl, ha⟩ := fills_clearPayload s t h
    exact ⟨n, p, d, i, hn, hp, hl, fun m' hm' => (hread m').trans (ha m' hm')⟩
  | true =>
    obtain ⟨n, p, d, i, hn, hp, hl, ha⟩ := fills_unmaskPayload s t h
    exact ⟨n, p, d, i, hn, hp, hl, fun m' hm' => (hread m').trans (ha m' hm')⟩

/-! ### Steps that end the operation -/

/-- Steps that, when they answer a next state from BUSY, have ended the operation. -/
def Concludes (fs : List Action) : Prop :=
  ∀ s t, s.ph = .busy → runSteps fs s = .next t → ∃ e : Ending, e.fits ∧ Answers (runSteps fs) s e.state

theorem concludes_raiseStep (e : Failure) : Concludes [raiseStep e] :=
  fun _ _ _ _ => ⟨.failed e, trivial, fun _ _ => runSteps_raise rfl⟩

theorem concludes_cons {f : Action} {fs : List Action} (hf : Part f) (h : Concludes fs) : Concludes (f :: fs) := by
  intro s t hb ht
  obtain ⟨u, hu, hgo, -⟩ := runSteps_cons_next ht
  obtain ⟨w, hw⟩ | ⟨e, he⟩ := hf s u hu
  · cases hu.symm.trans hw.next
    obtain ⟨e, hfit, he⟩ := h (setWork w s) t hb (hgo hb)
    refine ⟨e, hfit, fun m hm => (runSteps_go (hw m hm) hb).trans ((he m hm).trans ?_)⟩
    exact congrArg Host.Outcome.next (e.state_setWork w (withInput m s))
  · exact ⟨.failed e, trivial, fun m hm => runSteps_raise (he m hm)⟩

/-- Writing exactly `N - POS` bytes and delivering them with `LEN = N - POS` (R106, R109). -/
theorem fills_deliver {f : Action} (hf : Fills f) {n p l : BitVec 64} (hb : s.ph = .busy) (hn : s.ilen = some n)
    (hp : s.work.pos = some p) (hl : s.work.len = some l) (hsum : n.toNat = p.toNat + l.toNat)
    (h : runSteps [f, deliver] s = .next t) :
    ∃ e : Ending, e.fits ∧ Answers (runSteps [f, deliver]) s e.state := by
  obtain ⟨u, hu, hgo, -⟩ := runSteps_cons_next h
  obtain ⟨n', p', d, i, hn', hp', hd, ha⟩ := hf s u hu
  cases hn.symm.trans hn'
  cases hp.symm.trans hp'
  cases hu.symm.trans ha.next
  obtain ⟨v, hv, -⟩ := runSteps_cons_next (hgo hb)
  obtain ⟨_, -, hv⟩ := need_next hv
  obtain ⟨fin, hfin, hv⟩ := need_next hv
  obtain ⟨o, ho, -⟩ := need_next hv
  have hdl : d.length = l.toNat := by omega
  refine ⟨.made (some fin) (some o) d, lt_of_eq_of_lt hdl l.isLt, fun m hm => (runSteps_go (ha m hm) hb).trans ?_⟩
  refine runSteps_end (t := finish (some fin) (some o) (setOutput d (withInput m s))) ?_ (by simp)
  have hw : deliver (setOutput d (setWork { s.work with idx := i } (withInput m s))) =
      .next (finish (some fin) (some o) { setOutput d (withInput m s) with olen := some l }) := by
    simp only [deliver, setOutput_work, setWork_work, hl, need_some]
    rw [show s.work.fin = some fin from hfin, show s.work.opc = some o from ho]
    rfl
  rw [hw, setOutput, hdl, BitVec.ofNat_toNat, BitVec.setWidth_eq]

/-- The extent is checked, the payload written and the frame delivered (R105, R106, R109). -/
theorem concludes_deliver {f : Action} (hf : Fills f) : Concludes [checkExtent, f, deliver] := by
  intro s t hb h
  obtain ⟨u, hu, hgo, -⟩ := runSteps_cons_next h
  obtain ⟨n, hn, hu⟩ := need_next hu
  obtain ⟨p, hp, hu⟩ := need_next hu
  obtain ⟨l, hl, hu⟩ := need_next hu
  have hc : ∀ m, checkExtent (withInput m s) =
      if n.toNat < p.toNat + l.toNat then .next (raise (.framing .shortPayload) (withInput m s))
      else if p.toNat + l.toNat < n.toNat then .next (raise (.framing .trailingBytes) (withInput m s))
      else .next (withInput m s) := fun m => by
    simp only [checkExtent, withInput, hn, hp, hl, need_some]
  by_cases h1 : n.toNat < p.toNat + l.toNat
  · exact ⟨.failed _, trivial, fun m _ => runSteps_raise ((hc m).trans (if_pos h1))⟩
  by_cases h2 : p.toNat + l.toNat < n.toNat
  · exact ⟨.failed _, trivial, fun m _ => runSteps_raise ((hc m).trans ((if_neg h1).trans (if_pos h2)))⟩
  rw [if_neg h1, if_neg h2] at hu
  cases hu
  obtain ⟨e, hfit, he⟩ := fills_deliver hf hb hn hp hl (by omega) (hgo hb)
  exact ⟨e, hfit, fun m hm => (runSteps_go ((hc m).trans ((if_neg h1).trans (if_neg h2))) hb).trans (he m hm)⟩

/-! ### The sequences that the rows share -/

theorem concludes_afterLength : Concludes afterLength :=
  concludes_cons part_checkRange (concludes_cons part_readKeyIfMasked (concludes_deliver fills_readPayload))

theorem concludes_afterOpcode : Concludes afterOpcode := concludes_cons part_readLength concludes_afterLength

theorem concludes_legality {fs : List Action} (h : Concludes fs) : Concludes (legalitySteps ++ fs) :=
  concludes_cons part_checkReserved (concludes_cons part_checkOpcode h)

theorem concludes_beforeHeader {fs : List Action} (h : Concludes fs) : Concludes (beforeHeader ++ fs) :=
  concludes_cons part_startCursor (concludes_cons (part_requireInput _ _) h)

theorem concludes_clearTail : Concludes clearTail :=
  concludes_cons part_checkRange (concludes_deliver fills_clearPayload)

theorem concludes_maskedTail (k : Key) : Concludes (maskedTail k) :=
  concludes_cons part_checkRange (concludes_cons part_requireKey (concludes_cons (part_setKey k)
    (concludes_deliver fills_unmaskPayload)))

theorem concludes_ext16Given (e : BitVec 16) {fs : List Action} (h : Concludes fs) : Concludes (ext16Given e ++ fs) :=
  concludes_cons (part_requireInput _ _) (concludes_cons (part_setLength16 e) h)

theorem concludes_ext64Given (e : BitVec 64) {fs : List Action} (h : Concludes fs) : Concludes (ext64Given e ++ fs) :=
  concludes_cons (part_requireInput _ _) (concludes_cons (part_setLength64 _ _) h)

/-- The instruction is an operation whose steps conclude it. -/
def ConcludingOperation (f : Action) : Prop := ∃ fs, f = operation fs ∧ Concludes fs

theorem concluding_execDecode : ConcludingOperation execDecode :=
  ⟨_, rfl, by
    rw [List.append_assoc, List.append_assoc]
    exact concludes_beforeHeader (concludes_cons part_fetchHeader (concludes_legality concludes_afterOpcode))⟩

theorem concluding_withHeader (h : BitVec 16) {fs : List Action} (hf : Concludes fs) :
    ConcludingOperation (withHeader h fs) :=
  ⟨_, rfl, by
    rw [List.append_assoc]
    exact concludes_beforeHeader (concludes_cons (part_unpackHeader h) hf)⟩

theorem concluding_legality (h : BitVec 16) {fs : List Action} (hf : Concludes fs) :
    ConcludingOperation (withHeader h (legalitySteps ++ fs)) :=
  concluding_withHeader h (concludes_legality hf)

/-- DECODE and every row of the header word and of the formats conclude (R148). -/
theorem concluding_exec {i : Instr} (he : i ≠ .encode) (hx : i ≠ .xform) (hr : i ≠ .cmdReserved) :
    ConcludingOperation (exec i) := by
  cases i with
  | encode => exact absurd rfl he
  | xform => exact absurd rfl hx
  | cmdReserved => exact absurd rfl hr
  | decode => exact concluding_execDecode
  | cont | text | bin | close | ping | pong => exact concluding_withHeader _ concludes_afterOpcode
  | rsvnc3 | rsvnc4 | rsvnc5 | rsvnc6 | rsvnc7 | rsvc11 | rsvc12 | rsvc13 | rsvc14 | rsvc15 | rsv1Set | rsv2Set
  | rsv3Set => exact concluding_withHeader _ (concludes_raiseStep _)
  | finSet | finClear => exact concluding_legality _ concludes_afterOpcode
  | masked =>
    exact concluding_legality _ (concludes_cons part_readLength (concludes_cons part_checkRange
      (concludes_cons part_requireKey (concludes_cons part_readKey (concludes_deliver fills_unmaskPayload)))))
  | unmasked =>
    exact concluding_legality _ (concludes_cons part_readLength (concludes_cons part_checkRange
      (concludes_deliver fills_clearPayload)))
  | len7 => exact concluding_legality _ (concludes_cons part_lengthFromBase concludes_afterLength)
  | len16 =>
    exact concluding_legality _ (concludes_cons (part_requireInput _ _) (concludes_cons part_readLength16
      concludes_afterLength))
  | len64 =>
    exact concluding_legality _ (concludes_cons (part_requireInput _ _) (concludes_cons part_readLength64
      concludes_afterLength))
  | f7u => exact concluding_legality _ (concludes_cons part_lengthFromBase concludes_clearTail)
  | f7m => exact concluding_legality _ (concludes_cons part_lengthFromBase (concludes_maskedTail _))
  | f16u _ _ _ e => exact concluding_legality _ (concludes_ext16Given e concludes_clearTail)
  | f16m _ _ _ e k => exact concluding_legality _ (concludes_ext16Given e (concludes_maskedTail k))
  | f64u _ _ _ e => exact concluding_legality _ (concludes_ext64Given e concludes_clearTail)
  | f64m _ _ _ e k => exact concluding_legality _ (concludes_ext64Given e (concludes_maskedTail k))

end Sys2Proof.Machine
end

section
/-! What every instruction does and leaves alone (R10, R12, R16, R17, R24, R148), from how each can end. -/

namespace Sys2Proof.Machine

variable {s t u v : State}

/-! ### One inversion for all instructions -/

/-- A frame is its payload and at most fourteen bytes before it (R90). -/
theorem encodeBytes_length_le (o : BitVec 4) (key : Option Key) (p : List Byte) :
    (encodeBytes o key p).length ≤ p.length + 14 := by
  have := lengthFieldSize_le p.length
  cases key <;>
    simp only [encodeBytes, Key.bytes, List.length_append, List.length_cons, List.length_nil, lengthField_length,
      transform_length] <;> omega

theorem execEncode_next (h : execEncode s = .next t) :
    s.ph = .busy ∧ ∃ o key p, EncodeOperands s o key p ∧
      t = (Ending.made none none (encodeBytes o key p)).state s := by
  obtain ⟨hb, o, key, p, ho⟩ := execEncode_operands h
  cases h.symm.trans (execEncode_run hb ho)
  exact ⟨hb, o, key, p, ho, rfl⟩

theorem execXform_next (h : execXform s = .next t) :
    s.ph = .busy ∧ ∃ d k, s.inputBytes = some d ∧ s.cmdKey = some k ∧
      t = (Ending.made none none (transform d k)).state s := by
  obtain ⟨hb, d, k, hd, hk⟩ := execXform_operands h
  cases h.symm.trans (execXform_run hb hd hk)
  exact ⟨hb, d, k, hd, hk, rfl⟩

theorem ConcludingOperation.next {f : Action} (hf : ConcludingOperation f) (h : f s = .next t) :
    s.ph = .busy ∧ ∃ e : Ending, e.fits ∧ t = e.state s ∧ Answers f s e.state := by
  obtain ⟨fs, rfl, hfs⟩ := hf
  obtain ⟨hb, h⟩ := operation_next h
  obtain ⟨e, hfit, he⟩ := hfs s t hb h
  cases h.symm.trans he.next
  exact ⟨hb, e, hfit, rfl, fun m hm => (operation_busy (s := withInput m s) hb).trans (he m hm)⟩

/-- ILEN is within the larger bound of R14. -/
def State.inputBounded (s : State) : Prop := ∀ l, s.ilen = some l → l.toNat ≤ Config.frameMax s.payloadMax

theorem inputBytes_bounded (h : s.inputBounded) {b : List Byte} (hb : s.inputBytes = some b) :
    b.length ≤ 2 ^ 63 + 13 := by
  obtain ⟨n, hn, hl, -⟩ := inputBytes_eq_some hb
  have := h n hn
  have := s.payloadMax.isLt
  rw [Config.frameMax] at *
  omega

/-- An instruction that answers a next state was started in BUSY and ends the operation (R12, R148). -/
theorem exec_next {i : Instr} (h : exec i s = .next t) :
    s.ph = .busy ∧ ∃ e : Ending, t = e.state s ∧ (s.inputBounded → e.fits) := by
  by_cases he : i = .encode
  · subst he
    obtain ⟨hb, o, key, p, ho, rfl⟩ := execEncode_next h
    refine ⟨hb, _, rfl, fun hl => ?_⟩
    have := encodeBytes_length_le o key p
    have := inputBytes_bounded hl ho.input
    rw [Ending.fits]
    omega
  by_cases hx : i = .xform
  · subst hx
    obtain ⟨hb, d, k, hd, -, rfl⟩ := execXform_next h
    refine ⟨hb, _, rfl, fun hl => ?_⟩
    have := inputBytes_bounded hl hd
    rw [Ending.fits, transform_length]
    omega
  by_cases hr : i = .cmdReserved
  · subst hr
    cases h
  obtain ⟨hb, e, hfit, rfl, -⟩ := (concluding_exec he hx hr).next h
  exact ⟨hb, e, rfl, fun _ => hfit⟩

/-! ### The statements -/

/-- Settles O35: no ending touches an operand. -/
theorem operandsSurviveEveryOperation : Obligations.OperandsSurviveEveryOperation := by
  intro i s t h
  obtain ⟨-, e, rfl, -⟩ := exec_next h
  exact e.state_operands s

/-- Settles O36: every ending is DONE, with a status and a reason that agree. -/
theorem operationsEndInDone : Obligations.OperationsEndInDone := by
  intro i s t h
  obtain ⟨hb, e, rfl, -⟩ := exec_next h
  refine ⟨hb, e.state_ph s, e.state_work s, ?_⟩
  rcases e with (v | f) | ⟨_, _, _⟩
  · exact .inr ⟨⟨v, .inl ⟨rfl, rfl⟩⟩, rfl, rfl, rfl, fun _ => rfl⟩
  · exact .inr ⟨⟨.rsvSet, .inr ⟨f, rfl, rfl⟩⟩, rfl, rfl, rfl, fun _ => rfl⟩
  · exact .inl ⟨rfl, rfl⟩

/-- Settles O37: ENCODE and XFORM answer only by making an output. -/
theorem onlyDecodeFails : Obligations.OnlyDecodeFails := by
  rintro s t (h | h)
  · obtain ⟨-, _, _, _, -, rfl⟩ := execEncode_next h
    exact ⟨rfl, rfl, rfl, rfl⟩
  · obtain ⟨-, _, _, -, -, rfl⟩ := execXform_next h
    exact ⟨rfl, rfl, rfl, rfl⟩

/-- Settles O38: a success holds the output made, whose length OLEN can hold. -/
theorem outputIsExactlyOlenBytes : Obligations.OutputIsExactlyOlenBytes := by
  intro i s t l hl hbound h hok
  obtain ⟨-, e, rfl, hfit⟩ := exec_next h
  have hb : s.inputBounded := fun l' hl' => by
    cases hl.symm.trans hl'
    exact hbound
  rcases e with (v | f) | ⟨fin, op, out⟩
  · cases hok
  · cases hok
  · exact ⟨_, out, rfl, by rw [BitVec.toNat_ofNat, Nat.mod_eq_of_lt (hfit hb)], read_ofBytes out⟩

/-! ### Dependence on the operands -/

/-- The same ILEN and the same bytes below it are the same input (R30). -/
theorem sameInput_inputBytes (h : s.sameInput t) {b : List Byte} (hb : s.inputBytes = some b) :
    t.inputBytes = some b := by
  obtain ⟨-, hil, -, hr⟩ := h
  obtain ⟨n, hn, hl, hbs⟩ := inputBytes_eq_some hb
  refine inputBytes_of_readBytes (hil ▸ hn) ?_
  rw [readBytes_ok_iff] at hbs ⊢
  refine ⟨hl.symm, fun i hi => ?_⟩
  rw [Nat.zero_add, ← hr n i hn hi, ← hbs.2 i (hl ▸ hi), Nat.zero_add]

/-- The first `n` offsets of a buffer, a zero where it holds no value. -/
def Mem.padded (m : Mem) (n : Nat) : List Byte := (List.range n).map fun a => (Mem.read m a).getD 0#8

/-- IBUF with the offsets below `n` filled up. -/
def Mem.fillUp (m : Mem) (n : Nat) : Mem := Mem.writeBytes m 0 (m.padded n)

theorem padded_getElem? {m : Mem} {n a : Nat} (h : a < n) : (m.padded n)[a]? = some ((Mem.read m a).getD 0#8) := by
  simp [Mem.padded, h]

theorem padded_length (m : Mem) (n : Nat) : (m.padded n).length = n := by simp [Mem.padded]

theorem within_fillUp (m : Mem) (n : Nat) : m.within (m.fillUp n) := by
  intro a v hv
  rw [Mem.fillUp, read_writeBytes, padded_length]
  by_cases ha : a < n
  · rw [if_pos (by omega), Nat.sub_zero, padded_getElem? ha, hv, Option.getD_some]
  · rw [if_neg (by omega), hv]

theorem inputBytes_fillUp {n : BitVec 64} (hn : s.ilen = some n) :
    (withInput (s.ibuf.fillUp n.toNat) s).inputBytes = some (s.ibuf.padded n.toNat) := by
  have h := readBytes_writeBytes s.ibuf 0 (s.ibuf.padded n.toNat)
  rw [padded_length] at h
  exact inputBytes_of_readBytes hn h

theorem padded_congr {m m' : Mem} {n : Nat} (h : ∀ a < n, Mem.read m a = Mem.read m' a) :
    m.padded n = m'.padded n :=
  List.map_congr_left fun a ha => by rw [h a (List.mem_range.mp ha)]

theorem sameResults_symm (h : s.sameResults t) : t.sameResults s := by
  obtain ⟨h1, h2, h3, h4, h5, h6, h7⟩ := h
  exact ⟨h1.symm, h2.symm, h3.symm, h4.symm, h5.symm, h6.symm, h7.symm⟩

theorem sameResults_trans (h : s.sameResults t) (h' : t.sameResults u) : s.sameResults u := by
  obtain ⟨h1, h2, h3, h4, h5, h6, h7⟩ := h
  obtain ⟨h1', h2', h3', h4', h5', h6', h7'⟩ := h'
  exact ⟨h1.trans h1', h2.trans h2', h3.trans h3', h4.trans h4', h5.trans h5', h6.trans h6', h7.trans h7'⟩

/-- A DECODE that answers needs ILEN (R107). -/
theorem execDecode_ilen (h : execDecode s = .next t) : ∃ n, s.ilen = some n := by
  obtain ⟨hb, h⟩ := operation_next h
  obtain ⟨_, hu, hgo, -⟩ := runSteps_cons_next h
  cases hu
  obtain ⟨_, hv, -⟩ := runSteps_cons_next (hgo hb)
  obtain ⟨n, hn, -⟩ := need_next hv
  exact ⟨n, hn⟩

/-- A DECODE that answers has the results of the pure function on the input filled up: what it has not read does
not matter (R107). -/
theorem execDecode_next {n : BitVec 64} (hn : s.ilen = some n) (h : execDecode s = .next t) :
    t.sameResults
      ((Ending.ofDecode (decodeBytes s.payloadMax.toNat (s.ibuf.padded n.toNat))).state s) := by
  obtain ⟨hb, e, -, rfl, ha⟩ := concluding_execDecode.next h
  have hfill : execDecode (withInput (s.ibuf.fillUp n.toNat) s) = _ :=
    execDecode_endDecode hb (inputBytes_fillUp hn)
  rw [ha _ (within_fillUp s.ibuf n.toNat), ← Ending.ofDecode_state] at hfill
  have heq := Host.Outcome.next.inj hfill
  refine sameResults_trans (e.state_sameResults s (withInput (s.ibuf.fillUp n.toNat) s)) ?_
  rw [heq]
  exact Ending.state_sameResults _ _ _

/-- DECODE reads ILEN, the bytes below it and PAYLOAD_MAX (R107, R114). -/
theorem execDecode_sameResults (h : s.sameInput t) (hu : execDecode s = .next u) (hv : execDecode t = .next v) :
    u.sameResults v := by
  obtain ⟨n, hn⟩ := execDecode_ilen hu
  obtain ⟨-, hil, hpm, hr⟩ := h
  have hu := execDecode_next hn hu
  have hv := execDecode_next (hil ▸ hn) hv
  rw [← hpm, ← padded_congr fun a ha => hr n a hn ha] at hv
  exact sameResults_trans hu (sameResults_trans (Ending.state_sameResults _ s t) (sameResults_symm hv))

theorem EncodeOperands.transfer {o : BitVec 4} {key : Option Key} {p : List Byte} (h : EncodeOperands s o key p)
    (hin : s.sameInput t) (ho : s.cmdOpcode = t.cmdOpcode) (hf : s.cmdHasKey = t.cmdHasKey)
    (hk : s.cmdHasKey = some true → s.cmdKey = t.cmdKey) : EncodeOperands t o key p where
  opcode := ho ▸ h.opcode
  flag := hf ▸ h.flag
  input := sameInput_inputBytes hin h.input
  key k e := hk (h.flag.trans (by rw [e]; rfl)) ▸ h.key k e

/-- Settles O39: each operation's ending is a function of the operands it reads. -/
theorem resultsDependOnOperandsOnly : Obligations.ResultsDependOnOperandsOnly := by
  intro s t u v hin
  have hph := hin.1
  refine ⟨execDecode_sameResults hin, fun hkey hu hv => ?_, fun ho hf hkey hu hv => ?_⟩
  · obtain ⟨hb, d, k, hd, hk, rfl⟩ := execXform_next hu
    cases hv.symm.trans (execXform_run (hph ▸ hb) (sameInput_inputBytes hin hd) (hkey ▸ hk))
    exact Ending.state_sameResults _ s t
  · obtain ⟨hb, o, key, p, hop, rfl⟩ := execEncode_next hu
    cases hv.symm.trans (execEncode_run (hph ▸ hb) (hop.transfer hin ho hf hkey))
    exact Ending.state_sameResults _ s t

end Sys2Proof.Machine
end

section
/-! The invariant of the block (R12, R15 to R17, R21): every move keeps it, and from BUSY the block's move leads to
DONE. -/

namespace Sys2Proof.Machine

variable {s t : State}

/-! ### A frame that DECODE accepts -/

theorem violationOf_eq_none {h : BitVec 16} (hv : violationOf h = none) : opcodeClass (hdrOpcode h) = .accepted := by
  rw [violationOf] at hv
  split at hv
  · cases hv
  · split at hv
    · assumption
    all_goals cases hv

theorem decodePayload_length {m : Bool} {l : Nat} {r p : List Byte} (h : decodePayload m l r = .ok p) :
    p.length = l := by
  cases m with
  | false =>
    obtain ⟨rfl, hl⟩ := exactPayload_ok h
    exact hl
  | true =>
    by_cases hs : r.length < 4
    · rw [decodePayload_short hs] at h
      cases h
    · obtain ⟨k0, k1, k2, k3, r, rfl⟩ := four_bytes (r := r) (by omega)
      rw [decodePayload_key] at h
      split at h
      · next q hq =>
        cases h
        obtain ⟨rfl, hl⟩ := exactPayload_ok hq
        rw [transform_length, hl]
      · cases h

theorem decodeAfterLength_ok {n l : Nat} {h : BitVec 16} {r : List Byte} {f : Frame}
    (hf : decodeAfterLength n h l r = .ok f) : f.opcode = hdrOpcode h ∧ f.payload.length ≤ n := by
  rw [decodeAfterLength] at hf
  split at hf
  · cases hf
  · split at hf
    · cases hf
    · next p hp =>
      cases hf
      exact ⟨rfl, by rw [decodePayload_length hp]; omega⟩

/-- A decoded Frame has an accepted opcode and at most PAYLOAD_MAX bytes (R63, R103). -/
theorem decodeBytes_ok {n : Nat} {b : List Byte} {f : Frame} (hf : decodeBytes n b = .ok f) :
    opcodeClass f.opcode = .accepted ∧ f.payload.length ≤ n := by
  match b, hf with
  | x :: y :: r, hf =>
    rw [decodeBytes, decodeAfterHeader] at hf
    split at hf
    · cases hf
    · next hv =>
      rw [decodeAfterOpcode] at hf
      split at hf
      · cases hf
      · obtain ⟨ho, hl⟩ := decodeAfterLength_ok hf
        exact ⟨ho ▸ violationOf_eq_none hv, hl⟩

/-! ### What phase DONE demands of an ending -/

/-- The results of an ending satisfy the invariant (R15, R16). -/
def Ending.sound (payloadMax : BitVec 63) : Ending → Prop
  | .failed _ => True
  | .made fin op out => frameFieldsAgree fin op = true ∧ out.length ≤ Config.frameMax payloadMax

theorem frameMax_lt (payloadMax : BitVec 63) : Config.frameMax payloadMax < 2 ^ 64 := by
  have := payloadMax.isLt
  rw [Config.frameMax]
  omega

theorem Ending.sound_resultsAgree {e : Ending} (h : e.sound s.payloadMax) : (e.state s).resultsAgree = true := by
  cases e with
  | failed f => cases f <;> rfl
  | made fin op out =>
    obtain ⟨hf, hl⟩ := h
    have ho : (finish fin op (setOutput out s)).outputBytes = some out :=
      outputBytes_setOutput (lt_of_le_of_lt hl (frameMax_lt _)) s
    simp only [Ending.state, State.resultsAgree, finish_resStatus, finish_resReason, finish_resFin,
      finish_resOpcode, ho, hf, finish_payloadMax, setOutput_payloadMax, hl, decide_true, Bool.and_self]

theorem Ending.state_inv {e : Ending} (hi : s.ibuf.wf) (h : e.sound s.payloadMax) : (e.state s).Inv := by
  refine ⟨(e.state_ibuf s).symm ▸ hi, ?_, e.state_work s, ?_⟩
  · cases e with
    | failed f => exact List.Pairwise.nil
    | made fin op out => exact ofBytes_wf out
  · rw [e.state_ph]
    exact Ending.sound_resultsAgree h

theorem Ending.ofDecode_sound (n : BitVec 63) (b : List Byte) : (Ending.ofDecode (decodeBytes n.toNat b)).sound n := by
  cases h : decodeBytes n.toNat b with
  | error f => trivial
  | ok f =>
    obtain ⟨ho, hl⟩ := decodeBytes_ok h
    refine ⟨?_, hl.trans (Nat.le_add_right _ 14)⟩
    simp only [frameFieldsAgree, ho, beq_self_eq_true]

/-! ### The block's move -/

/-- An instruction whose operands START has checked ends soundly (R180). -/
theorem exec_of_startProblem {i : Instr} (hb : s.ph = .busy) (h : startProblem i s = none) :
    ∃ e : Ending, e.sound s.payloadMax ∧ exec i s = .next (e.state s) := by
  obtain rfl | rfl | rfl := startProblem_eq_none h
  · obtain ⟨o, key, p, ho, hl⟩ := startProblem_encode_eq_none.mp h
    refine ⟨.made none none (encodeBytes o key p), ⟨rfl, ?_⟩, execEncode_run hb ho⟩
    have := encodeBytes_length_le o key p
    rw [Config.frameMax]
    omega
  · obtain ⟨b, hin, -⟩ := startProblem_decode_eq_none.mp h
    refine ⟨.ofDecode (decodeBytes s.payloadMax.toNat b), Ending.ofDecode_sound _ b, ?_⟩
    rw [Ending.ofDecode_state]
    exact execDecode_endDecode hb hin
  · obtain ⟨⟨k, hk⟩, d, hd, hl⟩ := startProblem_xform_eq_none.mp h
    refine ⟨.made none none (transform d k), ⟨rfl, ?_⟩, execXform_run hb hd hk⟩
    rw [transform_length, Config.frameMax]
    omega

theorem operandsHeld_iff : s.operandsHeld = true ↔ ∃ i, fetch s = some i ∧ startProblem i s = none := by
  rw [State.operandsHeld]
  cases fetch s with
  | none => simp
  | some i => simp

/-- In BUSY, EXECUTE is exec of the instruction that CMD_OP selects (R12). -/
theorem execute_busy {i : Instr} (hb : s.ph = .busy) (hi : fetch s = some i) : execute s = exec i s := by
  simp only [execute, hb, hi, need_some]

theorem inv_busy (h : s.Inv) (hb : s.ph = .busy) : s.operandsHeld = true := by
  obtain ⟨-, -, -, hp⟩ := h
  rw [hb] at hp
  exact hp.2

/-- From a BUSY state of the invariant the block's move ends the operation soundly (R180). -/
theorem execute_of_inv (h : s.Inv) (hb : s.ph = .busy) :
    ∃ e : Ending, e.sound s.payloadMax ∧ execute s = .next (e.state s) := by
  obtain ⟨i, hi, hp⟩ := operandsHeld_iff.mp (inv_busy h hb)
  rw [execute_busy hb hi]
  exact exec_of_startProblem hb hp

/-! ### Every move keeps the invariant -/

/-- Outside BUSY the invariant speaks of the results, the working registers, PAYLOAD_MAX and the form of IBUF. -/
theorem inv_of_sameResults (h : s.Inv) (hb : s.ph ≠ .busy) (hr : s.sameResults t) (hw : t.work = s.work)
    (hm : t.payloadMax = s.payloadMax) (hi : t.ibuf.wf) : t.Inv := by
  obtain ⟨-, hobuf, hwork, hphase⟩ := h
  obtain ⟨hph, hst, hre, hfin, hop, hob, hol⟩ := hr
  refine ⟨hi, hob ▸ hobuf, hw.trans hwork, ?_⟩
  rw [← hph]
  cases hp : s.ph with
  | busy => exact absurd hp hb
  | idle =>
    rw [hp] at hphase
    simpa only [State.noResult, hst, hre, hfin, hop, hob, hol] using hphase
  | done =>
    rw [hp] at hphase
    simpa only [State.resultsAgree, State.outputBytes, hst, hre, hfin, hop, hob, hol, hm] using hphase

/-- An operand write touches neither the results nor what the invariant says of the rest. -/
theorem inv_hostWrite {f : State → State} (h : s.Inv) (hr : s.sameResults (f s)) (hw : (f s).work = s.work)
    (hm : (f s).payloadMax = s.payloadMax) (hi : (f s).ibuf.wf) (ht : hostWrite f s = .next t) : t.Inv := by
  obtain ⟨hb, rfl⟩ := hostWrite_next ht
  exact inv_of_sameResults h hb hr hw hm hi

/-- An accepted START leaves no result, and its operands checked (R12, R172). -/
theorem inv_start (h : s.Inv) (ht : start s = .next t) : t.Inv := by
  obtain ⟨hibuf, -, hwork, -⟩ := h
  obtain ⟨-, ⟨i, hi, hp⟩, rfl⟩ := start_next ht
  refine ⟨hibuf, List.Pairwise.nil, hwork, ⟨rfl, rfl, rfl, rfl, rfl, rfl⟩, operandsHeld_iff.mpr ⟨i, hi, ?_⟩⟩
  obtain rfl | rfl | rfl := startProblem_eq_none hp <;> exact hp

theorem inv_execute (h : s.Inv) (ht : execute s = .next t) : t.Inv := by
  obtain ⟨hb, -⟩ := execute_next ht
  obtain ⟨e, he, hx⟩ := execute_of_inv h hb
  cases ht.symm.trans hx
  exact Ending.state_inv h.1 he

/-- RESET leaves the parameter and the rest of the run alone (R170), of which IDLE demands nothing. -/
theorem inv_reset (payloadMax : BitVec 63) (pending : List Move) :
    ({ State.reset with payloadMax := payloadMax, pending := pending } : State).Inv :=
  ⟨List.Pairwise.nil, List.Pairwise.nil, rfl, rfl, rfl, rfl, rfl, rfl, rfl⟩

theorem inv_perform {m : Move} (h : s.Inv) (ht : perform m s = .next t) : t.Inv := by
  cases m with
  | writeOp _ | writeOpcode _ | writeHasKey _ | writeKey32 _ | writeIlen _ =>
    rw [perform] at ht
    exact inv_hostWrite h ⟨rfl, rfl, rfl, rfl, rfl, rfl, rfl⟩ rfl rfl h.1 ht
  | writeKey j v =>
    rw [perform] at ht
    fin_cases j <;> exact inv_hostWrite h ⟨rfl, rfl, rfl, rfl, rfl, rfl, rfl⟩ rfl rfl h.1 ht
  | writeIbuf a v =>
    rw [perform] at ht
    exact inv_hostWrite h ⟨rfl, rfl, rfl, rfl, rfl, rfl, rfl⟩ rfl rfl (write_wf h.1 a.toNat v) ht
  | start => exact inv_start h ht
  | read r =>
    obtain ⟨_, rfl⟩ := hostRead_next ht
    exact h
  | reset =>
    cases ht
    exact inv_reset s.payloadMax s.pending
  | execute => exact inv_execute h ht

theorem inv_idleStep (h : s.Inv) (ht : idleStep s = .next t) : t.Inv := by
  rw [idleStep] at ht
  split at ht
  · exact inv_execute h ht
  all_goals
    cases ht
    exact h

/-- Settles O42: a step is the next pending move, or the block's own, and each keeps the invariant, which does not
speak of `pending`. -/
theorem stepKeepsInvariant : Obligations.StepKeepsInvariant := by
  intro s t h ht
  rw [step, nextMove] at ht
  split at ht
  · exact inv_idleStep h ht
  · next m rest _ => exact inv_perform (s := { s with pending := rest }) h ht

/-- Settles O43: nothing is held, which is what IDLE demands. -/
theorem resetSatisfiesInvariant : Obligations.ResetSatisfiesInvariant := inv_reset _ _

/-- Settles O44: by the definition of the reset state. -/
theorem resetLeavesNoValue : Obligations.ResetLeavesNoValue :=
  ⟨rfl, rfl, rfl, rfl, rfl, rfl, rfl, rfl, rfl, fun _ => rfl, rfl, fun _ => rfl, rfl, rfl, rfl, rfl, rfl⟩

/-! ### Steps -/

theorem step_pending {m : Move} {rest : List Move} (h : s.pending = m :: rest) :
    step s = perform m { s with pending := rest } := by
  simp only [step, nextMove, h]

theorem step_none_pending (h : s.pending = []) : step s = idleStep s := by
  simp only [step, nextMove, h]

theorem idleStep_busy (hb : s.ph = .busy) : idleStep s = execute s := by
  simp only [idleStep, hb]

theorem idleStep_free (hb : s.ph ≠ .busy) : idleStep s = .next s := by
  cases h : s.ph with
  | busy => exact absurd h hb
  | idle | done => simp only [idleStep, h]

/-- Settles O56: the operation that the block performs ends, and every ending is DONE. -/
theorem everyStartedOperationEnds : Obligations.EveryStartedOperationEnds := by
  intro s rest h hb hp
  rcases hp with hp | hp
  · obtain ⟨e, -, he⟩ := execute_of_inv h hb
    exact ⟨_, (step_none_pending hp).trans ((idleStep_busy hb).trans he), e.state_ph s⟩
  · obtain ⟨e, -, he⟩ := execute_of_inv (s := { s with pending := rest }) h hb
    exact ⟨_, (step_pending hp).trans he, e.state_ph _⟩

/-- Settles O40: a pending EXECUTE and a step with nothing pending both come to `exec`. -/
theorem stepRunsTheFetchedInstruction : Obligations.StepRunsTheFetchedInstruction := by
  intro s i rest hb hi
  refine ⟨fun hp => ?_, fun hp => ?_, fun u m hp => step_pending hp⟩
  · exact (step_pending hp).trans (execute_busy (s := { s with pending := rest }) hb hi)
  · exact (step_none_pending hp).trans ((idleStep_busy hb).trans (execute_busy hb hi))

/-- Every instruction but the reserved code is an operation of the block (R38). -/
theorem exec_operation {i : Instr} (h : i ≠ .cmdReserved) : ∃ steps, exec i = operation steps := by
  cases i with
  | cmdReserved => exact absurd rfl h
  | _ => exact ⟨_, rfl⟩

/-- Settles O50: EXECUTE and every operation ask for BUSY, and a step with nothing pending stays. -/
theorem blockMovesOnlyInBusy : Obligations.BlockMovesOnlyInBusy := by
  intro s hb
  refine ⟨?_, fun hp => (step_none_pending hp).trans (idleStep_free hb), fun i hi => ?_⟩
  · cases h : s.ph with
    | busy => exact absurd h hb
    | idle | done => simp only [perform, execute, h]
  · obtain ⟨steps, hs⟩ := exec_operation hi
    rw [hs, operation_not_busy hb]

end Sys2Proof.Machine
end

section
/-! A placed instruction runs next (R12, R67, 30_encoding.md section 8): an operation select is what CMD_OP then
selects, and the first row of a header word is what DECODE does with a frame that begins with the word. -/

namespace Sys2Proof.Machine

variable {s : State} {h : BitVec 16} {r : List Byte}

/-! ### DECODE of a frame whose header word is known -/

theorem execDecode_header (hb : s.ph = .busy) (hin : s.inputBytes = some (bytes16 h ++ r)) :
    execDecode s =
      match violationOf h with
      | some v => .next (raise (.violation v) s)
      | none => runSteps afterOpcode (afterUnpack h s) := by
  obtain ⟨x, y, hxy, rfl⟩ := header_front h r
  rw [hxy] at hin
  rw [execDecode_run hb hin]
  exact (afterUnpack_unpacked hb hin (by simp) (be16 x y)).legality afterOpcode

theorem withHeader_header (hb : s.ph = .busy) (hin : s.inputBytes = some (bytes16 h ++ r)) (steps : List Action) :
    withHeader h steps s = runSteps steps (afterUnpack h s) := by
  rw [withHeader_run hb hin, if_neg (by simp [bytes16])]

/-- A row that only raises the violation of its header word (R141 to R143). -/
theorem withHeader_raise (hb : s.ph = .busy) (hin : s.inputBytes = some (bytes16 h ++ r)) {v : Violation}
    (hv : violationOf h = some v) : withHeader h [raiseStep (.violation v)] s = execDecode s := by
  rw [withHeader_header hb hin, execDecode_header hb hin, hv]
  exact runSteps_raise (s := afterUnpack h s) rfl

/-! ### The first row of a header word -/

/-- What an opcode row runs after the header word, by the class of its opcode (R103). -/
def stepsOfClass : OpcodeClass → List Action
  | .accepted => afterOpcode
  | .reservedNoncontrol => [raiseStep (.violation .reservedNoncontrolOpcode)]
  | .reservedControl => [raiseStep (.violation .reservedControlOpcode)]

/-- The sixteen opcode rows have the class of their opcode (R59). -/
theorem exec_decodeOpcode (h : BitVec 16) :
    exec (decodeOpcode h) = withHeader (hdrWord (hdrFin h) 0#3 (hdrOpcode h) (hdrMask h) (hdrBase h))
      (stepsOfClass (opcodeClass (hdrOpcode h))) := by
  rw [decodeOpcode]
  generalize hdrOpcode h = o
  obtain ⟨⟨n, hn⟩⟩ := o
  interval_cases n <;> rfl

theorem exec_decodeOpcode_run (hb : s.ph = .busy) (hin : s.inputBytes = some (bytes16 h ++ r))
    (hz : h &&& 0x7000#16 = 0#16) : exec (decodeOpcode h) s = execDecode s := by
  have hv : violationOf h = _ := if_neg (not_not.mpr hz)
  have hw := hdrWord_fields h
  rw [(hdrRsv_zero h).mpr hz] at hw
  rw [exec_decodeOpcode, hw]
  cases hc : opcodeClass (hdrOpcode h) with
  | accepted =>
    rw [hc] at hv
    rw [execDecode_header hb hin, hv]
    exact withHeader_header hb hin _
  | reservedNoncontrol | reservedControl =>
    rw [hc] at hv
    exact withHeader_raise hb hin hv

theorem reservedBit_run (hb : s.ph = .busy) (hin : s.inputBytes = some (bytes16 h ++ r))
    (hz : h &&& 0x7000#16 ≠ 0#16) : reservedBit h s = execDecode s :=
  withHeader_raise hb hin (if_pos hz)

/-- The first row of a header word does to a frame that begins with the word what DECODE does to it. -/
theorem exec_decodeLegality (hb : s.ph = .busy) (hin : s.inputBytes = some (bytes16 h ++ r)) :
    exec (decodeLegality h) s = execDecode s := by
  have hw := hdrWord_fields h
  rw [hdrRsv_bits] at hw
  have hset : (hdrRsv1 h || hdrRsv2 h || hdrRsv3 h) = true → reservedBit h s = execDecode s := fun e =>
    reservedBit_run hb hin fun hz => by
      rw [(reserved_mask h).mp hz] at e
      cases e
  rw [decodeLegality]
  by_cases h1 : hdrRsv1 h = true
  · rw [if_pos h1, ← hset (by rw [h1]; rfl)]
    rw [h1] at hw
    exact congrFun (congrArg reservedBit hw) s
  rw [if_neg h1]
  by_cases h2 : hdrRsv2 h = true
  · rw [if_pos h2, ← hset (by rw [h2, Bool.or_true]; rfl)]
    rw [h2] at hw
    exact congrFun (congrArg reservedBit hw) s
  rw [if_neg h2]
  by_cases h3 : hdrRsv3 h = true
  · rw [if_pos h3, ← hset (by rw [h3, Bool.or_true])]
    rw [h3] at hw
    exact congrFun (congrArg reservedBit hw) s
  rw [if_neg h3]
  refine exec_decodeOpcode_run hb hin ((reserved_mask h).mpr ?_)
  simp [h1, h2, h3]

/-! ### What the placed word is -/

theorem decodeTableWord_command (w : Nat) : decodeTableWord 8 w = some (decodeCommand (BitVec.ofNat 2 w)) := by
  have ht : (BitVec.ofNat 8 w).truncate 2 = BitVec.ofNat 2 w := BitVec.setWidth_ofNat_of_le (by decide) w
  rw [decodeTableWord, if_pos (le_refl 8), decodeIn, ht]

theorem decodeTableWord_header (w : Nat) : decodeTableWord 16 w = some (decodeLegality (BitVec.ofNat 16 w)) := by
  rw [decodeTableWord, if_neg (by decide), decodeHeader_bytes16]

/-- A frame of zeros begins with its header word. -/
theorem zeroFrame_front (h : BitVec 16) : ∃ r, zeroFrame h = bytes16 h ++ r := ⟨_, List.append_assoc _ _ _⟩

/-- It is at most 14 bytes of header and 125 of payload. -/
theorem zeroFrame_length_lt (h : BitVec 16) : (zeroFrame h).length < 2 ^ 64 := by
  have := (hdrBase h).isLt
  simp only [zeroFrame, extBytes, bytes16, List.length_append, List.length_replicate, List.length_cons,
    List.length_nil]
  split_ifs <;> omega

theorem fillOperands_pending (s : State) : (fillOperands s).pending = s.pending := by
  rw [fillOperands]
  split <;> rfl

theorem withFetchWord_pending (s : State) (nbits w : Nat) :
    (s.withFetchWord nbits w).pending = .execute :: s.pending := by
  rw [State.withFetchWord, placeInstruction]
  split
  · exact congrArg (Move.execute :: ·) (fillOperands_pending s)
  · rfl

/-- The step after a placement is the block's move, with the run's own moves pending again. -/
theorem step_withFetchWord (s : State) (nbits w : Nat) {i : Instr} (hi : fetch (s.withFetchWord nbits w) = some i) :
    step (s.withFetchWord nbits w) = exec i { s.withFetchWord nbits w with pending := s.pending } :=
  (step_pending (withFetchWord_pending s nbits w)).trans
    (execute_busy (s := { s.withFetchWord nbits w with pending := s.pending }) rfl hi)

/-- Settles O41: the step is EXECUTE; a header word is placed as a frame for DECODE, which its first row refines. -/
theorem placedInstructionRunsNext : Obligations.PlacedInstructionRunsNext := by
  intro s w i
  refine ⟨fun hi => ?_, fun hi => ?_⟩
  · cases (decodeTableWord_command w).symm.trans hi
    exact step_withFetchWord s 8 w rfl
  · cases (decodeTableWord_header w).symm.trans hi
    obtain ⟨r, hr⟩ := zeroFrame_front (BitVec.ofNat 16 w)
    have hin := inputBytes_giveInput (zeroFrame_length_lt (BitVec.ofNat 16 w)) s
    rw [hr] at hin
    refine (step_withFetchWord s 16 w (i := .decode) rfl).trans (Eq.symm ?_)
    refine exec_decodeLegality (s := { s.withFetchWord 16 w with pending := s.pending }) (r := r) rfl ?_
    rw [← hin, ← hr]
    rfl

end Sys2Proof.Machine
end

section
/-! A buffer that is the header of a frame format and exactly the payload it declares is delivered (R36, R55, R62,
R105). A U format is the format without a key and an M format the one with it, so that each tier is one case. -/

namespace Sys2Proof.Machine

variable {s : State} {h : BitVec 16} {key : Option Key} {p : List Byte}

/-! ### U and M formats together -/

/-- The key bytes of a format's header (R55). -/
def keyField : Option Key → List Byte
  | none => []
  | some k => k.bytes

/-- The payload of the frame whose payload bytes on the wire are `p` (R105). -/
def unmaskedWith (p : List Byte) : Option Key → List Byte
  | none => p
  | some k => transform p k

/-- The steps of a format after its length. -/
def formatTail : Option Key → List Action
  | none => clearTail
  | some k => maskedTail k

theorem Sized.runFormatTail {b r : List Byte} {q l : BitVec 64} (hz : Sized s b h q l) (hm : hdrMask h = key.isSome)
    (hk : b.drop q.toNat = keyField key ++ r) : finishes (formatTail key) s b h q l := by
  cases key with
  | none => exact hz.runClear hm
  | some k => exact hz.runKeyed hm hk

theorem decodePayload_exact : decodePayload key.isSome p.length (keyField key ++ p) = .ok (unmaskedWith p key) := by
  have he : exactPayload p.length p = .ok p := exactPayload_self rfl
  cases key with
  | none => exact he
  | some k => exact (decodePayload_key _ _ _ _ _ p).trans (by rw [he]; rfl)

/-- Exactly the declared payload is the frame (R105 to R107). -/
theorem decodeAfterLength_exact {n : Nat} (hn : p.length ≤ n) (hm : hdrMask h = key.isSome) :
    decodeAfterLength n h p.length (keyField key ++ p) =
      .ok (Frame.mk (hdrOpcode h) (hdrFin h) (unmaskedWith p key)) := by
  rw [decodeAfterLength, if_neg (by omega), hm, decodePayload_exact]

/-! ### A header word with reserved bits 0 and an accepted opcode -/

section
variable {fin : Bool} {o : BitVec 4} {base : BitVec 7} (hw : h = hdrWord fin 0#3 o key.isSome base)
include hw

theorem violationOf_accepted (ho : opcodeClass o = .accepted) : violationOf h = none := by
  rw [hw, violationOf_word, if_neg (not_not.mpr rfl), ho]

theorem hdrMask_key : hdrMask h = key.isSome := by rw [hw, hdrMask_word]

variable (ho : opcodeClass o = .accepted) (hb : s.ph = .busy) (hn : p.length ≤ s.payloadMax.toNat)
include ho hb hn

/-- Whatever its tier, a format delivers once its steps find the payload's own length (R102 to R107). -/
theorem format_delivers {r : List Byte} {steps : List Action} (hin : s.inputBytes = some (bytes16 h ++ r))
    (hrun : ∀ t, Unpacked t (bytes16 h ++ r) h → runSteps steps t =
      .next (endDecode t (decodeAfterLength t.payloadMax.toNat h p.length (keyField key ++ p)))) :
    withHeader h (legalitySteps ++ steps) s =
      .next (finish (some fin) (some o) (setOutput (unmaskedWith p key) s)) := by
  have hu : Unpacked (afterUnpack h s) (bytes16 h ++ r) h := afterUnpack_unpacked hb hin (by simp [bytes16]) h
  have hd := decodeAfterLength_exact (n := (afterUnpack h s).payloadMax.toNat) hn (hdrMask_key hw)
  rw [hw, hdrOpcode_word, hdrFin_word, ← hw] at hd
  rw [withHeader_header hb hin, hu.legality, violationOf_accepted hw ho]
  exact (hrun _ hu).trans (by rw [hd]; rfl)

/-! ### The three tiers -/

theorem format7_delivers (hl : base.toNat = p.length)
    (hin : s.inputBytes = some (bytes16 h ++ (keyField key ++ p))) :
    withHeader h (legalitySteps ++ ([lengthFromBase] ++ formatTail key)) s =
      .next (finish (some fin) (some o) (setOutput (unmaskedWith p key) s)) := by
  refine format_delivers hw ho hb hn hin fun t hu => ?_
  have hbase : (hdrBase h).toNat = p.length := by rw [hw, hdrBase_word, hl]
  rw [← hbase]
  exact hu.length7 fun u hz => hz.runFormatTail (hdrMask_key hw) rfl

theorem format16_delivers {ext : BitVec 16} (hl : ext.toNat = p.length)
    (hin : s.inputBytes = some (bytes16 h ++ (bytes16 ext ++ (keyField key ++ p)))) :
    withHeader h (legalitySteps ++ (ext16Given ext ++ formatTail key)) s =
      .next (finish (some fin) (some o) (setOutput (unmaskedWith p key) s)) := by
  refine format_delivers hw ho hb hn hin fun t hu => ?_
  rw [← hl]
  exact hu.ext16 (by simp [bytes16]) fun u hz => hz.runFormatTail (hdrMask_key hw) rfl

theorem format64_delivers {ext : BitVec 64} (hl : ext.toNat = p.length)
    (hin : s.inputBytes = some (bytes16 h ++ (bytes64 ext ++ (keyField key ++ p)))) :
    withHeader h (legalitySteps ++ (ext64Given ext ++ formatTail key)) s =
      .next (finish (some fin) (some o) (setOutput (unmaskedWith p key) s)) := by
  refine format_delivers hw ho hb hn hin fun t hu => ?_
  rw [← hl]
  exact hu.ext64 (by simp [bytes16, bytes64, bytes32]) fun u hz => hz.runFormatTail (hdrMask_key hw) rfl

end

/-- Settles O21: each tier delivers without a key (U) and with it (M). -/
theorem formatRowsDeliver : Obligations.FormatRowsDeliver := by
  intro s fin o k p ho hb hn
  refine ⟨fun base _ hl => ⟨fun hin => ?_, fun hin => ?_⟩, fun ext hl => ⟨fun hin => ?_, fun hin => ?_⟩,
    fun ext hl => ⟨fun hin => ?_, fun hin => ?_⟩⟩
  · exact format7_delivers (key := none) rfl ho hb hn hl hin
  · exact format7_delivers (key := some k) rfl ho hb hn hl hin
  · exact format16_delivers (key := none) rfl ho hb hn hl hin
  · exact format16_delivers (key := some k) rfl ho hb hn hl hin
  · exact format64_delivers (key := none) rfl ho hb hn hl hin
  · exact format64_delivers (key := some k) rfl ho hb hn hl hin

end Sys2Proof.Machine
end

section
/-! Decoding and encoding are inverse within each group of rows (R53, R55, R58 to R60, section 8): what a header word
decodes to is a row with the word's bytes, and bytes 0 and 1 tell where a frame format's header ends. -/

namespace Sys2Proof.Machine

/-! ### Decode of encode -/

/-- The round trip of each constructor, for every instruction. -/
theorem roundTrip (i : Instr) : Laws.RoundTrip.Statement i := by
  cases i with
  | encode => exact Laws.RoundTrip.encode
  | decode => exact Laws.RoundTrip.decode
  | xform => exact Laws.RoundTrip.xform
  | cmdReserved => exact Laws.RoundTrip.cmdReserved
  | cont f m l => exact Laws.RoundTrip.cont f m l
  | text f m l => exact Laws.RoundTrip.text f m l
  | bin f m l => exact Laws.RoundTrip.bin f m l
  | rsvnc3 f m l => exact Laws.RoundTrip.rsvnc3 f m l
  | rsvnc4 f m l => exact Laws.RoundTrip.rsvnc4 f m l
  | rsvnc5 f m l => exact Laws.RoundTrip.rsvnc5 f m l
  | rsvnc6 f m l => exact Laws.RoundTrip.rsvnc6 f m l
  | rsvnc7 f m l => exact Laws.RoundTrip.rsvnc7 f m l
  | close f m l => exact Laws.RoundTrip.close f m l
  | ping f m l => exact Laws.RoundTrip.ping f m l
  | pong f m l => exact Laws.RoundTrip.pong f m l
  | rsvc11 f m l => exact Laws.RoundTrip.rsvc11 f m l
  | rsvc12 f m l => exact Laws.RoundTrip.rsvc12 f m l
  | rsvc13 f m l => exact Laws.RoundTrip.rsvc13 f m l
  | rsvc14 f m l => exact Laws.RoundTrip.rsvc14 f m l
  | rsvc15 f m l => exact Laws.RoundTrip.rsvc15 f m l
  | rsv1Set f r2 r3 o m l => exact Laws.RoundTrip.rsv1Set f r2 r3 o m l
  | rsv2Set f r1 r3 o m l => exact Laws.RoundTrip.rsv2Set f r1 r3 o m l
  | rsv3Set f r1 r2 o m l => exact Laws.RoundTrip.rsv3Set f r1 r2 o m l
  | finSet r o m l => exact Laws.RoundTrip.finSet r o m l
  | finClear r o m l => exact Laws.RoundTrip.finClear r o m l
  | masked f r o l => exact Laws.RoundTrip.masked f r o l
  | unmasked f r o l => exact Laws.RoundTrip.unmasked f r o l
  | len7 f r o m l => exact Laws.RoundTrip.len7 f r o m l
  | len16 f r o m => exact Laws.RoundTrip.len16 f r o m
  | len64 f r o m => exact Laws.RoundTrip.len64 f r o m
  | f7u f r o l => exact Laws.RoundTrip.f7u f r o l
  | f7m f r o l k => exact Laws.RoundTrip.f7m f r o l k
  | f16u f r o e => exact Laws.RoundTrip.f16u f r o e
  | f16m f r o e k => exact Laws.RoundTrip.f16m f r o e k
  | f64u f r o e => exact Laws.RoundTrip.f64u f r o e
  | f64m f r o e k => exact Laws.RoundTrip.f64m f r o e k

/-- Settles O1: constructor by constructor. -/
theorem decodeInvertsEncode : Obligations.DecodeInvertsEncode := fun i rest hw => roundTrip i hw rest

/-! ### The row of a header word -/

variable {h : BitVec 16} {i : Instr}

/-- The header word in terms of its single reserved bits (R53). -/
theorem hdrWord_bits (h : BitVec 16) :
    hdrWord (hdrFin h) (rsvBits (hdrRsv1 h) (hdrRsv2 h) (hdrRsv3 h)) (hdrOpcode h) (hdrMask h) (hdrBase h) = h := by
  rw [← hdrRsv_bits, hdrWord_fields]

/-- `i` is a row of the group, and the header word `h` is its bytes. -/
structure RowOf (g : Group) (h : BitVec 16) (i : Instr) : Prop where
  group : i.group = g
  wellFormed : i.wellFormed = true
  bytes : encode i = bytes16 h

theorem rowOf_rsv1 (hs : hdrRsv1 h = true) :
    RowOf .rsv1 h (.rsv1Set (hdrFin h) (hdrRsv2 h) (hdrRsv3 h) (hdrOpcode h) (hdrMask h) (hdrBase h)) :=
  ⟨rfl, rfl, congrArg bytes16 (hs ▸ hdrWord_bits h)⟩

theorem rowOf_rsv2 (hs : hdrRsv2 h = true) :
    RowOf .rsv2 h (.rsv2Set (hdrFin h) (hdrRsv1 h) (hdrRsv3 h) (hdrOpcode h) (hdrMask h) (hdrBase h)) :=
  ⟨rfl, rfl, congrArg bytes16 (hs ▸ hdrWord_bits h)⟩

theorem rowOf_rsv3 (hs : hdrRsv3 h = true) :
    RowOf .rsv3 h (.rsv3Set (hdrFin h) (hdrRsv1 h) (hdrRsv2 h) (hdrOpcode h) (hdrMask h) (hdrBase h)) :=
  ⟨rfl, rfl, congrArg bytes16 (hs ▸ hdrWord_bits h)⟩

/-- The sixteen opcode rows together: each has its own opcode in its bytes (R59). -/
theorem decodeOpcode_row (h : BitVec 16) :
    RowOf .opcode (hdrWord (hdrFin h) 0#3 (hdrOpcode h) (hdrMask h) (hdrBase h)) (decodeOpcode h) := by
  rw [decodeOpcode]
  generalize hdrOpcode h = o
  obtain ⟨⟨n, hn⟩⟩ := o
  interval_cases n <;> exact ⟨rfl, rfl, rfl⟩

theorem rowOf_opcode (hz : h &&& 0x7000#16 = 0#16) : RowOf .opcode h (decodeOpcode h) := by
  have hr := decodeOpcode_row h
  rwa [← (hdrRsv_zero h).mpr hz, hdrWord_fields] at hr

theorem rowOf_fin (h : BitVec 16) : RowOf .fin h (decodeFin h) := by
  have hw := hdrWord_fields h
  rw [decodeFin]
  split
  · next hf => exact ⟨rfl, rfl, congrArg bytes16 (hf ▸ hw)⟩
  · next hf => exact ⟨rfl, rfl, congrArg bytes16 (Bool.eq_false_iff.mpr hf ▸ hw)⟩

theorem rowOf_mask (h : BitVec 16) : RowOf .mask h (decodeMask h) := by
  have hw := hdrWord_fields h
  rw [decodeMask]
  split
  · next hm => exact ⟨rfl, rfl, congrArg bytes16 (hm ▸ hw)⟩
  · next hm => exact ⟨rfl, rfl, congrArg bytes16 (Bool.eq_false_iff.mpr hm ▸ hw)⟩

/-- What is neither marker is a payload length (R52, R54). -/
theorem directBase_of_ne {l : BitVec 7} (h1 : l ≠ 126#7) (h2 : l ≠ 127#7) : directBase l = true := by
  have hl := l.isLt
  have n1 : l.toNat ≠ 126 := fun e => h1 (BitVec.eq_of_toNat_eq e)
  have n2 : l.toNat ≠ 127 := fun e => h2 (BitVec.eq_of_toNat_eq e)
  rw [directBase, decide_eq_true_eq]
  omega

theorem rowOf_tier (h : BitVec 16) : RowOf .tier h (decodeTier h) := by
  have hw := hdrWord_fields h
  rw [decodeTier]
  split
  · next h1 => exact ⟨rfl, rfl, congrArg bytes16 (h1 ▸ hw)⟩
  · next h1 =>
    split
    · next h2 => exact ⟨rfl, rfl, congrArg bytes16 (h2 ▸ hw)⟩
    · next h2 => exact ⟨rfl, directBase_of_ne h1 h2, congrArg bytes16 hw⟩

/-- The word decodes, within the group of a row that it is in, to that row. -/
theorem RowOf.decodeIn {g : Group} (hr : RowOf g h i) (rest : List Byte) :
    decodeIn i.group (bytes16 h ++ rest) = .ok (i, rest) := by
  rw [← hr.bytes, roundTrip i hr.wellFormed]

/-! ### The first row of a header word -/

/-- Section 8's order: the first reserved bit that is set decides, and the opcode when none is. -/
theorem decodeLegality_cases (h : BitVec 16) :
    (hdrRsv1 h = true ∧ RowOf .rsv1 h (decodeLegality h)) ∨
    (hdrRsv1 h = false ∧ hdrRsv2 h = true ∧ RowOf .rsv2 h (decodeLegality h)) ∨
    (hdrRsv1 h = false ∧ hdrRsv2 h = false ∧ hdrRsv3 h = true ∧ RowOf .rsv3 h (decodeLegality h)) ∨
    (hdrRsv1 h = false ∧ hdrRsv2 h = false ∧ hdrRsv3 h = false ∧ RowOf .opcode h (decodeLegality h)) := by
  by_cases h1 : hdrRsv1 h = true
  · exact .inl ⟨h1, by rw [decodeLegality, if_pos h1]; exact rowOf_rsv1 h1⟩
  by_cases h2 : hdrRsv2 h = true
  · refine .inr (.inl ⟨Bool.eq_false_iff.mpr h1, h2, ?_⟩)
    rw [decodeLegality, if_neg h1, if_pos h2]
    exact rowOf_rsv2 h2
  by_cases h3 : hdrRsv3 h = true
  · refine .inr (.inr (.inl ⟨Bool.eq_false_iff.mpr h1, Bool.eq_false_iff.mpr h2, h3, ?_⟩))
    rw [decodeLegality, if_neg h1, if_neg h2, if_pos h3]
    exact rowOf_rsv3 h3
  · refine .inr (.inr (.inr ⟨Bool.eq_false_iff.mpr h1, Bool.eq_false_iff.mpr h2, Bool.eq_false_iff.mpr h3, ?_⟩))
    rw [decodeLegality, if_neg h1, if_neg h2, if_neg h3]
    exact rowOf_opcode ((reserved_mask h).mpr (by simp [h1, h2, h3]))

/-- Settles O4: the four cases of the order exclude each other, and in each the row is of that group. -/
theorem firstMatchingRowFollowsTheOrder : Obligations.FirstMatchingRowFollowsTheOrder := by
  intro h rest
  refine ⟨decodeLegality h, decodeHeader_bytes16 h rest, ?_⟩
  simp only [← hdrRsv1_eq, ← hdrRsv2_eq, ← hdrRsv3_eq, reserved_mask]
  rcases decodeLegality_cases h with ⟨h1, hr⟩ | ⟨h1, h2, hr⟩ | ⟨h1, h2, h3, hr⟩ | ⟨h1, h2, h3, hr⟩
  all_goals
    refine ⟨hr.decodeIn rest, ?_⟩
    rw [hr.group]
    simp [*]

/-! ### The header of a frame format -/

/-- A 16-bit extended length is whole when two bytes are there (R56). -/
theorem takeExt16_cases (r : List Byte) :
    (r.length < 2 ∧ takeExt16 r = .error .shortExtLen) ∨ ∃ e r', r = bytes16 e ++ r' := by
  match r with
  | [] | [_] => exact .inl ⟨by simp, rfl⟩
  | a :: b :: r' => exact .inr ⟨be16 a b, r', by rw [bytes16_be16]; rfl⟩

/-- A 64-bit extended length is whole when eight bytes are there (R57). -/
theorem takeExt64_cases (r : List Byte) :
    (r.length < 8 ∧ takeExt64 r = .error .shortExtLen) ∨ ∃ e r', r = bytes64 e ++ r' := by
  match r with
  | [] | [_] | [_, _] | [_, _, _] | [_, _, _, _] | [_, _, _, _, _] | [_, _, _, _, _, _] | [_, _, _, _, _, _, _] =>
    exact .inl ⟨by simp, rfl⟩
  | a :: b :: c :: d :: e :: f :: g :: h :: r' =>
    exact .inr ⟨joinHalves (be32 a b c d) (be32 e f g h), r', by rw [bytes64_join]; rfl⟩

/-- The instruction of a format after its length: the key when the masked flag is set (R55). -/
def withKey (mask : Bool) (format : Option Key → Instr) (r : List Byte) : Except DecodeError (Instr × List Byte) :=
  if mask then
    match takeKey r with
    | .error e => .error e
    | .ok (key, r) => .ok (format (some key), r)
  else .ok (format none, r)

theorem keyField_length (key : Option Key) : (keyField key).length = keyBytes key.isSome := by
  cases key <;> rfl

theorem withKey_cases (mask : Bool) (format : Option Key → Instr) (r : List Byte) :
    (r.length < keyBytes mask ∧ withKey mask format r = .error .shortKey) ∨
    ∃ key r', key.isSome = mask ∧ r = keyField key ++ r' ∧ withKey mask format r = .ok (format key, r') := by
  cases mask with
  | false => exact .inr ⟨none, r, rfl, rfl, rfl⟩
  | true =>
    match r with
    | [] | [_] | [_, _] | [_, _, _] => exact .inl ⟨by simp [keyBytes], rfl⟩
    | a :: b :: c :: d :: r' => exact .inr ⟨some (Key.mk a b c d), r', rfl, rfl, rfl⟩

/-- The number of bytes of a header after its word (R58). -/
def headerRest (h : BitVec 16) : Nat := extBytes (hdrBase h) + keyBytes (hdrMask h)

/-- The header with the word `h` is not whole in the bytes `r` after the word, or it is the format `i`, and `x` is
what it has after the word. -/
def FormatAnswer (h : BitVec 16) (r : List Byte) : Prop :=
  (r.length < headerRest h ∧ ∃ e, decodeFormat h r = .error e) ∨
  ∃ i x r', decodeFormat h r = .ok (i, r') ∧ i.group = .format ∧ i.wellFormed = true ∧
    encode i = bytes16 h ++ x ∧ r = x ++ r' ∧ x.length = headerRest h

/-- Once the extended length `x` is there, the key decides (R55, R58). -/
theorem formatAnswer_of_withKey {x r : List Byte} {format : Option Key → Instr}
    (hx : x.length = extBytes (hdrBase h)) (hd : decodeFormat h (x ++ r) = withKey (hdrMask h) format r)
    (hg : ∀ key, (format key).group = .format ∧ (format key).wellFormed = true)
    (he : ∀ key, encode (format key) =
      bytes16 (hdrWord (hdrFin h) (hdrRsv h) (hdrOpcode h) key.isSome (hdrBase h)) ++ (x ++ keyField key)) :
    FormatAnswer h (x ++ r) := by
  rcases withKey_cases (hdrMask h) format r with ⟨hl, hk⟩ | ⟨key, r', hm, rfl, hk⟩
  · refine .inl ⟨?_, _, hd.trans hk⟩
    rw [List.length_append, hx, headerRest]
    omega
  · refine .inr ⟨format key, x ++ keyField key, r', hd.trans hk, (hg key).1, (hg key).2, ?_, ?_, ?_⟩
    · rw [he, hm, hdrWord_fields]
    · rw [List.append_assoc]
    · rw [List.length_append, keyField_length, hx, hm, headerRest]

/-- The format with a 16-bit extended length, by its key. -/
def format16 (f : Bool) (r : BitVec 3) (o : BitVec 4) (e : BitVec 16) : Option Key → Instr
  | none => .f16u f r o e
  | some k => .f16m f r o e k

/-- The format with a 64-bit extended length, by its key. -/
def format64 (f : Bool) (r : BitVec 3) (o : BitVec 4) (e : BitVec 64) : Option Key → Instr
  | none => .f64u f r o e
  | some k => .f64m f r o e k

/-- The format with no extended length, by its key. -/
def format7 (f : Bool) (r : BitVec 3) (o : BitVec 4) (l : BitVec 7) : Option Key → Instr
  | none => .f7u f r o l
  | some k => .f7m f r o l k

/-- Tier by tier: the extended length, then the key (R55 to R58). -/
theorem formatAnswer (h : BitVec 16) (r : List Byte) : FormatAnswer h r := by
  by_cases h1 : hdrBase h = 126#7
  · have hx : extBytes (hdrBase h) = 2 := if_pos h1
    rcases takeExt16_cases r with ⟨hl, hk⟩ | ⟨e, r, rfl⟩
    · exact .inl ⟨by rw [headerRest]; omega, .shortExtLen, by simp [decodeFormat, h1, hk]⟩
    · refine formatAnswer_of_withKey (format := format16 (hdrFin h) (hdrRsv h) (hdrOpcode h) e) hx.symm ?_
        (fun key => by cases key <;> exact ⟨rfl, rfl⟩) (fun key => ?_)
      · simp only [decodeFormat, h1, if_true, takeExt16_bytes]
        rfl
      · rw [h1]
        cases key <;> simp [format16, encode, keyField]
  · by_cases h2 : hdrBase h = 127#7
    · have hx : extBytes (hdrBase h) = 8 := (if_neg h1).trans (if_pos h2)
      rcases takeExt64_cases r with ⟨hl, hk⟩ | ⟨e, r, rfl⟩
      · exact .inl ⟨by rw [headerRest]; omega, .shortExtLen, by simp [decodeFormat, h2, hk]⟩
      · refine formatAnswer_of_withKey (format := format64 (hdrFin h) (hdrRsv h) (hdrOpcode h) e) hx.symm ?_
          (fun key => by cases key <;> exact ⟨rfl, rfl⟩) (fun key => ?_)
        · simp only [decodeFormat, h2, if_true, takeExt64_bytes]
          rfl
        · rw [h2]
          cases key <;> simp [format64, encode, keyField]
    · have hx : extBytes (hdrBase h) = 0 := (if_neg h1).trans (if_neg h2)
      have hb := directBase_of_ne h1 h2
      refine formatAnswer_of_withKey (x := []) (format := format7 (hdrFin h) (hdrRsv h) (hdrOpcode h) (hdrBase h))
        hx.symm ?_ (fun key => by cases key <;> exact ⟨rfl, hb⟩) (fun key => ?_)
      · simp only [decodeFormat, if_neg h1, if_neg h2, List.nil_append]
        rfl
      · cases key <;> simp [format7, encode, keyField]

/-! ### Encode of decode -/

theorem withRest_ok {r rest : List Byte} {x : Except DecodeError Instr} (hx : withRest r x = .ok (i, rest)) :
    x = .ok i ∧ r = rest := by
  cases x with
  | error e => cases hx
  | ok j => cases hx; exact ⟨rfl, rfl⟩

/-- A reserved-bit or opcode row is taken under its condition. -/
theorem takenRow_ok {c : Prop} [Decidable c] {j : Instr} (hx : (if c then Except.ok j else .error .rowNotMatched) =
    (.ok i : Except DecodeError Instr)) : c ∧ j = i := by
  split at hx
  · next hc => cases hx; exact ⟨hc, rfl⟩
  · cases hx

/-- A row with the word's bytes, for all groups of single words. -/
theorem RowOf.inverts {g : Group} (hr : RowOf g h i) (rest : List Byte) :
    i.group = g ∧ i.wellFormed = true ∧ encode i ++ rest = bytes16 h ++ rest :=
  ⟨hr.group, hr.wellFormed, by rw [hr.bytes]⟩

/-- Group by group: a row of one word, or a format and what its header has after the word. -/
theorem decodeIn_header {g : Group} (hg : g ≠ .command) {r rest : List Byte}
    (hd : decodeIn g (bytes16 h ++ r) = .ok (i, rest)) :
    i.group = g ∧ i.wellFormed = true ∧ encode i ++ rest = bytes16 h ++ r := by
  cases g with
  | command => exact absurd rfl hg
  | rsv1 =>
    obtain ⟨hx, rfl⟩ := withRest_ok ((decodeIn_rsv1 h r).symm.trans hd)
    obtain ⟨hs, rfl⟩ := takenRow_ok hx
    exact (rowOf_rsv1 hs).inverts r
  | rsv2 =>
    obtain ⟨hx, rfl⟩ := withRest_ok ((decodeIn_rsv2 h r).symm.trans hd)
    obtain ⟨hs, rfl⟩ := takenRow_ok hx
    exact (rowOf_rsv2 hs).inverts r
  | rsv3 =>
    obtain ⟨hx, rfl⟩ := withRest_ok ((decodeIn_rsv3 h r).symm.trans hd)
    obtain ⟨hs, rfl⟩ := takenRow_ok hx
    exact (rowOf_rsv3 hs).inverts r
  | opcode =>
    obtain ⟨hx, rfl⟩ := withRest_ok ((decodeIn_opcode h r).symm.trans hd)
    obtain ⟨hz, rfl⟩ := takenRow_ok hx
    exact (rowOf_opcode hz).inverts r
  | fin =>
    cases (decodeIn_fin h r).symm.trans hd
    exact (rowOf_fin h).inverts r
  | mask =>
    cases (decodeIn_mask h r).symm.trans hd
    exact (rowOf_mask h).inverts r
  | tier =>
    cases (decodeIn_tier h r).symm.trans hd
    exact (rowOf_tier h).inverts r
  | format =>
    rw [decodeIn_format] at hd
    rcases formatAnswer h r with ⟨-, e, he⟩ | ⟨j, x, r', hj, hg, hw, hb, rfl, -⟩
    · cases he.symm.trans hd
    · cases hj.symm.trans hd
      exact ⟨hg, hw, by rw [hb, List.append_assoc]⟩

/-- Settles O2: within each group of header rows, on the two bytes of the header word and what follows them. -/
theorem encodeInvertsDecode : Obligations.EncodeInvertsDecode := by
  intro g bytes i rest hg hd
  match bytes with
  | [] | [_] =>
    cases g with
    | command => exact absurd rfl hg
    | _ => cases hd
  | a :: b :: r =>
    have hb : a :: b :: r = bytes16 (be16 a b) ++ r := by rw [bytes16_be16]; rfl
    rw [hb] at hd ⊢
    exact decodeIn_header hg hd

/-! ### Where a header ends -/

/-- R58's count of the bytes after the header word, from bytes 0 and 1. -/
theorem headerRest_be16 (a c : Byte) :
    headerRest (be16 a c) =
      (if (c &&& 0x7F#8).toNat = 126 then 2 else if (c &&& 0x7F#8).toNat = 127 then 8 else 0) +
        4 * (c >>> 7).toNat := by
  have hk : ∀ c : Byte, keyBytes (c.getLsbD 7) = 4 * (c >>> 7).toNat := by decide
  rw [headerRest, hdrMask_be16, hk, extBytes, ← hdrBase_be16 a c]
  simp only [← BitVec.toNat_inj, BitVec.toNat_ofNat, Nat.reducePow, Nat.reduceMod]

/-- Settles O6: a format's header is not whole, or it is as long as bytes 0 and 1 say. -/
theorem headerLengthFromTwoBytes : Obligations.HeaderLengthFromTwoBytes := by
  intro a c r
  simp only [← headerRest_be16 a c, decodeIn]
  rcases formatAnswer (be16 a c) r with ⟨hl, he⟩ | ⟨i, x, r', hi, -, -, -, rfl, hx⟩
  · exact ⟨fun h => by omega, fun _ => he⟩
  · refine ⟨fun _ => ⟨i, by rw [hi, ← hx, List.drop_left]⟩, fun h => ?_⟩
    rw [List.length_append] at h
    omega

/-- Settles O5: each word, evaluated. -/
theorem sampleWordsDecode : Obligations.SampleWordsDecode := by
  refine ⟨?_, ?_, ?_, ?_, ?_, ?_, ?_, ?_⟩ <;> decide

end Sys2Proof.Machine
end

section
/-! The fields of the header word, the opcode map, the frame that ENCODE emits and the codes of CMD_OP (R53, R55, R59,
R61, R67, R81 to R88). -/

namespace Sys2Proof.Machine

/-! ### The header word that DECODE fetches -/

theorem hdrOpcode_eq (h : BitVec 16) : hdrOpcode h = h.extractLsb' 8 4 := by
  apply BitVec.eq_of_getLsbD_eq
  intro i hi
  interval_cases i <;> simp [hdrOpcode]

theorem hdrBase_eq (h : BitVec 16) : hdrBase h = h.extractLsb' 0 7 := by
  apply BitVec.eq_of_getLsbD_eq
  intro i hi
  interval_cases i <;> simp [hdrBase]

/-- Step 1 unpacks the word that bytes 0 and 1 make, whatever else IBUF holds (R35, R101). -/
theorem fetchHeader_read {s : State} {a c : Byte} (h0 : Mem.read s.ibuf 0 = some a)
    (h1 : Mem.read s.ibuf 1 = some c) : fetchHeader s = unpackHeader (be16 a c) s := by
  have hr : Mem.readField s.ibuf 0 2 = .ok (bigEndian [a, c]) := by
    simp only [Mem.readField, Mem.readBytes, h0, h1]
  simp only [fetchHeader, needField, hr, bigEndian_two]

/-- Settles O3: step 1 writes the fields as the masks cut them, and each bit of the word is in one field. -/
theorem headerFieldsPartitionTheWord : Obligations.HeaderFieldsPartitionTheWord := by
  refine ⟨fun s a c h0 h1 => ?_, by decide, by decide, fun h => ?_⟩
  · exact ⟨_, fetchHeader_read h0 h1, rfl, rfl, rfl, rfl, rfl, rfl, rfl, rfl⟩
  · exact ⟨hdrFin_eq h, hdrRsv1_eq h, hdrRsv2_eq h, hdrRsv3_eq h, hdrOpcode_eq h, hdrMask_eq h, hdrBase_eq h,
      hdrWord_bits h⟩

/-- Settles O7: the class of each of the sixteen opcodes, which decides once the reserved bits are 0. -/
theorem opcodeMapHasThreeClasses : Obligations.OpcodeMapHasThreeClasses := by
  intro o
  refine ⟨?_, ?_, ?_, fun fin mask base => ?_⟩
  · revert o; decide
  · revert o; decide
  · revert o; decide
  · rw [violationOf_word, if_neg (not_not.mpr rfl)]
    revert o
    decide

/-! ### The frame that ENCODE emits -/

/-- The two bytes of the header word that ENCODE emits (R81, R86). -/
theorem bytes16_encoded (o : BitVec 4) (m : Bool) (l : BitVec 7) :
    bytes16 (hdrWord true 0#3 o m l) = [headerByte o, firstLengthByte m l] := by
  rw [← be16_encoded, bytes16_be16]

theorem lengthField_len7 {n : Nat} (h : n ≤ 125) (m : Bool) :
    lengthField m n = [firstLengthByte m (BitVec.ofNat 7 n)] := by
  rw [lengthField, tierOf, if_pos h]

theorem lengthField_len16 {n : Nat} (h1 : 126 ≤ n) (h2 : n ≤ 65535) (m : Bool) :
    lengthField m n = firstLengthByte m 126#7 :: bytes16 (BitVec.ofNat 16 n) := by
  rw [lengthField, tierOf, if_neg (by omega), if_pos h2]

theorem lengthField_len64 {n : Nat} (h : 65536 ≤ n) (m : Bool) :
    lengthField m n = firstLengthByte m 127#7 :: bytes64 (BitVec.ofNat 64 n) := by
  rw [lengthField, tierOf, if_neg (by omega), if_neg (by omega)]

/-- Settles O9: the header word and the length field of each tier, without a key and with one. -/
theorem encodedFrameHasItsFormat : Obligations.EncodedFrameHasItsFormat := by
  intro o k p
  refine ⟨fun h => ?_, fun h1 h2 => ?_, fun h => ?_⟩
  · simp [encodeBytes, lengthField_len7 h, encode, bytes16_encoded]
  · simp [encodeBytes, lengthField_len16 h1 h2, encode, bytes16_encoded]
  · simp [encodeBytes, lengthField_len64 h, encode, bytes16_encoded]

/-! ### The reserved operation select -/

/-- Outside BUSY a START that finds a problem is refused for it (R12). -/
theorem start_problem {s : State} {i : Instr} {e : Refusal} (hb : s.ph ≠ .busy) (hi : fetch s = some i)
    (hp : startProblem i s = some e) : start s = .refused e := by
  cases h : s.ph with
  | busy => exact absurd h hb
  | idle | done => simp only [start, h, hi, hp, need_some]

/-- Settles O13: the four codes, and the reserved one is START's problem whatever the state holds. -/
theorem reservedCommandIsRefused : Obligations.ReservedCommandIsRefused :=
  ⟨rfl, rfl, rfl, rfl, fun _ => ⟨rfl, fun hc hb => start_problem hb (fetch_of_cmdOp hc) rfl⟩⟩

end Sys2Proof.Machine
end

section
/-! What the rows of the header word and of the frame formats do (R60 to R64, R101 to R105, R109): each does what
DECODE does with a buffer that begins with its bytes, and a row whose word is a violation needs only two bytes. -/

namespace Sys2Proof.Machine

variable {s : State} {h : BitVec 16} {r : List Byte}

/-! ### What the steps of a row come to after step 1 -/

/-- A row that checks its header word does what DECODE does when its other steps do what step 4 and the following do
(R102, R103). -/
theorem legality_refines (hb : s.ph = .busy) (hin : s.inputBytes = some (bytes16 h ++ r)) {steps : List Action}
    (hrun : ∀ t, Unpacked t (bytes16 h ++ r) h → runSteps steps t = runSteps afterOpcode t) :
    withHeader h (legalitySteps ++ steps) s = execDecode s := by
  have hu : Unpacked (afterUnpack h s) (bytes16 h ++ r) h := afterUnpack_unpacked hb hin (by simp [bytes16]) h
  rw [withHeader_header hb hin, hu.legality, execDecode_header hb hin, hrun _ hu]
  cases violationOf h <;> rfl

/-- An opcode row (R103). -/
theorem opcodeRow_refines {f m : Bool} {o : BitVec 4} {l : BitVec 7} (hb : s.ph = .busy)
    (hin : s.inputBytes = some (bytes16 (hdrWord f 0#3 o m l) ++ r)) :
    withHeader (hdrWord f 0#3 o m l) (stepsOfClass (opcodeClass o)) s = execDecode s := by
  rw [← exec_decodeOpcode_run hb hin (word_reserved_zero f o m l), exec_decodeOpcode, hdrFin_word, hdrOpcode_word,
    hdrMask_word, hdrBase_word]

/-- A header word with a reserved bit set. -/
theorem word_reserved_set {f m x y z : Bool} {o : BitVec 4} {l : BitVec 7} (hs : (x || y || z) = true) :
    hdrWord f (rsvBits x y z) o m l &&& 0x7000#16 ≠ 0#16 := by
  rw [ne_eq, reserved_mask, hdrRsv1_word, hdrRsv2_word, hdrRsv3_word, rsvBits_two, rsvBits_one, rsvBits_zero, hs]
  decide

section
variable {t : State} {b : List Byte} (hu : Unpacked t b h)
include hu

/-- The masked flag is known to be 1 (R105). -/
theorem Unpacked.runMasked (hm : hdrMask h = true) :
    runSteps ([Machine.readLength, checkRange] ++ keySteps ++ [checkExtent, unmaskPayload, deliver]) t =
      runSteps afterOpcode t :=
  (hu.readLength fun _ _ _ hz => hz.runMasked hm).trans hu.runAfterOpcode.symm

/-- The masked flag is known to be 0 (R105). -/
theorem Unpacked.runUnmasked (hm : hdrMask h = false) :
    runSteps [Machine.readLength, checkRange, checkExtent, clearPayload, deliver] t = runSteps afterOpcode t :=
  (hu.readLength fun _ _ _ hz => hz.runClear hm).trans hu.runAfterOpcode.symm

/-- The tier is known to be LEN7 (R104). -/
theorem Unpacked.runLen7 (h1 : hdrBase h ≠ 126#7) (h2 : hdrBase h ≠ 127#7) :
    runSteps ([lengthFromBase] ++ afterLength) t = runSteps afterOpcode t := by
  have hr : Machine.readLength t = lengthFromBase t := by
    rw [Machine.readLength, hu.base, need_some, if_neg h1, if_neg h2]
  exact (runSteps_congr hr).symm

/-- The tier is known to be LEN16 (R104). -/
theorem Unpacked.runLen16 (h1 : hdrBase h = 126#7) :
    runSteps (lengthStep16 ++ afterLength) t = runSteps afterOpcode t := by
  have hr : Machine.readLength t = runSteps lengthStep16 t := by
    rw [Machine.readLength, hu.base, need_some, if_pos h1]
  exact (runSteps_nested hu.busy hr).symm

/-- The tier is known to be LEN64 (R104). -/
theorem Unpacked.runLen64 (h2 : hdrBase h = 127#7) :
    runSteps (lengthStep64 ++ afterLength) t = runSteps afterOpcode t := by
  have hr : Machine.readLength t = runSteps lengthStep64 t := by
    rw [Machine.readLength, hu.base, need_some, if_neg (by rw [h2]; decide), if_pos h2]
  exact (runSteps_nested hu.busy hr).symm

end

/-! ### The whole header of a format -/

section
variable {t : State} {key : Option Key} (hm : hdrMask h = key.isSome)
include hm

/-- Formats F7U and F7M (R55). -/
theorem Unpacked.runFormat7 (hu : Unpacked t (bytes16 h ++ (keyField key ++ r)) h) (h1 : hdrBase h ≠ 126#7)
    (h2 : hdrBase h ≠ 127#7) : runSteps ([lengthFromBase] ++ formatTail key) t = runSteps afterOpcode t := by
  refine (hu.length7 fun u hz => hz.runFormatTail hm rfl).trans (Eq.trans ?_ hu.runAfterOpcode.symm)
  simp [decodeAfterOpcode, decodeLength, h1, h2]

/-- Formats F16U and F16M (R55, R56). -/
theorem Unpacked.runFormat16 {e : BitVec 16} (hu : Unpacked t (bytes16 h ++ (bytes16 e ++ (keyField key ++ r))) h)
    (h1 : hdrBase h = 126#7) : runSteps (ext16Given e ++ formatTail key) t = runSteps afterOpcode t := by
  refine (hu.ext16 (by simp [bytes16]) fun u hz => hz.runFormatTail hm rfl).trans
    (Eq.trans ?_ hu.runAfterOpcode.symm)
  simp [decodeAfterOpcode, decodeLength, h1, bytes16, be16_bytes16]

/-- Formats F64U and F64M (R55, R57). -/
theorem Unpacked.runFormat64 {e : BitVec 64} (hu : Unpacked t (bytes16 h ++ (bytes64 e ++ (keyField key ++ r))) h)
    (h2 : hdrBase h = 127#7) : runSteps (ext64Given e ++ formatTail key) t = runSteps afterOpcode t := by
  refine (hu.ext64 (by simp [bytes16, bytes64, bytes32]) fun u hz => hz.runFormatTail hm rfl).trans
    (Eq.trans ?_ hu.runAfterOpcode.symm)
  simp [decodeAfterOpcode, decodeLength, h2, bytes16, bytes64, bytes32, be32_bytes32]

end

theorem hdrBase_direct {f m : Bool} {v : BitVec 3} {o : BitVec 4} {l : BitVec 7} (hw : directBase l = true) :
    hdrBase (hdrWord f v o m l) ≠ 126#7 ∧ hdrBase (hdrWord f v o m l) ≠ 127#7 := by
  rw [hdrBase_word]
  exact directBase_ne hw

/-- Settles O23: row by row, each kind of row by what its steps come to. -/
theorem headerRowsRefineDecode : Obligations.HeaderRowsRefineDecode := by
  intro i s r hg hw ⟨hb, hin⟩
  cases i with
  | encode | decode | xform | cmdReserved => exact absurd rfl hg
  | cont f m l | text f m l | bin f m l | rsvnc3 f m l | rsvnc4 f m l | rsvnc5 f m l | rsvnc6 f m l | rsvnc7 f m l
  | close f m l | ping f m l | pong f m l | rsvc11 f m l | rsvc12 f m l | rsvc13 f m l | rsvc14 f m l
  | rsvc15 f m l => exact opcodeRow_refines hb hin
  | rsv1Set f x y o m l => exact reservedBit_run hb hin (word_reserved_set rfl)
  | rsv2Set f x y o m l => exact reservedBit_run hb hin (word_reserved_set (by simp))
  | rsv3Set f x y o m l => exact reservedBit_run hb hin (word_reserved_set (by simp))
  | finSet v o m l | finClear v o m l => exact legality_refines hb hin fun _ _ => rfl
  | masked f v o l => exact legality_refines hb hin fun _ hu => hu.runMasked (hdrMask_word ..)
  | unmasked f v o l => exact legality_refines hb hin fun _ hu => hu.runUnmasked (hdrMask_word ..)
  | len7 f v o m l =>
    obtain ⟨h1, h2⟩ := hdrBase_direct hw
    exact legality_refines hb hin fun _ hu => hu.runLen7 h1 h2
  | len16 f v o m => exact legality_refines hb hin fun _ hu => hu.runLen16 (hdrBase_word ..)
  | len64 f v o m => exact legality_refines hb hin fun _ hu => hu.runLen64 (hdrBase_word ..)
  | f7u f v o l =>
    obtain ⟨h1, h2⟩ := hdrBase_direct hw
    exact legality_refines hb hin fun _ hu => hu.runFormat7 (key := none) (hdrMask_word ..) h1 h2
  | f7m f v o l k =>
    obtain ⟨h1, h2⟩ := hdrBase_direct hw
    exact legality_refines hb hin fun _ hu => hu.runFormat7 (key := some k) (hdrMask_word ..) h1 h2
  | f16u f v o e =>
    exact legality_refines hb hin fun _ hu => hu.runFormat16 (key := none) (hdrMask_word ..) (hdrBase_word ..)
  | f16m f v o e k =>
    exact legality_refines hb hin fun _ hu => hu.runFormat16 (key := some k) (hdrMask_word ..) (hdrBase_word ..)
  | f64u f v o e =>
    exact legality_refines hb hin fun _ hu => hu.runFormat64 (key := none) (hdrMask_word ..) (hdrBase_word ..)
  | f64m f v o e k =>
    exact legality_refines hb hin fun _ hu => hu.runFormat64 (key := some k) (hdrMask_word ..) (hdrBase_word ..)

/-! ### Rows that deliver -/

/-- The pure function on a well-framed buffer whose header word is no violation (R105, R108, R109). -/
theorem decodeBytes_wellFramed {n : Nat} (hv : violationOf h = none) (hf : wellFramed n (bytes16 h ++ r) = true) :
    decodeBytes n (bytes16 h ++ r) =
      .ok (Frame.mk (hdrOpcode h) (hdrFin h) (framePayload (bytes16 h ++ r))) := by
  obtain ⟨x, y, hxy, rfl⟩ := header_front h r
  rw [hxy] at hf ⊢
  obtain ⟨he, hd, hl⟩ := (wellFramed_iff n x y r).mp hf
  rw [decodeBytes, decodeAfterHeader, hv]
  simp only [decodeAfterOpcode_whole he]
  rw [decodeAfterLength_inRange (by omega), decodePayload_cases, List.length_drop, if_neg (by omega),
    if_neg (by omega), if_neg (by omega)]
  rfl

/-- A row with reserved bits 0 and an accepted opcode delivers what DECODE delivers. -/
theorem deliversFrame_row {i : Instr} {fin mask : Bool} {o : BitVec 4} {base : BitVec 7}
    (ho : opcodeClass o = .accepted) (hi : encode i = bytes16 (hdrWord fin 0#3 o mask base))
    (hg : i.group ≠ .command) (hw : i.wellFormed = true) : deliversFrame i fin o := by
  intro s r hs hf
  rw [headerRowsRefineDecode i s r hg hw hs]
  refine (execDecode_endDecode hs.1 hs.2).trans ?_
  have hv : violationOf (hdrWord fin 0#3 o mask base) = none := by
    rw [violationOf_word, if_neg (not_not.mpr rfl), ho]
  rw [hi] at hf ⊢
  rw [decodeBytes_wellFramed hv hf, hdrOpcode_word, hdrFin_word]
  rfl

/-- Settles O14: the six opcodes are accepted ones. -/
theorem acceptedOpcodeRowsDeliver : Obligations.AcceptedOpcodeRowsDeliver := fun _ _ _ =>
  ⟨deliversFrame_row (by decide) rfl nofun rfl, deliversFrame_row (by decide) rfl nofun rfl,
    deliversFrame_row (by decide) rfl nofun rfl, deliversFrame_row (by decide) rfl nofun rfl,
    deliversFrame_row (by decide) rfl nofun rfl, deliversFrame_row (by decide) rfl nofun rfl⟩

/-- Settles O18: the fin bit of the row's word is the fin delivered. -/
theorem finRowsReportTheFin : Obligations.FinRowsReportTheFin := fun _ _ _ ho =>
  ⟨deliversFrame_row ho rfl nofun rfl, deliversFrame_row ho rfl nofun rfl⟩

/-- Settles O20: a base length of at most 125 is what makes the row LEN7 well formed. -/
theorem tierRowsDeliver : Obligations.TierRowsDeliver := fun _ _ _ ho =>
  ⟨fun _ hl => deliversFrame_row ho rfl nofun (decide_eq_true hl), deliversFrame_row ho rfl nofun rfl,
    deliversFrame_row ho rfl nofun rfl⟩

/-! ### Rows that raise -/

/-- Two bytes are enough for a row to run its steps, whether or not IBUF holds them (R101, R107). -/
theorem withHeader_held {n : BitVec 64} (hb : s.ph = .busy) (hn : s.ilen = some n) (h2 : 2 ≤ n.toNat)
    (steps : List Action) : withHeader h steps s = runSteps steps (afterUnpack h s) := by
  have hr : requireInput 2 .shortHeader (setWork { s.work with pos := some 0 } s) =
      .next (setWork { s.work with pos := some 0 } s) := by
    rw [requireInput, setWork_ilen, hn, need_some, if_neg (by omega)]
  rw [withHeader, operation_busy hb]
  exact (runSteps_go (t := setWork { s.work with pos := some 0 } s) rfl hb).trans
    ((runSteps_go hr hb).trans (runSteps_go rfl hb))

theorem withHeader_raises (h : BitVec 16) (v : Violation) {n : BitVec 64} (hb : s.ph = .busy) (hn : s.ilen = some n)
    (h2 : 2 ≤ n.toNat) : withHeader h [raiseStep (.violation v)] s = .next (raise (.violation v) s) :=
  (withHeader_held hb hn h2 _).trans (runSteps_raise (s := afterUnpack h s) rfl)

/-- A row whose one step is to raise its violation. -/
theorem raisesViolation_row {i : Instr} {v : Violation} (h : BitVec 16)
    (hi : exec i = withHeader h [raiseStep (.violation v)]) : raisesViolation i v :=
  fun _ _ hb hn h2 => (congrFun hi _).trans (withHeader_raises h v hb hn h2)

/-- Settles O15: each row's one step after the header word. -/
theorem reservedNoncontrolRowsRaise : Obligations.ReservedNoncontrolRowsRaise :=
  ⟨rfl, fun _ _ _ => ⟨raisesViolation_row _ rfl, raisesViolation_row _ rfl, raisesViolation_row _ rfl,
    raisesViolation_row _ rfl, raisesViolation_row _ rfl⟩⟩

/-- Settles O16: each row's one step after the header word. -/
theorem reservedControlRowsRaise : Obligations.ReservedControlRowsRaise :=
  ⟨rfl, fun _ _ _ => ⟨raisesViolation_row _ rfl, raisesViolation_row _ rfl, raisesViolation_row _ rfl,
    raisesViolation_row _ rfl, raisesViolation_row _ rfl⟩⟩

/-- Settles O17: each row's one step after the header word. -/
theorem reservedBitRowsRaise : Obligations.ReservedBitRowsRaise :=
  ⟨rfl, fun _ _ _ _ _ _ => ⟨raisesViolation_row _ rfl, raisesViolation_row _ rfl, raisesViolation_row _ rfl⟩⟩

end Sys2Proof.Machine
end

section
/-! ENCODE, whole (R89), the length of its frame (R90), and DECODE of that frame (R96): the frame's first bytes say
where its payload begins, and unmasking undoes masking. -/

namespace Sys2Proof.Machine

variable {s : State} {o : BitVec 4} {key : Option Key} {p : List Byte}

/-! ### The transform twice -/

/-- The engine undoes itself when it runs again from the same index (R131). -/
@[simp] theorem maskFrom_maskFrom (k : Key) (i : BitVec 2) (d : List Byte) : maskFrom k i (maskFrom k i d) = d := by
  induction d generalizing i with
  | nil => rfl
  | cons x d ih => rw [maskFrom, maskFrom, ih, BitVec.xor_assoc, BitVec.xor_self, BitVec.xor_zero]

@[simp] theorem transform_transform (d : List Byte) (k : Key) : transform (transform d k) k = d :=
  maskFrom_maskFrom k 0#2 d

/-- The payload of a frame is unmasked as it was masked (R88, R105). -/
theorem unmaskedWith_unmaskedWith (p : List Byte) (key : Option Key) : unmaskedWith (unmaskedWith p key) key = p := by
  cases key with
  | none => rfl
  | some k => exact transform_transform p k

theorem unmaskedWith_length (p : List Byte) (key : Option Key) : (unmaskedWith p key).length = p.length := by
  cases key with
  | none => rfl
  | some k => exact transform_length p k

/-! ### The length field, written and read -/

/-- The extended lengths are read as they were written (R56, R57). -/
theorem decodeLength_bytes16 (v : BitVec 16) (r : List Byte) :
    decodeLength 126#7 (bytes16 v ++ r) = .ok (v.toNat, r) := by
  obtain ⟨x, y, hxy, hv⟩ := header_front v r
  rw [hxy, decodeLength, if_pos rfl, hv]

theorem decodeLength_bytes64 (v : BitVec 64) (r : List Byte) :
    decodeLength 127#7 (bytes64 v ++ r) = .ok (v.toNat, r) := by
  simp only [bytes64, bytes32, List.cons_append, List.nil_append, decodeLength, be32_bytes32, joinHalves_split]
  rfl

/-- Step 4 of DECODE reads back the length that ENCODE wrote, whatever its tier (R82 to R86, R104). -/
theorem lengthField_read {n : Nat} (hn : n < 2 ^ 64) (m : Bool) :
    ∃ base ext, lengthField m n = firstLengthByte m base :: ext ∧
      ∀ r, decodeLength base (ext ++ r) = .ok (n, r) := by
  by_cases h7 : n ≤ 125
  · have ht : (BitVec.ofNat 7 n).toNat = n := by rw [BitVec.toNat_ofNat, Nat.mod_eq_of_lt (by omega)]
    have hne : ∀ v : BitVec 7, 126 ≤ v.toNat → BitVec.ofNat 7 n ≠ v := fun v hv e => by
      rw [e] at ht
      omega
    refine ⟨_, [], lengthField_len7 h7 m, fun r => ?_⟩
    rw [decodeLength.eq_def, if_neg (hne 126#7 (by decide)), if_neg (hne 127#7 (by decide)), ht]
    rfl
  by_cases h16 : n ≤ 65535
  · refine ⟨_, _, lengthField_len16 (by omega) h16 m, fun r => ?_⟩
    rw [decodeLength_bytes16, BitVec.toNat_ofNat, Nat.mod_eq_of_lt (by omega)]
  · refine ⟨_, _, lengthField_len64 (by omega) m, fun r => ?_⟩
    rw [decodeLength_bytes64, BitVec.toNat_ofNat, Nat.mod_eq_of_lt hn]

theorem lengthFieldSize_eq (n : Nat) :
    lengthFieldSize n = if n ≤ 125 then 1 else if n ≤ 65535 then 3 else 9 := by
  rw [lengthFieldSize, tierOf]
  by_cases h7 : n ≤ 125
  · rw [if_pos h7, if_pos h7]
  by_cases h16 : n ≤ 65535
  · rw [if_neg h7, if_neg h7, if_pos h16, if_pos h16]
  · rw [if_neg h7, if_neg h7, if_neg h16, if_neg h16]

/-! ### The frame -/

/-- The parts of a frame: header byte, length field, key, payload (R50, R89). -/
theorem encodeBytes_eq (o : BitVec 4) (key : Option Key) (p : List Byte) :
    encodeBytes o key p =
      headerByte o :: (lengthField key.isSome p.length ++ (keyField key ++ unmaskedWith p key)) := by
  cases key with
  | none => rfl
  | some k => simp [encodeBytes, keyField, unmaskedWith]

theorem keyBytes_eq (m : Bool) : keyBytes m = 4 * (if m then 1 else 0) := by
  cases m <;> rfl

/-- R90's formula. -/
theorem encodeBytes_length (o : BitVec 4) (key : Option Key) (p : List Byte) :
    (encodeBytes o key p).length =
      1 + (if p.length ≤ 125 then 1 else if p.length ≤ 65535 then 3 else 9) + 4 * (if key.isSome then 1 else 0) +
        p.length := by
  rw [encodeBytes_eq, List.length_cons, List.length_append, List.length_append, lengthField_length,
    lengthFieldSize_eq, keyField_length, keyBytes_eq, unmaskedWith_length]
  omega

theorem encodeBytes_length_ge (o : BitVec 4) (key : Option Key) (p : List Byte) :
    2 ≤ (encodeBytes o key p).length := by
  rw [encodeBytes_length]
  split_ifs <;> omega

/-! ### DECODE of the frame -/

/-- DECODE finds the violation of the opcode, or the Frame that was encoded (R96). -/
theorem decodeBytes_encodeBytes {n : Nat} (hn : p.length ≤ n) (hp : p.length < 2 ^ 64) :
    decodeBytes n (encodeBytes o key p) =
      match opcodeClass o with
      | .accepted => .ok (Frame.mk o true p)
      | .reservedNoncontrol => .error (.violation .reservedNoncontrolOpcode)
      | .reservedControl => .error (.violation .reservedControlOpcode) := by
  obtain ⟨base, ext, hf, hread⟩ := lengthField_read hp key.isSome
  have hpay := decodeAfterLength_exact (n := n) (p := unmaskedWith p key)
    (h := hdrWord true 0#3 o key.isSome base) (by rwa [unmaskedWith_length]) (hdrMask_key rfl)
  rw [unmaskedWith_length, unmaskedWith_unmaskedWith, hdrOpcode_word, hdrFin_word] at hpay
  rw [encodeBytes_eq, hf, List.cons_append, decodeBytes, be16_encoded, decodeAfterHeader, violationOf_word,
    if_neg (not_not.mpr rfl), decodeAfterOpcode, hdrBase_word, hread]
  cases opcodeClass o with
  | accepted => exact hpay
  | reservedNoncontrol => rfl
  | reservedControl => rfl

/-! ### The statements -/

/-- The operands of ENCODE, held one by one, are those of one frame (R89). -/
theorem encodeOperands_of_held {m : Bool} (h : s.running p) (ho : s.cmdOpcode = some o) (hm : s.cmdHasKey = some m)
    (hk : m = true → s.cmdKey.isSome = true) : ∃ key, key.isSome = m ∧ EncodeOperands s o key p := by
  cases m with
  | false => exact ⟨none, rfl, ho, hm, nofun, h.2⟩
  | true =>
    obtain ⟨k, hk⟩ := Option.isSome_iff_exists.mp (hk rfl)
    exact ⟨some k, rfl, ho, hm, fun _ e => e ▸ hk, h.2⟩

/-- A payload within PAYLOAD_MAX makes a frame that OBUF holds and OLEN counts (R15, R90). -/
theorem encodeBytes_length_le_frameMax (hp : p.length ≤ s.payloadMax.toNat) :
    (encodeBytes o key p).length ≤ Config.frameMax s.payloadMax :=
  (encodeBytes_length_le o key p).trans (Nat.add_le_add_right hp 14)

/-- ENCODE of operands within the bounds answers a state that holds its frame (R89, R90). -/
theorem execEncode_output (hb : s.ph = .busy) (h : EncodeOperands s o key p)
    (hp : p.length ≤ s.payloadMax.toNat) :
    ∃ t, execEncode s = .next t ∧ t.resStatus = some .ok ∧
      t.olen = some (BitVec.ofNat 64 (encodeBytes o key p).length) ∧
      t.outputBytes = some (encodeBytes o key p) :=
  ⟨_, execEncode_run hb h, rfl, rfl, outputBytes_setOutput
    (lt_of_le_of_lt (encodeBytes_length_le_frameMax hp) (frameMax_lt _)) s⟩

/-- Settles O28: DECODE answers what the pure function gives on the frame that ENCODE left in OBUF. -/
theorem decodingAnEncodedFrameGivesItBack : Obligations.DecodingAnEncodedFrameGivesItBack := by
  intro s u o m p hs ho hm hk hp hu hmax
  obtain ⟨key, -, hops⟩ := encodeOperands_of_held hs ho hm hk
  obtain ⟨t, ht, hok, -, hout⟩ := execEncode_output hs.1 hops hp
  refine ⟨t, ht, hok, fun hin => ?_⟩
  have hdec : exec .decode u = _ := execDecode_endDecode hu (hin.trans hout)
  rw [hmax, decodeBytes_encodeBytes hp (inputBytes_length_lt hs.2)] at hdec
  rw [← (opcodeMapHasThreeClasses o).1, hdec]
  cases opcodeClass o with
  | accepted => exact ⟨fun _ => rfl, fun hne => absurd rfl hne⟩
  | reservedNoncontrol => exact ⟨nofun, fun _ => ⟨_, rfl⟩⟩
  | reservedControl => exact ⟨nofun, fun _ => ⟨_, rfl⟩⟩

/-- Settles O8: without a key and with one. -/
theorem encodeProducesTheFrame : Obligations.EncodeProducesTheFrame := by
  intro s o p hs ho
  exact ⟨fun hm => execEncode_run hs.1 ⟨ho, hm, nofun, hs.2⟩,
    fun k hm hk => execEncode_run hs.1 ⟨ho, hm, fun _ e => Option.some.inj e ▸ hk, hs.2⟩⟩

/-- Settles O10: OLEN is the frame's own length, which PAYLOAD_MAX keeps below 2^64. -/
theorem encodeOutputLength : Obligations.EncodeOutputLength := by
  intro s o m p hs ho hm hk hp
  obtain ⟨key, rfl, hops⟩ := encodeOperands_of_held hs ho hm hk
  obtain ⟨t, ht, -, hlen, hout⟩ := execEncode_output hs.1 hops hp
  have hle := encodeBytes_length_le_frameMax (o := o) (key := key) hp
  have hn : (BitVec.ofNat 64 (encodeBytes o key p).length).toNat = (encodeBytes o key p).length := by
    rw [BitVec.toNat_ofNat, Nat.mod_eq_of_lt (lt_of_le_of_lt hle (frameMax_lt _))]
  refine ⟨t, _, _, ht, hlen, hout, hn.symm, hn.trans (encodeBytes_length o key p), ?_, ?_⟩
  · rw [hn]
    exact encodeBytes_length_ge o key p
  · rwa [hn]

end Sys2Proof.Machine
end

section
/-! What DECODE answers (R101 to R109, R147): a violation of the header word, which needs no byte but the first two,
else the first framing fault of the buffer, else the Frame. -/

namespace Sys2Proof.Machine

variable {s : State} {n : BitVec 64} {h : BitVec 16} {v : Violation} {a c : Byte} {r : List Byte}

/-! ### Violations -/

/-- Input bytes that are at least two begin with bytes 0 and 1 of IBUF (R14). -/
theorem inputBytes_front {b : List Byte} (hin : s.inputBytes = some b) (hn : s.ilen = some n) (h2 : 2 ≤ n.toNat)
    (h0 : Mem.read s.ibuf 0 = some a) (h1 : Mem.read s.ibuf 1 = some c) : ∃ r, b = a :: c :: r := by
  obtain ⟨m, hm, hl, hr⟩ := inputBytes_eq_some hin
  cases hn.symm.trans hm
  have hread := ((readBytes_ok_iff _ _ _ _).mp hr).2
  match b, hl, hread with
  | [], hl, _ | [_], hl, _ => simp at hl; omega
  | x :: y :: r, _, hread =>
    cases h0.symm.trans (hread 0 (by simp))
    cases h1.symm.trans (hread 1 (by simp))
    exact ⟨r, rfl⟩

/-- Steps 2 and 3 read only the header word, whatever IBUF holds (R102, R103). -/
theorem legality_raises (hb : s.ph = .busy) (hv : violationOf h = some v) (steps : List Action) :
    runSteps (legalitySteps ++ steps) (afterUnpack h s) = .next (raise (.violation v) s) := by
  rw [legality_run (s := afterUnpack h s) hb rfl rfl rfl rfl, hv]
  rfl

/-- A row that checks its header word raises the violation of that word. -/
theorem raisesViolation_legality {i : Instr} {steps : List Action} (hv : violationOf h = some v)
    (hi : exec i = withHeader h (checkReserved :: checkOpcode :: steps)) : raisesViolation i v :=
  fun _ _ hb hn h2 => (congrFun hi _).trans ((withHeader_held hb hn h2 _).trans (legality_raises hb hv steps))

/-- DECODE with ILEN at least 2 and bytes 0 and 1 held, whether or not IBUF holds another byte (R101, R107). -/
theorem execDecode_held (hb : s.ph = .busy) (hn : s.ilen = some n) (h2 : 2 ≤ n.toNat)
    (h0 : Mem.read s.ibuf 0 = some a) (h1 : Mem.read s.ibuf 1 = some c) :
    execDecode s = runSteps (legalitySteps ++ afterOpcode) (afterUnpack (be16 a c) s) := by
  have hf : fetchHeader (setWork { s.work with pos := some 0 } s) = .next (afterUnpack (be16 a c) s) :=
    fetchHeader_read (s := setWork { s.work with pos := some 0 } s) h0 h1
  have hr : requireInput 2 .shortHeader (setWork { s.work with pos := some 0 } s) =
      .next (setWork { s.work with pos := some 0 } s) := by
    rw [requireInput, setWork_ilen, hn, need_some, if_neg (by omega)]
  rw [execDecode, operation_busy hb]
  exact (runSteps_go (t := setWork { s.work with pos := some 0 } s) rfl hb).trans
    ((runSteps_go hr hb).trans (runSteps_go hf hb))

theorem execDecode_raises (hb : s.ph = .busy) (hn : s.ilen = some n) (h2 : 2 ≤ n.toNat)
    (h0 : Mem.read s.ibuf 0 = some a) (h1 : Mem.read s.ibuf 1 = some c) (hv : violationOf (be16 a c) = some v) :
    execDecode s = .next (raise (.violation v) s) :=
  (execDecode_held hb hn h2 h0 h1).trans (legality_raises hb hv _)

/-- With the reserved bits 0 the opcode decides, by its class (R103). -/
theorem violationOf_reserved_zero (hz : h &&& 0x7000#16 = 0#16) :
    violationOf h =
      match opcodeClass (hdrOpcode h) with
      | .accepted => none
      | .reservedNoncontrol => some .reservedNoncontrolOpcode
      | .reservedControl => some .reservedControlOpcode :=
  if_neg (not_not.mpr hz)

/-- The violation of a header word by the numbers of R102 and R103, whatever its other fields are. -/
theorem violationOf_word_of_numbers {rsv : BitVec 3} {o : BitVec 4}
    (hr : if rsv ≠ 0#3 then v = .rsvSet
      else if 3 ≤ o.toNat ∧ o.toNat ≤ 7 then v = .reservedNoncontrolOpcode
      else 11 ≤ o.toNat ∧ v = .reservedControlOpcode) (f m : Bool) (l : BitVec 7) :
    violationOf (hdrWord f rsv o m l) = some v := by
  rw [violationOf_word]
  by_cases hz : rsv = 0#3
  · rw [if_neg (not_not.mpr hz)] at hr ⊢
    rw [opcodeClass]
    split at hr
    · next h3 => rw [if_pos h3, hr]
    · next h3 => rw [if_neg h3, if_pos ⟨hr.1, by omega⟩, hr.2]
  · rw [if_pos hz] at hr ⊢
    rw [hr]

/-! ### Framing faults -/

/-- The first framing fault of the bytes `r` after the header word `h`, if there is one (R147). -/
def framingFault (payloadMax : Nat) (h : BitVec 16) (r : List Byte) : Option Framing :=
  if r.length < extBytes (hdrBase h) then some .shortExtLen
  else if payloadMax < declaredLength (hdrBase h) r then some .lengthRange
  else if r.length < headerRest h then some .shortKey
  else if r.length < headerRest h + declaredLength (hdrBase h) r then some .shortPayload
  else if headerRest h + declaredLength (hdrBase h) r < r.length then some .trailingBytes
  else none

/-- Steps 4 to 6 raise the first framing fault, and deliver when there is none (R104 to R107, R109). -/
theorem decodeAfterOpcode_framing (m : Nat) (h : BitVec 16) (r : List Byte) :
    decodeAfterOpcode m h r =
      match framingFault m h r with
      | some f => .error (.framing f)
      | none => .ok (Frame.mk (hdrOpcode h) (hdrFin h) (payloadOf (hdrMask h) (r.drop (extBytes (hdrBase h))))) := by
  rw [framingFault, headerRest]
  by_cases he : r.length < extBytes (hdrBase h)
  · rw [if_pos he, decodeAfterOpcode_short he]
  rw [if_neg he, decodeAfterOpcode_whole (by omega)]
  by_cases hd : m < declaredLength (hdrBase h) r
  · rw [if_pos hd, decodeAfterLength, if_pos hd]
  have hsub : ∀ x, r.length - extBytes (hdrBase h) < x ↔ r.length < extBytes (hdrBase h) + x := by omega
  have hsub' : ∀ x, x < r.length - extBytes (hdrBase h) ↔ extBytes (hdrBase h) + x < r.length := by omega
  rw [if_neg hd, decodeAfterLength_inRange hd, decodePayload_cases, List.length_drop]
  simp only [hsub, hsub', ← Nat.add_assoc]
  split_ifs <;> rfl

/-- A buffer is well framed when it has no framing fault (R108). -/
theorem framingFault_eq_none (m : Nat) (a c : Byte) (r : List Byte) :
    framingFault m (be16 a c) r = none ↔ wellFramed m (a :: c :: r) = true := by
  rw [wellFramed_iff, framingFault, headerRest]
  split_ifs <;> simp <;> omega

/-- DECODE of a buffer whose header word is no violation (R109). -/
theorem decodeBytes_framing (m : Nat) (hv : violationOf (be16 a c) = none) :
    decodeBytes m (a :: c :: r) = decodeAfterOpcode m (be16 a c) r := by
  rw [decodeBytes, decodeAfterHeader, hv]

/-- The status in which DECODE ends (R108, R109, R148). -/
theorem endDecode_resStatus (s : State) (m : Nat) (a c : Byte) (r : List Byte) :
    (endDecode s (decodeBytes m (a :: c :: r))).resStatus =
      some (if (violationOf (be16 a c)).isSome then .protocolViolation
        else if wellFramed m (a :: c :: r) then .ok else .framingFault) := by
  cases hv : violationOf (be16 a c) with
  | some v => rw [decodeBytes, decodeAfterHeader, hv]; rfl
  | none =>
    rw [decodeBytes_framing m hv, decodeAfterOpcode_framing]
    cases hf : framingFault m (be16 a c) r with
    | none => rw [(framingFault_eq_none m a c r).mp hf]; rfl
    | some f =>
      have hw : wellFramed m (a :: c :: r) = false := by
        rw [← Bool.not_eq_true, ← framingFault_eq_none, hf]
        nofun
      rw [hw]
      rfl

theorem execDecode_framing {f : Framing} (hs : s.running (a :: c :: r)) (hv : violationOf (be16 a c) = none)
    (hf : framingFault s.payloadMax.toNat (be16 a c) r = some f) :
    exec .decode s = .next (raise (.framing f) s) := by
  refine (execDecode_endDecode hs.1 hs.2).trans ?_
  rw [decodeBytes_framing _ hv, decodeAfterOpcode_framing, hf]
  rfl

/-! ### The counts, from bytes 0 and 1 (R58) -/

theorem extBytes_be16 (a c : Byte) :
    extBytes (hdrBase (be16 a c)) =
      if (c &&& 0x7F#8).toNat = 126 then 2 else if (c &&& 0x7F#8).toNat = 127 then 8 else 0 := by
  rw [extBytes, ← hdrBase_be16 a c]
  simp only [← BitVec.toNat_inj, BitVec.toNat_ofNat, Nat.reducePow, Nat.reduceMod]

theorem keyBytes_be16 (a c : Byte) : keyBytes (hdrMask (be16 a c)) = if c.getLsbD 7 then 4 else 0 := by
  rw [hdrMask_be16, keyBytes]

theorem declaredLength_be16 (a c : Byte) (r : List Byte) :
    let base := (c &&& 0x7F#8).toNat
    let ext := if base = 126 then 2 else if base = 127 then 8 else 0
    declaredLength (hdrBase (be16 a c)) r = if ext = 0 then base else bigEndian (r.take ext) := by
  rw [declaredLength, extBytes_be16, hdrBase_be16]

/-- A buffer with no whole header word declares nothing. -/
theorem not_declaresItself_short {m : Nat} {b : List Byte} (hb : b.length < 2) : ¬ declaresItself m b := by
  rintro ⟨a, c, r, rfl, -⟩
  simp at hb

/-- R108's two ways to say that a buffer is well framed. -/
theorem wellFramed_iff_declaresItself (m : Nat) (a c : Byte) (r : List Byte) :
    wellFramed m (a :: c :: r) = true ↔ declaresItself m (a :: c :: r) := by
  have hk : ∀ c : Byte, keyBytes (c.getLsbD 7) = 4 * (c >>> 7).toNat := by decide
  have hd : declaresItself m (a :: c :: r) ↔
      2 + extBytes (hdrBase (be16 a c)) ≤ r.length + 2 ∧ declaredLength (hdrBase (be16 a c)) r ≤ m ∧
      r.length + 2 = 2 + extBytes (hdrBase (be16 a c)) + keyBytes (hdrMask (be16 a c)) +
        declaredLength (hdrBase (be16 a c)) r := by
    rw [declaredLength, hdrMask_be16, hk, extBytes_be16, hdrBase_be16]
    constructor
    · rintro ⟨_, _, _, ⟨⟩, hx⟩
      exact hx
    · exact fun hx => ⟨a, c, r, rfl, hx⟩
  rw [wellFramed_iff, hd]
  omega

/-! ### The statements -/

/-- Settles O11: the steps of DECODE are those of the pure function. -/
theorem decodeGivesTheFrameOrTheFailure : Obligations.DecodeGivesTheFrameOrTheFailure :=
  fun _ _ hs => execDecode_endDecode hs.1 hs.2

/-- Settles O19: both rows are well formed and have reserved bits 0 and an accepted opcode. -/
theorem maskedFlagRowsDeliver : Obligations.MaskedFlagRowsDeliver := fun _ _ _ ho =>
  ⟨deliversFrame_row ho rfl nofun rfl, deliversFrame_row ho rfl nofun rfl⟩

/-- Settles O22: each row checks its header word, and the violation depends on its reserved bits and opcode alone. -/
theorem otherRowsRaiseTheirHeadersViolation : Obligations.OtherRowsRaiseTheirHeadersViolation := by
  intro fin r o mask base e16 e64 k v hr
  have hv := violationOf_word_of_numbers hr
  refine ⟨?_, ?_, ?_, ?_, ?_, ?_, ?_, ?_, ?_, ?_, ?_, ?_, ?_⟩ <;> exact raisesViolation_legality (hv ..) rfl

/-- Settles O24: step 2 needs the header word alone. -/
theorem reservedBitsFailRegardlessOfTheRest : Obligations.ReservedBitsFailRegardlessOfTheRest :=
  ⟨rfl, fun _ _ _ _ hb hn h2 h0 h1 hm => execDecode_raises hb hn h2 h0 h1 (if_pos hm)⟩

/-- Settles O25: the class of the opcode decides, and after step 3 no violation is raised. -/
theorem opcodeIsValidated : Obligations.OpcodeIsValidated := by
  refine ⟨rfl, rfl, fun s n a c hb hn h2 h0 h1 hz => ?_⟩
  have hv := violationOf_reserved_zero hz
  have ho := hdrOpcode_be16 a c
  refine ⟨fun h3 h7 => ?_, fun h11 => ?_, fun hacc hin => ?_⟩
  · refine execDecode_raises hb hn h2 h0 h1 (hv.trans ?_)
    rw [opcodeClass, ho, if_pos ⟨h3, h7⟩]
  · have h15 := (hdrOpcode (be16 a c)).isLt
    refine execDecode_raises hb hn h2 h0 h1 (hv.trans ?_)
    rw [opcodeClass, ho, if_neg (by omega), if_pos ⟨h11, by omega⟩]
  · obtain ⟨b, hin⟩ := Option.isSome_iff_exists.mp hin
    obtain ⟨r, rfl⟩ := inputBytes_front hin hn h2 h0 h1
    refine ⟨_, execDecode_endDecode hb hin, ?_⟩
    rw [← ho, ← (opcodeMapHasThreeClasses _).1] at hacc
    rw [hacc] at hv
    rw [endDecode_resStatus, hv, if_neg nofun]
    split <;> nofun

/-- Settles O26: the counts from bytes 0 and 1 are those of the first framing fault. -/
theorem framingFaultsUnderTheirConditions : Obligations.FramingFaultsUnderTheirConditions := by
  intro s b hs
  refine ⟨fun hl => ?_, ?_⟩
  · refine (execDecode_endDecode hs.1 hs.2).trans ?_
    match b, hl with
    | [], _ | [_], _ => rfl
  · rintro a c r rfl hv base ext len key
    have hext : extBytes (hdrBase (be16 a c)) = ext := extBytes_be16 a c
    have hlen : declaredLength (hdrBase (be16 a c)) r = len := declaredLength_be16 a c r
    have hkey : keyBytes (hdrMask (be16 a c)) = key := keyBytes_be16 a c
    have hb : (a :: c :: r).length = r.length + 2 := rfl
    refine ⟨fun h => ?_, fun h1 h => ?_, fun h1 h2 h => ?_, fun h1 h2 h => ?_, fun h h2 => ?_⟩ <;>
      refine execDecode_framing hs hv ?_ <;>
      rw [framingFault, headerRest, hext, hlen, hkey]
    · rw [if_pos (by omega)]
    · rw [if_neg (by omega), if_pos h]
    · rw [if_neg (by omega), if_neg (by omega), if_pos (by omega)]
    · rw [if_neg (by omega), if_neg (by omega), if_neg (by omega), if_pos (by omega)]
    · rw [if_neg (by omega), if_neg (by omega), if_neg (by omega), if_neg (by omega), if_pos (by omega)]

/-- Settles O27: the status of DECODE, from the two bytes of the header word on; a shorter buffer declares nothing. -/
theorem wellFramedBuffersNeverFault : Obligations.WellFramedBuffersNeverFault := by
  intro s b hs
  match b, hs with
  | [], hs | [_], hs =>
    exact ⟨⟨nofun, fun h => absurd h (not_declaresItself_short (by simp))⟩, _, execDecode_endDecode hs.1 hs.2,
      fun h => absurd h (not_declaresItself_short (by simp)), fun _ => rfl⟩
  | a :: c :: r, hs =>
    have hw := wellFramed_iff_declaresItself s.payloadMax.toNat a c r
    refine ⟨hw, _, execDecode_endDecode hs.1 hs.2, fun h => ?_, fun h => ?_⟩
    · rw [endDecode_resStatus, if_pos (hw.mpr h)]
      split <;> nofun
    · rw [endDecode_resStatus, if_neg (mt hw.mp h)]

end Sys2Proof.Machine
end

section
/-! The masking transform byte by byte (R130), its key index (R132), the data and keys it is simple on (R134, R135),
and XFORM, once (R137) and twice (R131). -/

namespace Sys2Proof.Machine

/-! ### The key index -/

/-- The index that byte `i` meets is `i mod 4` (R132). -/
theorem keyByte_ofNat (k : Key) (i : Nat) :
    keyByte k (BitVec.ofNat 2 i) =
      if i % 4 = 0 then k.b0 else if i % 4 = 1 then k.b1 else if i % 4 = 2 then k.b2 else k.b3 := by
  simp only [keyByte, ← BitVec.toNat_inj, BitVec.toNat_ofNat, Nat.reducePow, Nat.reduceMod]

theorem bytes_getElem?_mod (k : Key) (i : Nat) : k.bytes[i % 4]? = some (keyByte k (BitVec.ofNat 2 i)) := by
  have hi : i % 4 < 4 := Nat.mod_lt i (by decide)
  rw [keyByte_ofNat]
  interval_cases i % 4 <;> rfl

/-- A key of four equal bytes is that byte at every index. -/
theorem keyByte_same (b : Byte) (j : BitVec 2) : keyByte (Key.mk b b b b) j = b := by
  simp only [keyByte, ite_self]

theorem idxAfter_eq (j : BitVec 2) (d : List Byte) : idxAfter j d = j + BitVec.ofNat 2 d.length := by
  induction d generalizing j with
  | nil => simp [idxAfter]
  | cons x d ih => rw [idxAfter, ih, List.length_cons, BitVec.ofNat_add, BitVec.add_assoc, BitVec.add_comm 1#2]

/-! ### The engine -/

/-- Byte `i` meets the key byte `i` steps after the index the engine began at (R130, R132). -/
theorem maskFrom_getElem? (k : Key) (j : BitVec 2) (d : List Byte) (i : Nat) :
    (maskFrom k j d)[i]? = d[i]?.map (· ^^^ keyByte k (j + BitVec.ofNat 2 i)) := by
  induction d generalizing j i with
  | nil => rfl
  | cons x d ih =>
    cases i with
    | zero => simp [maskFrom]
    | succ i =>
      rw [maskFrom, List.getElem?_cons_succ, List.getElem?_cons_succ, ih, BitVec.ofNat_add, BitVec.add_assoc,
        BitVec.add_comm 1#2]

theorem transform_getElem? (d : List Byte) (k : Key) (i : Nat) :
    (transform d k)[i]? = d[i]?.map (· ^^^ keyByte k (BitVec.ofNat 2 i)) := by
  rw [transform, maskFrom_getElem?, BitVec.zero_add]

/-- The engine may stop and go on: the index is all it keeps between bytes (R132). -/
theorem maskFrom_append (k : Key) (j : BitVec 2) (d e : List Byte) :
    maskFrom k j (d ++ e) = maskFrom k j d ++ maskFrom k (idxAfter j d) e := by
  induction d generalizing j with
  | nil => rfl
  | cons x d ih => rw [List.cons_append, maskFrom, ih, maskFrom, idxAfter, List.cons_append]

/-- A key of four equal bytes meets every byte of the data alike (R135). -/
theorem transform_same (b : Byte) (d : List Byte) : transform d (Key.mk b b b b) = d.map (· ^^^ b) := by
  refine List.ext_getElem? fun i => ?_
  rw [transform_getElem?, keyByte_same, List.getElem?_map]

/-! ### XFORM -/

/-- XFORM leaves the transform in OBUF, whatever was there (R137). -/
theorem execXform_output {s : State} {d : List Byte} {k : Key} (hs : s.running d) (hk : s.cmdKey = some k) :
    ∃ t, execXform s = .next t ∧ t.outputBytes = some (transform d k) :=
  ⟨_, execXform_run hs.1 hs.2 hk,
    outputBytes_setOutput (lt_of_eq_of_lt (transform_length d k) (inputBytes_length_lt hs.2)) s⟩

/-! ### The statements -/

/-- Settles O12: the steps of XFORM, run on operands that are held. -/
theorem xformTransformsTheInput : Obligations.XformTransformsTheInput :=
  fun _ _ _ hs hk => execXform_run hs.1 hs.2 hk

/-- Settles O29: the index that byte `i` meets is `i mod 4`. -/
theorem transformByteByByte : Obligations.TransformByteByByte := by
  intro d k
  refine ⟨transform_length d k, fun i x hx => ?_⟩
  rw [transform_getElem?, hx, Option.map_some, keyByte_ofNat]

/-- Settles O30: the engine undoes itself from any index. -/
theorem transformIsItsOwnInverse : Obligations.TransformIsItsOwnInverse := transform_transform

/-- Settles O31: the index counts bytes in two bits, and the engine goes on from it. -/
theorem keyIndexIsTheByteCountModFour : Obligations.KeyIndexIsTheByteCountModFour := by
  intro d e k
  refine ⟨?_, maskFrom_append k 0#2 d e⟩
  rw [idxAfter_eq, BitVec.zero_add, BitVec.toNat_ofNat]

/-- Settles O32: equal key bytes make the transform a map, and 0 XOR a key byte is that key byte. -/
theorem transformSpecialCases : Obligations.TransformSpecialCases := by
  refine ⟨fun _ => rfl, fun d => ?_, fun d => ?_, fun k n i hi => ?_, fun k => ?_⟩
  · simp only [transform_same, BitVec.xor_zero, List.map_id']
  · rw [transform_same]
    exact List.map_congr_left fun x _ => BitVec.xor_allOnes
  · rw [transform_getElem?, List.getElem?_replicate_of_lt hi, Option.map_some, BitVec.zero_xor, bytes_getElem?_mod]
  · simp only [transform, maskFrom, BitVec.zero_xor]
    rfl

/-- Settles O33: the second XFORM reads the transform of the data, and its own transform of that is the data. -/
theorem xformTwiceGivesTheDataBack : Obligations.XformTwiceGivesTheDataBack := by
  intro s u d k hs hk hu huk
  obtain ⟨t, ht, hout⟩ := execXform_output hs hk
  refine ⟨t, ht, fun hin => ?_⟩
  obtain ⟨v, hv, hback⟩ := execXform_output ⟨hu, hin.trans hout⟩ huk
  exact ⟨v, hv, by rw [hback, transform_transform]⟩

end Sys2Proof.Machine
end

section
/-! RESET, the platform's move (70_reset_and_hazards.md R170). -/

namespace Sys2Proof.Machine

/-- RESET asks for no phase: of the state before, only the parameter and the rest of the run stay (R170). -/
theorem perform_reset (s : State) :
    perform .reset s = .next { State.reset with payloadMax := s.payloadMax, pending := s.pending } := rfl

/-- Settles O45: the state after RESET differs from the reset state (O44) only in the parameter and the rest of
the run, of which `holdsNothing` does not speak. -/
theorem resetMoveClearsEveryPhase : Obligations.ResetMoveClearsEveryPhase :=
  fun s => ⟨_, perform_reset s, resetLeavesNoValue⟩

end Sys2Proof.Machine
end
